-- ==== Sys2Proof/Word.lean ====
section
/-! DEFINITION. The word types of the hardware (spec/00_scope.md R7, R11; spec/30_encoding.md R120):
the unsigned widths u8, u16, u32, u64, a pixel, an RGB color and a PVRTC word. -/

namespace Sys2Proof

/-- `u8`: one byte of memory or one 8-bit channel (R7). -/
abbrev Byte := BitVec 8

/-- `u16`: a 565 color (R110). -/
abbrev Half := BitVec 16

/-- `u32`: a host register, a command word, a PVRTC member (R32, R100, R120). -/
abbrev Word := BitVec 32

/-- `u64`: an address or the explicit alpha field (R70, R114). -/
abbrev DWord := BitVec 64

/-- A pixel `(r, g, b, a)` of u8 (R11). -/
structure Pixel where
  r : Byte
  g : Byte
  b : Byte
  a : Byte
deriving DecidableEq, Repr, Inhabited

/-- A color `(r, g, b)` of u8: what the color datapath sees of a pixel, and a palette entry (R201). -/
structure Rgb where
  r : Byte
  g : Byte
  b : Byte
deriving DecidableEq, Repr, Inhabited

/-- A PVRTC word: the 32-bit modulation member and the 32-bit color member (R120). -/
structure PvWord where
  mod : Word
  col : Word
deriving DecidableEq, Repr, Inhabited

end Sys2Proof
end

