-- ==== Sys2Proof/Machine/Scratch.lean ====
section
/-! DEFINITION. The scratch state of one tile (spec/10_state.md R45 to R47, with the flags of R42): plain data,
each field named as the spec names it. -/

namespace Sys2Proof.Machine

/-- `PAL[0..3]`: the color palette, 4 × 3 × u8 (R46, R201). -/
structure Palette where
  p0 : Rgb
  p1 : Rgb
  p2 : Rgb
  p3 : Rgb
deriving DecidableEq, Repr, Inhabited

/-- An alpha ramp: the endpoints `A0`, `A1` and the 16 × 3-bit index field `AIDX` (R46, R113). -/
structure RampBlock where
  a0 : Byte
  a1 : Byte
  aidx : BitVec 48
deriving DecidableEq, Repr, Inhabited

/-- The encoder scratch of R46 and the encoder flags of R42. -/
structure EncScratch where
  /-- `BLK[0..15]`, the extracted block (R151). -/
  blk : Vector Pixel 16
  /-- `MINC`, the lower box corner (R171). -/
  minc : Pixel
  /-- `MAXC`, the upper box corner (R171). -/
  maxc : Pixel
  /-- `PA`, the first 565 endpoint before ordering (R172, R176). -/
  pa : Half
  /-- `PB`, the second 565 endpoint before ordering (R172, R176). -/
  pb : Half
  /-- `C0`, the first ordered endpoint (R180). -/
  c0 : Half
  /-- `C1`, the second ordered endpoint (R180). -/
  c1 : Half
  /-- `SWAP` (R42, R180). -/
  swap : Bool
  /-- `PAL` (R201). -/
  pal : Palette
  /-- `THREE` (R42, R201). -/
  three : Bool
  /-- `IDX`, the color index word (R204, R206). -/
  idx : Word
  /-- `ERRC`, the total squared color error of the high-quality mode, u22 (R206). -/
  errc : BitVec 22
  /-- `A0`, `A1`, `AIDX` (R234, R236). -/
  ramp : RampBlock
  /-- `A0'`, `A1'`, `AIDX'`, the second channel's ramp of a DXN block (R46, R262). -/
  ramp' : RampBlock
  /-- `ORI` (R42, R236). -/
  ori : Bool
  /-- `EXA`, the explicit alpha nibbles (R237). -/
  exa : DWord
  /-- `OUTB`, the assembled block, 8 or 16 bytes (R265 to R268). -/
  outb : List Byte
deriving DecidableEq, Repr, Inhabited

/-- The decoder scratch of R47 and the flag `PT` of R42. Grids are listed row by row: `MODV[i][j]` is entry
`j · 2·WW + i`, `UA[c][r]` is entry `r · WW + c`. -/
structure DecScratch where
  /-- `WP`, the tile's own word (R302, R304). -/
  wp : PvWord
  /-- `WQ`, the word at +1 in x. -/
  wq : PvWord
  /-- `WR`, the word at +1 in y. -/
  wr : PvWord
  /-- `WS`, the word at +1 in both. -/
  ws : PvWord
  /-- `MODV[i][j]`, 0 to 14, `none` where R315 stores nothing ("hold no value", R47). -/
  modv : List (Option (Fin 15))
  /-- `MODM[i][j]`, 0 to 3 (R313 to R315). -/
  modm : List (Fin 4)
  /-- `UA[c][r]` (R322). -/
  ua : List Pixel
  /-- `UB[c][r]` (R322). -/
  ub : List Pixel
  /-- `PT` of the pixel last computed (R42, R325). -/
  pt : Bool
  /-- `OUTT[c][r]`, the decoded tile (R302). -/
  outt : List Pixel
deriving DecidableEq, Repr, Inhabited

/-- All scratch state of one tile (R45). -/
structure Scratch where
  enc : EncScratch
  dec : DecScratch
deriving DecidableEq, Repr, Inhabited

/-- The value State.reset gives the scratch state: all zero. DESIGN CHOICE (log 1), unsafe: the spec leaves the scratch
unspecified at reset (R52, R391). -/
def Scratch.zero : Scratch where
  enc :=
    { blk := Vector.replicate 16 ⟨0, 0, 0, 0⟩, minc := ⟨0, 0, 0, 0⟩, maxc := ⟨0, 0, 0, 0⟩, pa := 0, pb := 0, c0 := 0,
      c1 := 0, swap := false, pal := ⟨⟨0, 0, 0⟩, ⟨0, 0, 0⟩, ⟨0, 0, 0⟩, ⟨0, 0, 0⟩⟩, three := false, idx := 0, errc := 0,
      ramp := ⟨0, 0, 0⟩, ramp' := ⟨0, 0, 0⟩, ori := false, exa := 0, outb := [] }
  dec :=
    { wp := ⟨0, 0⟩, wq := ⟨0, 0⟩, wr := ⟨0, 0⟩, ws := ⟨0, 0⟩, modv := [], modm := [], ua := [], ub := [], pt := false,
      outt := [] }

end Sys2Proof.Machine
end

