-- ==== Sys2Proof/Config.lean ====
section
/-! DEFINITION. The implementation parameters of spec/00_scope.md R6, the launch parameters a model takes as
arguments, and the free values: constants with no body, of which nothing can be proved. -/

namespace Sys2Proof

/-- A range of byte addresses `[base, base + size)`. -/
structure Region where
  base : Nat
  size : Nat
deriving DecidableEq, Repr

/-- The OPEN parameters of R6 that are plain data: arguments of the model, held in State so that every statement is about
every value of them. No step changes one. -/
structure Params where
  /-- `REG_BASE`, the address of the register block (R6, R32). -/
  regBase : DWord
  /-- `Admit` (R70): the addresses that hold memory, as a list of regions. -/
  admitted : List Region
  /-- The addresses whose reads have side effects or are not stable (R82). -/
  unstable : List Region
  /-- `NORMAL_INSET_SHIFT`, a natural number 0 to 8 (R6). -/
  normalInsetShift : Fin 9
deriving DecidableEq, Repr

/-- `COLOR_INSET_SHIFT` (R6). -/
def Config.colorInsetShift : Nat := 4

/-- `ALPHA_INSET_SHIFT` (R6). -/
def Config.alphaInsetShift : Nat := 5

/-- `DXN_CH0`: red (R6). -/
def Config.dxnCh0 : Fin 4 := 0

/-- `DXN_CH1`: green (R6). -/
def Config.dxnCh1 : Fin 4 := 1

/-- `FLAT_BLACK_ALL` (R6). -/
def Config.flatBlackAll : Bool := true

/-- `HQ_ENDPOINTS` of a block with three or more distinct colors, as a function of the block's sixteen (r, g, b) values
(R176): a free value (log 9). -/
opaque Config.hqFree : List Rgb → Half × Half

/-- Which of the two endpoints of `HQ_ENDPOINTS` is `PA` (law L2 of R179 fixes the set only): a free value (log 9). -/
opaque Config.hqFlip : List Rgb → Bool

/-- `mid = (mx - mn) / 14` of R234 where `mx < mn`, which the spec does not define (R9 divides no negative value): a free
value (log 10). -/
opaque Config.negativeMid : Nat → Nat → Int

/-- The weight of a position of `MODV` that holds no value (R47): a free value (log 11), which R318 says no rule reads. -/
opaque Config.unstoredWeight : Nat → Nat → Nat

/-- The n-th drawn bit: the choice between two values of a race (R86, R390): a free value (log 7). -/
opaque Config.drawBit : Nat → Bool

/-- The n-th drawn number: which of several values a host read returns (R85) or a reset leaves (R390): a free value (log 7). -/
opaque Config.drawNat : Nat → Nat

/-- The n-th drawn byte: "any value" (R82, R86, R372): a free value (log 7). -/
opaque Config.drawByte : Nat → Byte

/-- The n-th drawn scratch state: what a tile (R45) and the reset input (R390) leave in the scratch: a free value (log 7). -/
opaque Config.drawScratch : Nat → Machine.Scratch

end Sys2Proof
end

