-- ==== Sys2Proof/Syntax.lean ====
section
/-! DEFINITION. The commands of the engine (spec/30_encoding.md R101), one constructor per row of
spec/opcode_table.json, and the assembler line of R104. A command word has no operand fields (R103), so
no constructor has an argument: a command's operands are the host registers. -/

namespace Sys2Proof

/-- The eleven commands of R101. -/
inductive Instr where
  /-- `CLR` (word 0x00, R369). -/
  | clr
  /-- `ENC.DXT1.FAST` (word 0x01, R270). -/
  | encDxt1Fast
  /-- `ENC.DXT1.HQ` (word 0x11, R271). -/
  | encDxt1Hq
  /-- `ENC.DXT3.FAST` (word 0x02, R272). -/
  | encDxt3Fast
  /-- `ENC.DXT3.HQ` (word 0x12, R273). -/
  | encDxt3Hq
  /-- `ENC.DXT5.FAST` (word 0x03, R274). -/
  | encDxt5Fast
  /-- `ENC.DXT5.HQ` (word 0x13, R275). -/
  | encDxt5Hq
  /-- `ENC.DXN.FAST` (word 0x04, R276). -/
  | encDxnFast
  /-- `ENC.DXN.HQ` (word 0x14, R277). -/
  | encDxnHq
  /-- `DEC.PVRTC2` (word 0x08, R330). -/
  | decPvrtc2
  /-- `DEC.PVRTC4` (word 0x09, R331). -/
  | decPvrtc4
deriving DecidableEq, Repr, Inhabited

/-- The four encode targets (R3, R264). -/
inductive Fmt where
  | dxt1
  | dxt3
  | dxt5
  | dxn
deriving DecidableEq, Repr

/-- The two quality levels (R3, R100 field Q). -/
inductive Quality where
  | fast
  | high
deriving DecidableEq, Repr

/-- The two PVRTC modes: `bpp` is 2 or 4 (46_pvrtc_decoder.md, notation). -/
inductive Bpp where
  | two
  | four
deriving DecidableEq, Repr

/-- What a command does: the columns of R101. -/
inductive Kind where
  | clear
  | enc (f : Fmt) (q : Quality)
  | dec (b : Bpp)
deriving DecidableEq, Repr

/-- An assembler line (R104): a mnemonic and its operands in the order `dst, src, width, height[, depth]`. -/
structure AsmLine where
  instr : Instr
  operands : List Nat
deriving DecidableEq, Repr

end Sys2Proof
end

