-- ==== Sys2Proof/Machine/State.lean ====
section
/-! DEFINITION. The state of the machine: the engine's registers, cursor and scratch (spec/10_state.md), the shared memory
(spec/20_memory.md), the launch parameters (spec/00_scope.md R6), and the host's side: its pending moves and what it
last read. Everything is plain data. -/

namespace Sys2Proof.Machine

/-- The error codes of R360. Codes 6 to 15 are reserved and never reported, so they have no constructor. -/
inductive ErrCode where
  /-- 1, `E_UNSUPPORTED`. -/
  | unsupported
  /-- 2, `E_DIM_NOT_POW2`. -/
  | dimNotPow2
  /-- 3, `E_DIM_TOO_SMALL`. -/
  | dimTooSmall
  /-- 4, `E_RANGE`. -/
  | range
  /-- 5, `E_OVERLAP`. -/
  | overlap
deriving DecidableEq, Repr

/-- STATUS (R32, R34): STATE, with ERR when STATE is ERROR. Only the engine writes it, and its other bits read 0. -/
inductive Status where
  /-- STATE = 0: no command has run since reset or CLR. -/
  | idle
  /-- STATE = 1: a command is running. -/
  | busy
  /-- STATE = 2: the last command completed. -/
  | done
  /-- STATE = 3: the last command failed a precondition, with its code in ERR. -/
  | error (c : ErrCode)
deriving DecidableEq, Repr

/-- Memory: (address, byte) pairs in the canonical form `Memory.wf` (Machine/Ops.lean). -/
abbrev Memory := List Host.Cell

/-- One move of the host (R33, R104). A register is named by its word index, offset / 4, so that no other width or offset
exists (R33). -/
inductive HostMove where
  /-- `WR`: a 32-bit register write at offset `4 · reg`. -/
  | wr (reg : Fin 16) (value : Word)
  /-- `RD`: a 32-bit register read at offset `4 · reg`. -/
  | rd (reg : Fin 16)
  /-- `MW`: host memory writes from `addr` upward. -/
  | mw (addr : DWord) (bytes : List Byte)
  /-- `MR`: `n` host memory reads from `addr` upward. -/
  | mr (addr : DWord) (n : Nat)
  /-- `WAIT`: `RD STATUS` repeated until STATE ≠ 1. -/
  | wait
deriving DecidableEq, Repr

/-- What happens next (R30, R368): a host move, an engine step, or the reset input (R390). The list of events in State is the
interleaving the model chooses; where it is empty the engine steps (R397). -/
inductive Event where
  | host (m : HostMove)
  | engine
  | reset
deriving DecidableEq, Repr

/-- What the host's last read returned. -/
inductive HostRx where
  | nothing
  | word (w : Word)
  | bytes (bs : List Byte)
deriving DecidableEq, Repr

/-- What the model remembers of a running command to answer its races (R82, R86, R390, R372): the model's own fields. -/
structure Race where
  /-- Memory as it was when the command started. -/
  startMem : Memory
  /-- A source byte was written by the host while BUSY, or its reads are not stable (R82, R86). -/
  tainted : Bool
  /-- The host's writes to destination bytes while BUSY, the last value of each address (R86). -/
  hostWrites : List Host.Cell
deriving DecidableEq, Repr

/-- No command is running: nothing to remember. -/
def Race.none : Race := ⟨[], false, []⟩

/-- The values that a host read of a byte may still return in place of the one memory holds, because no read of STATUS has made the
engine's write of the byte visible (R85): the model's own fields (log 17). -/
structure Unseen where
  /-- Of the command that was last DONE, while no read of STATUS has returned DONE since. -/
  last : List Host.Cell
  /-- Of commands that were followed by another's start before any read of STATUS returned DONE for them. -/
  earlier : List Host.Cell
  /-- Of no engine write that the host may still see later: what a reset left, and what the engine held where the host wrote over a
  byte of `last` or `earlier`. A host write of the byte ends them. -/
  left : List Host.Cell
deriving DecidableEq, Repr

/-- Every engine write is visible to the host. -/
def Unseen.none : Unseen := ⟨[], [], []⟩

/-- The state of the machine. -/
structure State where
  /-- CMD, offset 0x00 (R32). -/
  cmd : Word
  /-- STATUS, offset 0x04 (R32, R34). -/
  status : Status
  /-- SRC_LO, offset 0x08. -/
  srcLo : Word
  /-- SRC_HI, offset 0x0C. -/
  srcHi : Word
  /-- DST_LO, offset 0x10. -/
  dstLo : Word
  /-- DST_HI, offset 0x14. -/
  dstHi : Word
  /-- WIDTH, offset 0x18. -/
  width : Word
  /-- HEIGHT, offset 0x1C. -/
  height : Word
  /-- DEPTH, offset 0x20. -/
  depth : Word
  /-- `TC`, the tile cursor, an unbounded natural (R40). -/
  tc : Nat
  /-- `NT`, the number of tiles of the command (R40). -/
  nt : Nat
  /-- The scratch state of one tile (R45 to R47). Between tiles it is unspecified: every tile leaves a free value here (log 14). -/
  scratch : Scratch
  /-- The scratch as the last tile had it at the end of its step, recorded for test vectors (R42): the model's own field, which no
  step reads (log 14). -/
  lastTile : Scratch
  /-- The memory shared by host and engine (R50, R70). -/
  mem : Memory
  /-- The launch parameters: `REG_BASE`, `Admit`, the unstable addresses, `NORMAL_INSET_SHIFT` (R6). -/
  params : Params
  /-- The events still to come, first one first (R368). -/
  events : List Event
  /-- What the host's last `RD` or `MR` returned. -/
  rx : HostRx
  /-- The races of the running command: the model's own field. -/
  race : Race
  /-- What the host may not have seen yet of the engine's writes (R85): the model's own field. -/
  unseen : Unseen
  /-- How many free values have been drawn: the model's own field. -/
  draws : Nat
deriving DecidableEq, Repr

/-- The reasons the machine stops with a fault. -/
inductive Fault where
  /-- Raised by a host `MW` or `MR` that names a byte where `Admit` says there is no memory: the spec gives the platform's
  answer no form (R70). Safe: the machine stops where the hardware would go on. -/
  | hostUnmapped
deriving DecidableEq, Repr

/-- The reasons the machine refuses a move. -/
inductive Refusal where
  /-- Raised by exec for an instruction that has no meaning in this model. Safe. -/
  | notModelled (mnemonic : String)
  /-- Raised by a host `MW` or `MR` that names a byte of the register block: an access other than an aligned 32-bit one is
  no move of the model (R33, R372). Safe. -/
  | registerBlockBytes
deriving DecidableEq, Repr

/-- What a step answers. -/
abbrev Out := Host.Outcome State Fault Refusal

/-- The launch parameters State.reset carries. DESIGN CHOICE (log 2), unsafe: they are arguments of the model and no statement rests
on these values. -/
def Params.atReset : Params where
  regBase := 0xFFFFFFFF00000000
  admitted := [⟨0, 2 ^ 64⟩]
  unstable := []
  normalInsetShift := 5

/-- The machine right after reset (R52, R390, R391). -/
def State.reset : State where
  cmd := 0
  status := .idle
  srcLo := 0
  srcHi := 0
  dstLo := 0
  dstHi := 0
  width := 0
  height := 0
  depth := 0
  tc := 0
  nt := 0
  scratch := Scratch.zero
  lastTile := Scratch.zero
  mem := []
  params := Params.atReset
  events := []
  rx := .nothing
  race := Race.none
  unseen := Unseen.none
  draws := 0

end Sys2Proof.Machine
end

