-- ==== Sys2Proof/Machine/Flags.lean ====
section
/-! DEFINITION. Every flag computation (spec/10_state.md R34, R42): the STATUS word and the per-tile flags. -/

namespace Sys2Proof.Machine

/-- The value of STATUS.STATE (R34). -/
def stateField : Status → Nat
  | .idle => 0
  | .busy => 1
  | .done => 2
  | .error _ => 3

/-- The numbers of the error codes (R360). -/
def errNumber : ErrCode → Nat
  | .unsupported => 1
  | .dimNotPow2 => 2
  | .dimTooSmall => 3
  | .range => 4
  | .overlap => 5

/-- The value of STATUS.ERR: the error code when STATE = 3 and 0 otherwise (R34). -/
def errField : Status → Nat
  | .idle => 0
  | .busy => 0
  | .done => 0
  | .error c => errNumber c

/-- STATUS as the host reads it: STATE in bits 1:0, ERR in bits 7:4, every other bit 0 (R32). -/
def statusWord (t : Status) : Word := BitVec.ofNat 32 (16 * errField t + stateField t)

/-- `SWAP` (R42, R180): the endpoints are exchanged when `PA < PB`. -/
def swapFlag (pa pb : Half) : Bool := decide (pa.toNat < pb.toNat)

/-- `THREE` (R42, R201): `C0 ≤ C1` with the flat-black switch on. -/
def threeFlag (c0 c1 : Half) (fb : Bool) : Bool := decide (c0.toNat ≤ c1.toNat) && fb

/-- `ORI` (R42, R236): orientation (b) when its error is the lower one. -/
def oriFlag (ea eb : Nat) : Bool := decide (eb < ea)

/-- `PT` (R42, R325): a weight above 10 is punch-through. -/
def ptFlag (w : Nat) : Bool := decide (10 < w)

end Sys2Proof.Machine
end

