-- ==== Sys2Proof/WellFormed.lean ====
section
/-! DEFINITION. Well-formedness. A command has no operand fields (spec/30_encoding.md R103), so every `Instr` is well formed;
what can be ill formed is an assembler line (R104), whose operands are checked here. -/

namespace Sys2Proof

/-- Every command of the table is well formed: no constructor has a field (R103). -/
abbrev Instr.WellFormed (_ : Instr) : Prop := True

/-- How many operands a mnemonic takes (R104): none for `CLR`, `dst, src, width, height` for a decode command, and `depth`
as well for an encode command. -/
def AsmLine.arity : Instr → Nat
  | .clr => 0
  | .encDxt1Fast => 5
  | .encDxt1Hq => 5
  | .encDxt3Fast => 5
  | .encDxt3Hq => 5
  | .encDxt5Fast => 5
  | .encDxt5Hq => 5
  | .encDxnFast => 5
  | .encDxnHq => 5
  | .decPvrtc2 => 4
  | .decPvrtc4 => 4

/-- Check 1: the line has its mnemonic's number of operands. -/
abbrev AsmLine.ArityOk (l : AsmLine) : Prop := l.operands.length = AsmLine.arity l.instr

/-- Check 2: `dst` and `src` are addresses of 64 bits (R6, R70). -/
abbrev AsmLine.AddressesOk (l : AsmLine) : Prop := ∀ v ∈ l.operands.take 2, v < 2 ^ 64

/-- Check 3: `width`, `height` and `depth` fit their 32-bit registers (R6, R32). -/
abbrev AsmLine.DimensionsOk (l : AsmLine) : Prop := ∀ v ∈ l.operands.drop 2, v < 2 ^ 32

/-- A well-formed assembler line (R104). -/
abbrev AsmLine.WellFormed (l : AsmLine) : Prop := l.ArityOk ∧ l.AddressesOk ∧ l.DimensionsOk

end Sys2Proof
end

