-- ==== Sys2Proof/Decode.lean ====
section
/-! DEFINITION. The command word (spec/30_encoding.md R100 to R102): a total decoder that refuses every illegal word by
name, and the encoder written from the same table. -/

namespace Sys2Proof

/-- Why a word is illegal (R102). -/
inductive DecodeError where
  /-- `RSV ≠ 0`. -/
  | reservedBits
  /-- `OP` in 0x5 to 0x7 or 0xA to 0xF. -/
  | reservedOp
  /-- `Q = 1` with `OP` in 0x0, 0x8, 0x9. -/
  | qualityBit
deriving DecidableEq, Repr

/-- What the decoder answers. -/
inductive Decoded where
  | ok (i : Instr)
  | illegal (e : DecodeError)
deriving DecidableEq, Repr

/-- Field `OP`, bits 3:0 (R100). -/
def fieldOp (w : Word) : Nat := w.toNat % 16

/-- Field `Q`, bit 4 (R100). -/
def fieldQ (w : Word) : Nat := w.toNat / 16 % 2

/-- Field `RSV`, bits 31:5 (R100). -/
def fieldRsv (w : Word) : Nat := w.toNat / 32

/-- The row of R101 that `OP` and `Q` select. -/
def selectCommand : Nat → Nat → Decoded
  | 0x0, 0 => .ok .clr
  | 0x1, 0 => .ok .encDxt1Fast
  | 0x1, 1 => .ok .encDxt1Hq
  | 0x2, 0 => .ok .encDxt3Fast
  | 0x2, 1 => .ok .encDxt3Hq
  | 0x3, 0 => .ok .encDxt5Fast
  | 0x3, 1 => .ok .encDxt5Hq
  | 0x4, 0 => .ok .encDxnFast
  | 0x4, 1 => .ok .encDxnHq
  | 0x8, 0 => .ok .decPvrtc2
  | 0x9, 0 => .ok .decPvrtc4
  | 0x0, _ => .illegal .qualityBit
  | 0x8, _ => .illegal .qualityBit
  | 0x9, _ => .illegal .qualityBit
  | _, _ => .illegal .reservedOp

/-- The decoder of command words (R100 to R102). -/
def decode (w : Word) : Decoded :=
  if fieldRsv w = 0 then selectCommand (fieldOp w) (fieldQ w) else .illegal .reservedBits

/-- `OP` of each command (R101). -/
def opOf : Instr → Nat
  | .clr => 0x0
  | .encDxt1Fast => 0x1
  | .encDxt1Hq => 0x1
  | .encDxt3Fast => 0x2
  | .encDxt3Hq => 0x2
  | .encDxt5Fast => 0x3
  | .encDxt5Hq => 0x3
  | .encDxnFast => 0x4
  | .encDxnHq => 0x4
  | .decPvrtc2 => 0x8
  | .decPvrtc4 => 0x9

/-- `Q` of each command (R101). -/
def qOf : Instr → Nat
  | .clr => 0
  | .encDxt1Fast => 0
  | .encDxt1Hq => 1
  | .encDxt3Fast => 0
  | .encDxt3Hq => 1
  | .encDxt5Fast => 0
  | .encDxt5Hq => 1
  | .encDxnFast => 0
  | .encDxnHq => 1
  | .decPvrtc2 => 0
  | .decPvrtc4 => 0

/-- The command word `{27'b0, Q, OP}` (R101). -/
def encode (i : Instr) : Word := BitVec.ofNat 32 (16 * qOf i + opOf i)

/-- What each command does (R101). -/
def kindOf : Instr → Kind
  | .clr => .clear
  | .encDxt1Fast => .enc .dxt1 .fast
  | .encDxt1Hq => .enc .dxt1 .high
  | .encDxt3Fast => .enc .dxt3 .fast
  | .encDxt3Hq => .enc .dxt3 .high
  | .encDxt5Fast => .enc .dxt5 .fast
  | .encDxt5Hq => .enc .dxt5 .high
  | .encDxnFast => .enc .dxn .fast
  | .encDxnHq => .enc .dxn .high
  | .decPvrtc2 => .dec .two
  | .decPvrtc4 => .dec .four

/-- The decoder on a word numbered as spec/opcode_table.json numbers it: `nbits` bits, every bit above them 0. A value that does
not fit one 32-bit command word is no command word. -/
def decodeTableWord (nbits w : Nat) : Option Instr :=
  let v := w % 2 ^ nbits
  if v < 2 ^ 32 then
    match decode (BitVec.ofNat 32 v) with
    | .ok i => some i
    | .illegal _ => none
  else none

end Sys2Proof
end

