-- ==== Sys2Proof/Machine/Bits.lean ====
section
/-! DEFINITION. Bit fields, byte order and channel helpers (spec/00_scope.md R8, R9, R11; spec/20_memory.md R74). -/

namespace Sys2Proof.Machine

/-- `v[hi:lo]` (R8). -/
def bits (v hi lo : Nat) : Nat := v / 2 ^ lo % 2 ^ (hi - lo + 1)

/-- `v[i]` (R8), as 0 or 1. -/
def bit (v i : Nat) : Nat := v / 2 ^ i % 2

/-- `ceil(a / b)` (R9). -/
def ceilDiv (a b : Nat) : Nat := (a + b - 1) / b

/-- `abs(a - b)` of two naturals (R9). -/
def absDiff (a b : Nat) : Nat := (a - b) + (b - a)

/-- Byte k of a little-endian value, `v[8k+7:8k]` (R74). -/
def byteOf (v k : Nat) : Byte := BitVec.ofNat 8 (v / 2 ^ (8 * k))

/-- The n bytes of a little-endian value, the lowest address first (R73, R74). -/
def leBytes (n v : Nat) : List Byte := (List.range n).map (byteOf v)

/-- The value of bytes in little-endian order (R72, R74). -/
def leValue : List Byte → Nat
  | [] => 0
  | b :: bs => b.toNat + 256 * leValue bs

/-- `p[ch]` with 0 = r, 1 = g, 2 = b, 3 = a (R11). -/
def chan (p : Pixel) (ch : Fin 4) : Byte :=
  match ch with
  | 0 => p.r
  | 1 => p.g
  | 2 => p.b
  | 3 => p.a

/-- The (r, g, b) of a pixel. -/
def rgbOf (p : Pixel) : Rgb := ⟨p.r, p.g, p.b⟩

/-- The four bytes of a pixel, r at the lowest address (R75). -/
def pixelBytes (p : Pixel) : List Byte := [p.r, p.g, p.b, p.a]

/-- The sixteen values of one channel of a block, in pixel order (R262). -/
def channel (blk : Vector Pixel 16) (ch : Fin 4) : List Byte := blk.toList.map (chan · ch)

/-- `Pack565(r, g, b)` (R110). -/
def pack565 (r g b : Byte) : Half :=
  BitVec.ofNat 16 ((r.toNat / 8) * 2 ^ 11 + (g.toNat / 4) * 2 ^ 5 + b.toNat / 8)

/-- `Expand565(p)` (R111). -/
def expand565 (p : Half) : Rgb :=
  let r5 := bits p.toNat 15 11
  let g6 := bits p.toNat 10 5
  let b5 := bits p.toNat 4 0
  ⟨BitVec.ofNat 8 (r5 * 8 + r5 / 4), BitVec.ofNat 8 (g6 * 4 + g6 / 16), BitVec.ofNat 8 (b5 * 8 + b5 / 4)⟩

/-- `Rep4to5(v)` (R307). -/
def rep4to5 (v : Nat) : Nat := v * 2 + v / 8

/-- `Rep3to5(v)` (R307). -/
def rep3to5 (v : Nat) : Nat := v * 4 + v / 2

end Sys2Proof.Machine
end

