-- ==== Sys2Proof/Machine/Operands.lean ====
section
/-! DEFINITION. Every operand form: the addresses and dimensions a command takes from the host registers
(spec/30_encoding.md R103), its tile counts and tile positions (spec/10_state.md R40, R41), and its regions
(spec/20_memory.md R76 to R79). -/

namespace Sys2Proof.Machine

/-- `SRC = {SRC_HI, SRC_LO}` (R32). -/
def srcAddr (s : State) : Nat := s.srcHi.toNat * 2 ^ 32 + s.srcLo.toNat

/-- `DST = {DST_HI, DST_LO}` (R32). -/
def dstAddr (s : State) : Nat := s.dstHi.toNat * 2 ^ 32 + s.dstLo.toNat

/-- The operand WIDTH, taken whole (R103). -/
def opW (s : State) : Nat := s.width.toNat

/-- The operand HEIGHT, taken whole (R103). -/
def opH (s : State) : Nat := s.height.toNat

/-- The operand DEPTH, taken whole (R103). -/
def opD (s : State) : Nat := s.depth.toNat

/-- `BS`, the block size of a format (R6, R264). -/
def blockSize : Fmt → Nat
  | .dxt1 => 8
  | .dxt3 => 16
  | .dxt5 => 16
  | .dxn => 16

/-- Whether a format has a color block (R264). -/
def hasColor : Fmt → Bool
  | .dxt1 => true
  | .dxt3 => true
  | .dxt5 => true
  | .dxn => false

/-- `FB(op)`, the flat-black switch of a format (R264). -/
def flatBlack : Fmt → Bool
  | .dxt1 => true
  | .dxt3 => Config.flatBlackAll
  | .dxt5 => Config.flatBlackAll
  | .dxn => false

/-- `bpp` as a number. -/
def bppOf : Bpp → Nat
  | .two => 2
  | .four => 4

/-- `WW`, the width of a PVRTC word in pixels (R6). -/
def ww : Bpp → Nat
  | .two => 8
  | .four => 4

/-- `WH`, the height of a PVRTC word in pixels (R6). -/
def wh : Bpp → Nat
  | .two => 4
  | .four => 4

/-- `MINW`, the least image width (R6). -/
def minW : Bpp → Nat
  | .two => 16
  | .four => 8

/-- `MINH`, the least image height (R6). -/
def minH : Bpp → Nat
  | .two => 8
  | .four => 8

/-- `bw = ceil(WIDTH/4)` (R41). -/
def blocksW (s : State) : Nat := ceilDiv (opW s) 4

/-- `bh = ceil(HEIGHT/4)` (R41). -/
def blocksH (s : State) : Nat := ceilDiv (opH s) 4

/-- `NT` of an encode command (R40, R260). -/
def encTiles (s : State) : Nat := blocksW s * blocksH s * opD s

/-- `nX = W / WW` (R78). -/
def wordsX (b : Bpp) (s : State) : Nat := opW s / ww b

/-- `nY = H / WH` (R78). -/
def wordsY (b : Bpp) (s : State) : Nat := opH s / wh b

/-- `NT` of a decode command (R40, R300). -/
def decTiles (b : Bpp) (s : State) : Nat := wordsX b s * wordsY b s

/-- The slice of tile TC (R41). -/
def tileZ (s : State) : Nat := s.tc / (blocksW s * blocksH s)

/-- The block row of tile TC (R41). -/
def tileBy (s : State) : Nat := s.tc % (blocksW s * blocksH s) / blocksW s

/-- The block column of tile TC (R41). -/
def tileBx (s : State) : Nat := s.tc % blocksW s

/-- `wordX` of tile TC, from -1 (R41, R301). -/
def tileWordX (b : Bpp) (s : State) : Int := (s.tc % wordsX b s : Nat) - 1

/-- `wordY` of tile TC, from -1 (R41, R301). -/
def tileWordY (b : Bpp) (s : State) : Int := (s.tc / wordsX b s : Nat) - 1

/-- The length of a command's source region (R76, R78, R364). -/
def srcLen (i : Instr) (s : State) : Nat :=
  match kindOf i with
  | .clear => 0
  | .enc _ _ => 4 * opW s * opH s * opD s
  | .dec b => opW s * opH s * bppOf b / 8

/-- The length of a command's destination region (R77, R79, R364). -/
def dstLen (i : Instr) (s : State) : Nat :=
  match kindOf i with
  | .clear => 0
  | .enc f _ => blockSize f * blocksW s * blocksH s * opD s
  | .dec _ => 4 * opW s * opH s

/-- `NT` of a command (R40). -/
def tilesOf (i : Instr) (s : State) : Nat :=
  match kindOf i with
  | .clear => 0
  | .enc _ _ => encTiles s
  | .dec b => decTiles b s

/-- An address lies in a command's source region. -/
def inSource (i : Instr) (s : State) (a : Nat) : Bool := decide (srcAddr s ≤ a ∧ a < srcAddr s + srcLen i s)

/-- An address lies in a command's destination region. -/
def inDest (i : Instr) (s : State) (a : Nat) : Bool := decide (dstAddr s ≤ a ∧ a < dstAddr s + dstLen i s)

end Sys2Proof.Machine
end

