-- ==== Sys2Proof/Machine/Ops.lean ====
section
/-! DEFINITION. The named operations every meaning is written over: memory (spec/20_memory.md), host registers
(spec/10_state.md R32 to R35), the start checks and the error entry and its return (spec/60_exceptions.md R364 to R370),
starting a command and taking one tile step (R260, R261, R300, R301), and the reset input (spec/70_reset_and_hazards.md R390). -/

namespace Sys2Proof.Machine

/-! ## Memory -/

/-- What an address that memory does not list reads as: 0. DESIGN CHOICE (log 3), unsafe. -/
def memDefault : Byte := 0

/-- The canonical form of memory: addresses strictly rising and below 2^64 (R70), no entry equal to `memDefault`. -/
abbrev Memory.wf (m : Memory) : Prop :=
  m.Pairwise (fun c d => c.1 < d.1) ∧ ∀ c ∈ m, c.2 ≠ memDefault ∧ c.1 < 2 ^ 64

/-- Read one byte (R72 with n = 1). -/
def Memory.read : Memory → Nat → Byte
  | [], _ => memDefault
  | (a, v) :: m, x => if x = a then v else Memory.read m x

/-- Write one byte (R73), keeping the canonical form. -/
def Memory.write : Memory → Nat → Byte → Memory
  | [], x, v => if v = memDefault then [] else [(x, v)]
  | (a, w) :: m, x, v =>
    if x < a then (if v = memDefault then (a, w) :: m else (x, v) :: (a, w) :: m)
    else if x = a then (if v = memDefault then m else (x, v) :: m)
    else (a, w) :: Memory.write m x v

/-- Write single bytes one after another (R73). -/
def Memory.writes (m : Memory) (cells : List Host.Cell) : Memory :=
  cells.foldl (fun m c => Memory.write m c.1 c.2) m

/-- The `n` bytes at `addr` upward. -/
def Memory.readBytes (m : Memory) (addr n : Nat) : List Byte :=
  (List.range n).map (fun k => Memory.read m (addr + k))

/-- `MemRead(addr, 4)`: four byte reads as one little-endian number (R72). -/
def Memory.read32 (m : Memory) (addr : Nat) : Word :=
  BitVec.ofNat 32 (leValue (Memory.readBytes m addr 4))

/-- The pixel whose bytes start at `addr` (R75, R151). -/
def Memory.readPixel (m : Memory) (addr : Nat) : Pixel :=
  ⟨Memory.read m addr, Memory.read m (addr + 1), Memory.read m (addr + 2), Memory.read m (addr + 3)⟩

/-- Bytes paired with the addresses they go to, `addr` upward (R73). -/
def cellsAt (addr : Nat) : List Byte → List Host.Cell
  | [] => []
  | b :: bs => (addr, b) :: cellsAt (addr + 1) bs

/-- The region holds the address. -/
def inRegion (r : Region) (a : Nat) : Bool := decide (r.base ≤ a ∧ a < r.base + r.size)

/-- The address is one of the register block `[REG_BASE, REG_BASE + 0x40)` (R32, R83). -/
def inRegBlock (p : Params) (a : Nat) : Bool := decide (p.regBase.toNat ≤ a ∧ a < p.regBase.toNat + 0x40)

/-- `Admit(addr)` as the platform gives it: a byte of memory exists there, in the space 0 to 2^64 - 1 (R70). -/
def admits (p : Params) (a : Nat) : Bool := decide (a < 2 ^ 64) && p.admitted.any (inRegion · a)

/-- `Admit(addr)` for an engine access: false on the register block (R83). -/
def engineAdmits (p : Params) (a : Nat) : Bool := admits p a && !inRegBlock p a

/-- The address's reads are not stable (R82). -/
def isUnstable (p : Params) (a : Nat) : Bool := p.unstable.any (inRegion · a)

/-! ## Host registers -/

/-- A register read (R32, R34): the read-write registers as last written, STATUS, and 0 at a reserved offset. -/
def readReg (r : Fin 16) (s : State) : Word :=
  match r.val with
  | 0 => s.cmd
  | 1 => statusWord s.status
  | 2 => s.srcLo
  | 3 => s.srcHi
  | 4 => s.dstLo
  | 5 => s.dstHi
  | 6 => s.width
  | 7 => s.height
  | 8 => s.depth
  | _ => 0

/-- A register write while STATE ≠ BUSY (R35): CMD latches its word, the operand registers store theirs, STATUS and the
reserved offsets ignore it (R32, R34). -/
def storeReg (r : Fin 16) (v : Word) (s : State) : State :=
  match r.val with
  | 0 => { s with cmd := v }
  | 2 => { s with srcLo := v }
  | 3 => { s with srcHi := v }
  | 4 => { s with dstLo := v }
  | 5 => { s with dstHi := v }
  | 6 => { s with width := v }
  | 7 => { s with height := v }
  | 8 => { s with depth := v }
  | _ => s

/-- A register write: dropped while STATE = BUSY (R35). -/
def writeReg (r : Fin 16) (v : Word) (s : State) : State :=
  if s.status = .busy then s else storeReg r v s

/-! ## Errors -/

/-- Taking an error (R365): STATUS becomes ERROR with the code, and nothing else changes. There is no saved register, no
handler and no vector (R360, R370). -/
def errorEntry (c : ErrCode) (s : State) : State := { s with status := .error c }

/-- The return (R369, R370): STATUS becomes IDLE with ERR = 0. -/
def clearStatus (s : State) : State := { s with status := .idle }

/-- `v` is a power of two: `v ≥ 1 and v & (v - 1) = 0` (R364). -/
def isPow2 (v : Nat) : Bool := decide (1 ≤ v) && (v &&& (v - 1) == 0)

/-- The two region checks of R364, in exact arithmetic. -/
def checkRegions (i : Instr) (s : State) : Option ErrCode :=
  if 2 ^ 64 < srcAddr s + srcLen i s ∨ 2 ^ 64 < dstAddr s + dstLen i s then some .range
  else if 0 < srcLen i s ∧ 0 < dstLen i s ∧ srcAddr s < dstAddr s + dstLen i s ∧ dstAddr s < srcAddr s + srcLen i s then
    some .overlap
  else none

/-- `StartChecks` of a legal word (R364): the first check that fails gives the code. -/
def startChecks (i : Instr) (s : State) : Option ErrCode :=
  match kindOf i with
  | .clear => none
  | .enc _ _ => checkRegions i s
  | .dec b =>
    if isPow2 (opW s) && isPow2 (opH s) then
      if opW s < minW b ∨ opH s < minH b then some .dimTooSmall else checkRegions i s
    else some .dimNotPow2

/-! ## Running a command -/

/-- Some address of the command's source region is unstable (R82). -/
def sourceUnstable (i : Instr) (s : State) : Bool :=
  s.params.unstable.any (fun r =>
    decide (0 < r.size ∧ r.base < srcAddr s + srcLen i s ∧ srcAddr s < r.base + r.size))

/-- What is unseen once another command starts: no read of STATUS will return DONE for the command before, so what its host has not
seen stays without a promise (R85). -/
def Unseen.older (u : Unseen) : Unseen := ⟨[], u.last ++ u.earlier, u.left⟩

/-- A command with no tile is DONE at once (R260). -/
def startEmpty (s : State) : State :=
  { s with tc := 0, nt := 0, status := .done, race := Race.none, unseen := s.unseen.older }

/-- A command with tiles is BUSY, with `TC <- 0` and `NT` as R40 (R260, R300). -/
def startTiles (i : Instr) (s : State) : State :=
  { s with tc := 0, nt := tilesOf i s, status := .busy, race := ⟨s.mem, sourceUnstable i s, []⟩, unseen := s.unseen.older }

/-- `EncodeStart` and `DecodeStart` once the checks have passed (R260, R300). -/
def startRun (i : Instr) (s : State) : State := if tilesOf i s = 0 then startEmpty s else startTiles i s

/-- A command's start (R35, R364, R365): the checks, then the error entry or the run. -/
def commandStart (i : Instr) (s : State) : State :=
  match startChecks i s with
  | some c => errorEntry c s
  | none => startRun i s

/-- What one tile does: the addresses it reads, the bytes it writes in order, and the scratch at the end of its step. -/
structure TileEffect where
  reads : List Nat
  writes : List Host.Cell
  scratch : Scratch

/-- Every byte the tile reads or writes is admitted to the engine (R72, R73). -/
def tileAdmitted (p : Params) (e : TileEffect) : Bool :=
  e.reads.all (engineAdmits p) && e.writes.all (fun c => engineAdmits p c.1)

/-- The tile's effect and `TC <- TC + 1` (R261, R301). The tile's scratch is recorded, and what the engine then holds in its scratch
is any value: none of it is carried to the next tile (R45, log 14). -/
def afterTile (e : TileEffect) (s : State) : State :=
  { s with
    scratch := Config.drawScratch s.draws, lastTile := e.scratch, mem := Memory.writes s.mem e.writes, tc := s.tc + 1
    draws := s.draws + 1 }

/-- Taking a tile: no effect at all where a byte is not admitted (R72, R73). -/
def takeTile (e : TileEffect) (s : State) : Option State :=
  if tileAdmitted s.params e then some (afterTile e s) else none

/-- The cells that an engine write may reach. -/
def admittedCells (p : Params) (cells : List Host.Cell) : List Host.Cell :=
  cells.filter (fun c => engineAdmits p c.1)

/-- The cells a command's races leave at DONE (R82, R86): "any value" for every destination byte when the source was not
stable, else for each destination byte the host wrote the host's value where the drawn bit says so. -/
def settleCells (i : Instr) (s : State) : List Host.Cell :=
  if s.race.tainted then
    (List.range (dstLen i s)).map (fun k => (dstAddr s + k, Config.drawByte (s.draws + k)))
  else (s.race.hostWrites.zipIdx s.draws).filterMap (fun c => if Config.drawBit c.2 then some c.1 else none)

/-- How many values `settleCells` draws. -/
def settleDraws (i : Instr) (s : State) : Nat :=
  if s.race.tainted then dstLen i s else s.race.hostWrites.length

/-- What a host read may return in place of what a command writes, until a read of STATUS returns DONE (R85): at each destination byte
the value from the command's start, and where the host wrote one while BUSY the engine's value and the host's. -/
def unseenCells (i : Instr) (s : State) : List Host.Cell :=
  (List.range (dstLen i s)).map (fun k => (dstAddr s + k, Memory.read s.race.startMem (dstAddr s + k))) ++
    s.race.hostWrites.flatMap (fun c => [(c.1, Memory.read s.mem c.1), c])

/-- What is unseen at DONE: the command's writes wait for a read of STATUS, and with them all that the host might still read at an
address of its destination (R85). -/
def completeUnseen (i : Instr) (s : State) : Unseen :=
  ⟨unseenCells i s ++ (s.unseen.earlier ++ s.unseen.left).filter (fun c => inDest i s c.1),
    s.unseen.earlier.filter (fun c => !inDest i s c.1), s.unseen.left.filter (fun c => !inDest i s c.1)⟩

/-- Completion (R40): STATUS becomes DONE, the races of the command are settled (R86), and its writes wait to be seen (R85). -/
def complete (i : Instr) (s : State) : State :=
  { s with
    status := .done
    mem := Memory.writes s.mem (admittedCells s.params (settleCells i s))
    draws := s.draws + settleDraws i s
    race := Race.none
    unseen := completeUnseen i s }

/-- After a tile: completion when `TC = NT` (R40). -/
def finishTile (i : Instr) (s : State) : State := if s.tc = s.nt then complete i s else s

/-- One engine step of a running command (R261, R301). It is enabled while `TC < NT`; where a byte is not admitted the engine is
stuck: STATE stays BUSY with TC unchanged (R72, R362). -/
def engineStep (i : Instr) (e : TileEffect) (s : State) : State :=
  if s.tc < s.nt then
    match takeTile e s with
    | some t => finishTile i t
    | none => s
  else s

/-- The meaning of an encode or a decode command: written to CMD while STATE ≠ BUSY it starts (R35); while it is the running
command it takes its next tile (R261, R301); written while another command runs it is dropped (R35). -/
def runCommand (i : Instr) (tile : State → TileEffect) (s : State) : Out :=
  if s.status = .busy then
    if s.cmd = encode i then .next (engineStep i (tile s) s) else .next s
  else .next (commandStart i s)

end Sys2Proof.Machine
end

