-- ==== Sys2Proof/Machine/Endpoint.lean ====
section
/-! DEFINITION. The Color Endpoint Selector (spec/42_endpoint_selector.md R170 to R181). The exact real-arithmetic rules R175 and
R178 stand in Machine/Ideal.lean. -/

namespace Sys2Proof.Machine

/-- The least of a list of u8 values. -/
def minOf (vals : List Byte) : Nat := vals.foldl (fun m v => min m v.toNat) 255

/-- The greatest of a list of u8 values. -/
def maxOf (vals : List Byte) : Nat := vals.foldl (fun m v => max m v.toNat) 0

/-- `InsetRange(vals, s) -> (lo', hi')` (R170). -/
def insetRange (vals : List Byte) (shift : Nat) : Byte × Byte :=
  let lo := minOf vals
  let hi := maxOf vals
  let ins := (hi - lo) / 2 ^ shift
  (BitVec.ofNat 8 (min (lo + ins) 255), BitVec.ofNat 8 (max (hi - ins) 0))

/-- `FastBox(blk) -> (MINC, MAXC)` (R171). -/
def fastBox (blk : Vector Pixel 16) : Pixel × Pixel :=
  let r := insetRange (channel blk 0) Config.colorInsetShift
  let g := insetRange (channel blk 1) Config.colorInsetShift
  let b := insetRange (channel blk 2) Config.colorInsetShift
  let a := insetRange (channel blk 3) Config.colorInsetShift
  (⟨r.1, g.1, b.1, a.1⟩, ⟨r.2, g.2, b.2, a.2⟩)

/-- `FastEndpoints(blk) -> (PA, PB)`, from the box (R172). -/
def fastEndpoints (box : Pixel × Pixel) : Half × Half :=
  (pack565 box.2.r box.2.g box.2.b, pack565 box.1.r box.1.g box.1.b)

/-- One coordinate of `Q565` at the point c/255: `floor(n·c/255 + ½)` (R177). -/
def quantLevel (n c : Nat) : Nat := (2 * n * c + 255) / 510

/-- `Q565(c/255)` of an RGB color (R177). -/
def q565 (c : Rgb) : Half :=
  BitVec.ofNat 16 (quantLevel 31 c.r.toNat * 2 ^ 11 + quantLevel 63 c.g.toNat * 2 ^ 5 + quantLevel 31 c.b.toNat)

/-- The sixteen (r, g, b) values of a block: all that `HQ_ENDPOINTS` depends on (law L3 of R179). -/
def blockRgb (blk : Vector Pixel 16) : List Rgb := blk.toList.map rgbOf

/-- The distinct colors of a list, in the order of their first occurrence. -/
def distinctColors : List Rgb → List Rgb
  | [] => []
  | c :: cs => c :: (distinctColors cs).filter (fun d => decide (d ≠ c))

/-- The two endpoints of `HQ_ENDPOINTS`, in no particular order: fixed by the laws L1 and L2 of R179 for one and for two
distinct colors, and a free value for three or more (R176, log 9). -/
def hqPair (cs : List Rgb) : Half × Half :=
  match distinctColors cs with
  | [c] => (q565 c, q565 c)
  | [c, d] => (q565 c, q565 d)
  | _ => Config.hqFree cs

/-- `HQ_ENDPOINTS(blk) -> (PA, PB)` (R176): which of the pair is `PA` is a free value. -/
def hqEndpoints (blk : Vector Pixel 16) : Half × Half :=
  let p := hqPair (blockRgb blk)
  if Config.hqFlip (blockRgb blk) then (p.2, p.1) else p

/-- `Order(PA, PB) -> (C0, C1)` (R180). Its flag is `swapFlag` (Machine/Flags.lean). -/
def order (pa pb : Half) : Half × Half := if pa.toNat < pb.toNat then (pb, pa) else (pa, pb)

end Sys2Proof.Machine
end

