-- ==== Sys2Proof/Machine/IndexQuant.lean ====
section
/-! DEFINITION. The Index Quantizer (spec/43_index_quantizer.md R200 to R207). -/

namespace Sys2Proof.Machine

/-- `(wa·a + wb·b) / n` per channel, truncating (R201). -/
def blend (wa wb n : Nat) (a b : Rgb) : Rgb :=
  ⟨BitVec.ofNat 8 ((wa * a.r.toNat + wb * b.r.toNat) / n), BitVec.ofNat 8 ((wa * a.g.toNat + wb * b.g.toNat) / n),
    BitVec.ofNat 8 ((wa * a.b.toNat + wb * b.b.toNat) / n)⟩

/-- `Palette(C0, C1, fb) -> PAL[0..3]` (R201). Its flag is `threeFlag` (Machine/Flags.lean). -/
def palette (c0 c1 : Half) (fb : Bool) : Palette :=
  let e0 := expand565 c0
  let e1 := expand565 c1
  if threeFlag c0 c1 fb then ⟨e0, e1, blend 1 1 2 e0 e1, ⟨0, 0, 0⟩⟩
  else ⟨e0, e1, blend 2 1 3 e0 e1, blend 1 2 3 e0 e1⟩

/-- `SAD(e, p)` (R202). -/
def sad (e : Rgb) (p : Pixel) : Nat :=
  absDiff e.r.toNat p.r.toNat + absDiff e.g.toNat p.g.toNat + absDiff e.b.toNat p.b.toNat

/-- `SSD(e, p)` (R205). -/
def ssd (e : Rgb) (p : Pixel) : Nat :=
  absDiff e.r.toNat p.r.toNat ^ 2 + absDiff e.g.toNat p.g.toNat ^ 2 + absDiff e.b.toNat p.b.toNat ^ 2

/-- The comparator cascade of R203 on the four distances. -/
def cascade (d0 d1 d2 d3 : Nat) : Nat :=
  let b0 := decide (d3 < d0)
  let b1 := decide (d2 < d1)
  let b2 := decide (d2 < d0)
  let b3 := decide (d3 < d1)
  let b4 := decide (d3 < d2)
  let x0 := b1 && b2
  let x1 := b0 && b3
  let x2 := b0 && b4
  x2.toNat + 2 * (x0 || x1).toNat

/-- `FastIndex(PAL, p)` (R203). -/
def fastIndex (pal : Palette) (p : Pixel) : Nat :=
  cascade (sad pal.p0 p) (sad pal.p1 p) (sad pal.p2 p) (sad pal.p3 p)

/-- The least k whose distance is the least of the list, counted from the list's head (R206, R235). -/
def leastIndex : List Nat → Nat
  | [] => 0
  | [_] => 0
  | d :: ds => if ds.all (fun e => decide (d ≤ e)) then 0 else leastIndex ds + 1

/-- The least distance of a list. -/
def leastOf : List Nat → Nat
  | [] => 0
  | [d] => d
  | d :: ds => min d (leastOf ds)

/-- The four squared distances of a pixel (R206). -/
def ssds (pal : Palette) (p : Pixel) : List Nat := [ssd pal.p0 p, ssd pal.p1 p, ssd pal.p2 p, ssd pal.p3 p]

/-- The index the high-quality mode gives a pixel (R206). -/
def hqIndex (pal : Palette) (p : Pixel) : Nat := leastIndex (ssds pal p)

/-- The loop of R204 and R206: pixels in reverse order, `acc <- (acc << n) | index`, so that the index of pixel i lands at bits
`n·i` upward. -/
def packIndices (n : Nat) : List Nat → Nat
  | [] => 0
  | k :: ks => packIndices n ks * 2 ^ n + k

/-- `FastIndices(blk, C0, C1, fb) -> IDX`, from the palette (R204). -/
def fastIndices (pal : Palette) (blk : Vector Pixel 16) : Word :=
  BitVec.ofNat 32 (packIndices 2 (blk.toList.map (fastIndex pal)))

/-- The `IDX` of `HQIndices(blk, C0, C1, fb)`, from the palette (R206). -/
def hqIndices (pal : Palette) (blk : Vector Pixel 16) : Word :=
  BitVec.ofNat 32 (packIndices 2 (blk.toList.map (hqIndex pal)))

/-- The `ERRC` of `HQIndices(blk, C0, C1, fb)`, from the palette (R206). -/
def hqError (pal : Palette) (blk : Vector Pixel 16) : BitVec 22 :=
  BitVec.ofNat 22 ((blk.toList.map (fun p => leastOf (ssds pal p))).sum)

end Sys2Proof.Machine
end

