-- ==== Sys2Proof/Machine/AlphaRamp.lean ====
section
/-! DEFINITION. The Alpha Ramp Coder (spec/44_alpha_ramp_coder.md R230 to R239). -/

namespace Sys2Proof.Machine

/-- `Ramp(a0, a1) -> L[0..7]` (R231). -/
def ramp (a0 a1 : Byte) : List Nat :=
  let x := a0.toNat
  let y := a1.toNat
  if y < x then [x, y, (6 * x + y) / 7, (5 * x + 2 * y) / 7, (4 * x + 3 * y) / 7, (3 * x + 4 * y) / 7, (2 * x + 5 * y) / 7,
    (x + 6 * y) / 7]
  else [x, y, (4 * x + y) / 5, (3 * x + 2 * y) / 5, (2 * x + 3 * y) / 5, (x + 4 * y) / 5, 0, 255]

/-- `AlphaRange(vals, s) -> (lo, hi)` (R232). -/
def alphaRange (vals : List Byte) (shift : Nat) : Byte × Byte := insetRange vals shift

/-- `mid = (mx - mn) / 14` of R234, and a free value where `mx < mn` (log 10): only an inset shift of 0 gives that. -/
def rampMid (mn mx : Nat) : Int := if mn ≤ mx then ((mx - mn) / 14 : Nat) else Config.negativeMid mn mx

/-- The seven thresholds `ab[1..7]` of R234. -/
def rampThresholds (mn mx : Nat) : List Int :=
  ((mn : Int) + rampMid mn mx) ::
    (List.range 6).map (fun j => (((7 - (j + 1)) * mx + (j + 1) * mn) / 7 : Nat) + rampMid mn mx)

/-- The index R234 gives a value: `x = (cnt + 1) & 7`, then `x XOR 1` where `x < 2`. -/
def fastRampIndex (ab : List Int) (v : Byte) : Nat :=
  let cnt := ab.countP (fun t => decide ((v.toNat : Int) ≤ t))
  let x := (cnt + 1) % 8
  if x < 2 then 1 - x else x

/-- `FastAlpha(vals, s) -> (A0, A1, AIDX)` (R234). -/
def fastAlpha (vals : List Byte) (shift : Nat) : RampBlock :=
  let r := alphaRange vals shift
  let ab := rampThresholds r.1.toNat r.2.toNat
  ⟨r.2, r.1, BitVec.ofNat 48 (packIndices 3 (vals.map (fastRampIndex ab)))⟩

/-- The squared distances of a value from the eight levels (R235). -/
def rampDistances (levels : List Nat) (v : Byte) : List Nat := levels.map (fun l => absDiff v.toNat l ^ 2)

/-- The indices of `RampFit(vals, a0, a1)` (R235). -/
def rampFitIdx (vals : List Byte) (a0 a1 : Byte) : List Nat :=
  vals.map (fun v => leastIndex (rampDistances (ramp a0 a1) v))

/-- The error of `RampFit(vals, a0, a1)` (R235). -/
def rampFitErr (vals : List Byte) (a0 a1 : Byte) : Nat :=
  (vals.map (fun v => leastOf (rampDistances (ramp a0 a1) v))).sum

/-- The flag `ORI` that `HQAlpha(vals, s)` writes (R236). -/
def hqOri (vals : List Byte) (shift : Nat) : Bool :=
  let r := alphaRange vals shift
  oriFlag (rampFitErr vals r.2 r.1) (rampFitErr vals r.1 r.2)

/-- `HQAlpha(vals, s) -> (A0, A1, AIDX)` (R236). -/
def hqAlpha (vals : List Byte) (shift : Nat) : RampBlock :=
  let r := alphaRange vals shift
  if hqOri vals shift then ⟨r.1, r.2, BitVec.ofNat 48 (packIndices 3 (rampFitIdx vals r.1 r.2))⟩
  else ⟨r.2, r.1, BitVec.ofNat 48 (packIndices 3 (rampFitIdx vals r.2 r.1))⟩

/-- `ExplicitAlpha(vals) -> EXA` (R237). -/
def explicitAlpha (vals : List Byte) : DWord :=
  BitVec.ofNat 64 (packIndices 4 (vals.map (fun v => v.toNat / 16)))

end Sys2Proof.Machine
end

