-- ==== Sys2Proof/Machine/Extractor.lean ====
section
/-! DEFINITION. The Block Extractor (spec/41_block_extractor.md R150 to R152). -/

namespace Sys2Proof.Machine

/-- The source column of tile column x: clamped at the last valid column (R151). -/
def clampX (s : State) (bx x : Nat) : Nat := min (4 * bx + x) (opW s - 1)

/-- The source row of tile row y: clamped at the last valid row (R151). -/
def clampY (s : State) (by_ y : Nat) : Nat := min (4 * by_ + y) (opH s - 1)

/-- The address of the source pixel at column sx, row sy of slice z (R76, R151). -/
def sourcePixelAddr (s : State) (z sy sx : Nat) : Nat :=
  srcAddr s + 4 * ((z * opH s + sy) * opW s + sx)

/-- The address of pixel `i = 4·y + x` of the tile (R151). -/
def tilePixelAddr (s : State) (z bx by_ i : Nat) : Nat :=
  sourcePixelAddr s z (clampY s by_ (i / 4)) (clampX s bx (i % 4))

/-- The sixty-four addresses `Extract` reads (R151). -/
def extractReads (s : State) (z bx by_ : Nat) : List Nat :=
  (List.range 16).flatMap (fun i => (List.range 4).map (fun k => tilePixelAddr s z bx by_ i + k))

/-- `Extract(z, bx, by)`: the block `BLK` (R151). -/
def extract (s : State) (z bx by_ : Nat) : Vector Pixel 16 :=
  Vector.ofFn (fun i : Fin 16 => Memory.readPixel s.mem (tilePixelAddr s z bx by_ i.val))

end Sys2Proof.Machine
end

