-- ==== Sys2Proof/Machine/Assembler.lean ====
section
/-! DEFINITION. The DXT Block Assembler and the eight encode commands (spec/45_block_assembler.md R260 to R281). -/

namespace Sys2Proof.Machine

/-- `ColorBlock(blk, 0, fb)` (R265): the scratch the fast color stages write. -/
def colorFast (fb : Bool) (e : EncScratch) : EncScratch :=
  let box := fastBox e.blk
  let p := fastEndpoints box
  let o := order p.1 p.2
  let pal := palette o.1 o.2 fb
  { e with
    minc := box.1, maxc := box.2, pa := p.1, pb := p.2, c0 := o.1, c1 := o.2, swap := swapFlag p.1 p.2, pal := pal,
    three := threeFlag o.1 o.2 fb, idx := fastIndices pal e.blk }

/-- `ColorBlock(blk, 1, fb)` (R265): the scratch the high-quality color stages write. The ordered pair is taken from `hqPair`, whose
order `Order` does not keep (Laws/Datapath.lean `order_comm`), so the free value that says which one is `PA` does not reach it. -/
def colorHq (fb : Bool) (e : EncScratch) : EncScratch :=
  let p := hqEndpoints e.blk
  let u := hqPair (blockRgb e.blk)
  let o := order u.1 u.2
  let pal := palette o.1 o.2 fb
  { e with
    pa := p.1, pb := p.2, c0 := o.1, c1 := o.2, swap := swapFlag p.1 p.2, pal := pal,
    three := threeFlag o.1 o.2 fb, idx := hqIndices pal e.blk, errc := hqError pal e.blk }

/-- `ColorBlock(blk, q, fb)` (R265). -/
def colorBlock (q : Quality) (fb : Bool) (e : EncScratch) : EncScratch :=
  match q with
  | .fast => colorFast fb e
  | .high => colorHq fb e

/-- `AlphaBlock(vals, s, q)` (R266). -/
def alphaBlock (q : Quality) (vals : List Byte) (shift : Nat) : RampBlock :=
  match q with
  | .fast => fastAlpha vals shift
  | .high => hqAlpha vals shift

/-- The flag `ORI` after `AlphaBlock`: written in high quality only (R262, R266). -/
def alphaOri (q : Quality) (vals : List Byte) (shift : Nat) (old : Bool) : Bool :=
  match q with
  | .fast => old
  | .high => hqOri vals shift

/-- Stage (2) of the alpha part of DXT5 (R262). -/
def alphaDxt5 (q : Quality) (e : EncScratch) : EncScratch :=
  { e with
    ramp := alphaBlock q (channel e.blk 3) Config.alphaInsetShift
    ori := alphaOri q (channel e.blk 3) Config.alphaInsetShift e.ori }

/-- Stage (3), the two channels of DXN (R262). -/
def alphaDxn (q : Quality) (shift : Nat) (e : EncScratch) : EncScratch :=
  { e with
    ramp := alphaBlock q (channel e.blk Config.dxnCh0) shift
    ramp' := alphaBlock q (channel e.blk Config.dxnCh1) shift
    ori := alphaOri q (channel e.blk Config.dxnCh1) shift e.ori }

/-- `ColorBytes` (R267). -/
def colorBytes (e : EncScratch) : List Byte :=
  leBytes 2 e.c0.toNat ++ leBytes 2 e.c1.toNat ++ leBytes 4 e.idx.toNat

/-- `RampBytes` (R267). -/
def rampBytes (r : RampBlock) : List Byte := [r.a0, r.a1] ++ leBytes 6 r.aidx.toNat

/-- `ExplicitBytes` (R267). -/
def explicitBytes (e : EncScratch) : List Byte := leBytes 8 e.exa.toNat

/-- `Serialize(fmt) -> OUTB` (R268). -/
def serialize (f : Fmt) (e : EncScratch) : List Byte :=
  match f with
  | .dxt1 => colorBytes e
  | .dxt3 => explicitBytes e ++ colorBytes e
  | .dxt5 => rampBytes e.ramp ++ colorBytes e
  | .dxn => rampBytes e.ramp ++ rampBytes e.ramp'

/-- Stages (2) to (4) of `EncodeTile` on the extracted block (R262, R264). -/
def encodeStages (f : Fmt) (q : Quality) (shift : Nat) (e : EncScratch) : EncScratch :=
  match f with
  | .dxt1 => colorBlock q (flatBlack .dxt1) e
  | .dxt3 => { colorBlock q (flatBlack .dxt3) e with exa := explicitAlpha (channel e.blk 3) }
  | .dxt5 => alphaDxt5 q (colorBlock q (flatBlack .dxt5) e)
  | .dxn => alphaDxn q shift e

/-- The scratch of a tile whose block is `blk`: the stages, then `OUTB` (R262). -/
def encodeBlock (f : Fmt) (q : Quality) (shift : Nat) (blk : Vector Pixel 16) (old : EncScratch) : EncScratch :=
  let e := encodeStages f q shift { old with blk := blk }
  { e with outb := serialize f e }

/-- The address of tile TC's block, `DST + BS·TC` (R261). -/
def blockAddr (f : Fmt) (s : State) : Nat := dstAddr s + blockSize f * s.tc

/-- The encoder scratch tile TC leaves (R262). -/
def encodedScratch (f : Fmt) (q : Quality) (s : State) : EncScratch :=
  encodeBlock f q s.params.normalInsetShift.val (extract s (tileZ s) (tileBx s) (tileBy s)) s.scratch.enc

/-- `EncodeTile(op, q, z, bx, by)` of tile TC (R261, R262). -/
def encodeTile (f : Fmt) (q : Quality) (s : State) : TileEffect where
  reads := extractReads s (tileZ s) (tileBx s) (tileBy s)
  writes := cellsAt (blockAddr f s) (encodedScratch f q s).outb
  scratch := { s.scratch with enc := encodedScratch f q s }

/-- `ENC.DXT1.FAST` (R270). -/
def execEncDxt1Fast (s : State) : Out := runCommand .encDxt1Fast (encodeTile .dxt1 .fast) s

/-- `ENC.DXT1.HQ` (R271). -/
def execEncDxt1Hq (s : State) : Out := runCommand .encDxt1Hq (encodeTile .dxt1 .high) s

/-- `ENC.DXT3.FAST` (R272). -/
def execEncDxt3Fast (s : State) : Out := runCommand .encDxt3Fast (encodeTile .dxt3 .fast) s

/-- `ENC.DXT3.HQ` (R273). -/
def execEncDxt3Hq (s : State) : Out := runCommand .encDxt3Hq (encodeTile .dxt3 .high) s

/-- `ENC.DXT5.FAST` (R274). -/
def execEncDxt5Fast (s : State) : Out := runCommand .encDxt5Fast (encodeTile .dxt5 .fast) s

/-- `ENC.DXT5.HQ` (R275). -/
def execEncDxt5Hq (s : State) : Out := runCommand .encDxt5Hq (encodeTile .dxt5 .high) s

/-- `ENC.DXN.FAST` (R276). -/
def execEncDxnFast (s : State) : Out := runCommand .encDxnFast (encodeTile .dxn .fast) s

/-- `ENC.DXN.HQ` (R277). -/
def execEncDxnHq (s : State) : Out := runCommand .encDxnHq (encodeTile .dxn .high) s

end Sys2Proof.Machine
end

