-- ==== Sys2Proof/Machine/Control.lean ====
section
/-! DEFINITION. The command CLR (spec/60_exceptions.md R369). -/

namespace Sys2Proof.Machine

/-- `CLR` (R369): STATUS returns to IDLE; while STATE = BUSY it is dropped (R35). -/
def execClr (s : State) : Out := if s.status = .busy then .next s else .next (clearStatus s)

end Sys2Proof.Machine
end

