-- ==== Sys2Proof/Machine/Pvrtc.lean ====
section
/-! DEFINITION. The PVRTC Word Decoder and the two decode commands (spec/46_pvrtc_decoder.md R300 to R333). -/

namespace Sys2Proof.Machine

/-! ## Fetching the four words -/

/-- `Wrap(n, i) = (n + i) mod n` (R302). -/
def wrap (n : Nat) (i : Int) : Nat := ((n + i) % n).toNat

/-- The loop of `TwiddleUV`: `n` bits are interleaved so far; `fuel` bounds the loop, and `minDim` is enough (R303). -/
def twiddleLoop (minDim x y : Nat) : Nat → Nat → Nat → Nat × Nat
  | 0, n, t => (n, t)
  | fuel + 1, n, t =>
    if 2 ^ n < minDim then
      twiddleLoop minDim x y fuel (n + 1) (t + bit y n * 2 ^ (2 * n) + bit x n * 2 ^ (2 * n + 1))
    else (n, t)

/-- `TwiddleUV(X, Y, x, y) -> t` (R303). -/
def twiddleUV (dimX dimY x y : Nat) : Nat :=
  let minDim := if dimY < dimX then dimY else dimX
  let maxV := if dimY < dimX then x else y
  let l := twiddleLoop minDim x y minDim 0 0
  l.2 + maxV / 2 ^ l.1 * 2 ^ (2 * l.1)

/-- The address of word (x, y): `SRC + 8·t` (R78, R304). -/
def wordAddr (b : Bpp) (s : State) (x y : Nat) : Nat := srcAddr s + 8 * twiddleUV (wordsX b s) (wordsY b s) x y

/-- `FetchWord(x, y) -> (MOD, COL)` (R304). -/
def fetchWord (b : Bpp) (s : State) (x y : Nat) : PvWord :=
  ⟨Memory.read32 s.mem (wordAddr b s x y), Memory.read32 s.mem (wordAddr b s x y + 4)⟩

/-- `px`, the column of the words P and R of tile TC (R302). -/
def tilePx (b : Bpp) (s : State) : Nat := wrap (wordsX b s) (tileWordX b s)

/-- `qx`, the column of the words Q and S of tile TC (R302). -/
def tileQx (b : Bpp) (s : State) : Nat := wrap (wordsX b s) (tileWordX b s + 1)

/-- `py`, the row of the words P and Q of tile TC (R302). -/
def tilePy (b : Bpp) (s : State) : Nat := wrap (wordsY b s) (tileWordY b s)

/-- `ry`, the row of the words R and S of tile TC (R302). -/
def tileRy (b : Bpp) (s : State) : Nat := wrap (wordsY b s) (tileWordY b s + 1)

/-- The eight addresses of a word (R304). -/
def wordReads (b : Bpp) (s : State) (x y : Nat) : List Nat := (List.range 8).map (fun k => wordAddr b s x y + k)

/-- The addresses the four fetches of tile TC read (R302, R304). -/
def decodeReads (b : Bpp) (s : State) : List Nat :=
  wordReads b s (tilePx b s) (tilePy b s) ++ wordReads b s (tileQx b s) (tilePy b s) ++
    wordReads b s (tilePx b s) (tileRy b s) ++ wordReads b s (tileQx b s) (tileRy b s)

/-- The four words of a tile (R302). -/
structure FourWords where
  p : PvWord
  q : PvWord
  r : PvWord
  s : PvWord
deriving DecidableEq, Repr

/-- The words `WP`, `WQ`, `WR`, `WS` of tile TC (R302). -/
def fetchTile (b : Bpp) (s : State) : FourWords :=
  ⟨fetchWord b s (tilePx b s) (tilePy b s), fetchWord b s (tileQx b s) (tilePy b s),
    fetchWord b s (tilePx b s) (tileRy b s), fetchWord b s (tileQx b s) (tileRy b s)⟩

/-! ## The two colors of a word -/

/-- A PVRTC color: components of 5, 5, 5 and 4 bits (R305). -/
structure PvColor where
  r : BitVec 5
  g : BitVec 5
  b : BitVec 5
  a : BitVec 4
deriving DecidableEq, Repr

/-- A PVRTC color from four naturals. -/
def pvColor (r g b a : Nat) : PvColor := ⟨BitVec.ofNat 5 r, BitVec.ofNat 5 g, BitVec.ofNat 5 b, BitVec.ofNat 4 a⟩

/-- `ColorA(COL)` (R122, R305). -/
def colorA (col : Word) : PvColor :=
  let v := col.toNat
  if bit v 15 = 1 then pvColor (bits v 14 10) (bits v 9 5) (rep4to5 (bits v 4 1)) 15
  else pvColor (rep4to5 (bits v 11 8)) (rep4to5 (bits v 7 4)) (rep3to5 (bits v 3 1)) (bits v 14 12 * 2)

/-- `ColorB(COL)` (R123, R306). -/
def colorB (col : Word) : PvColor :=
  let v := col.toNat
  if bit v 31 = 1 then pvColor (bits v 30 26) (bits v 25 21) (bits v 20 16) 15
  else pvColor (rep4to5 (bits v 27 24)) (rep4to5 (bits v 23 20)) (rep4to5 (bits v 19 16)) (bits v 30 28 * 2)

/-! ## The modulation grid -/

/-- The weight table of a 4bpp word: punch-through where `COL[0] = 1`, standard where it is 0 (R124, R312). -/
def weightTable (punch : Bool) (raw : Nat) : Fin 15 :=
  match raw with
  | 0 => 0
  | 1 => if punch then 4 else 3
  | 2 => if punch then 14 else 5
  | _ => 8

/-- `MODV` of local pixel (x, y) of a 4bpp word (R125, R312). -/
def unpack4 (w : PvWord) (x y : Nat) : Fin 15 :=
  weightTable (bit w.col.toNat 0 = 1) (bits w.mod.toNat (2 * (4 * y + x) + 1) (2 * (4 * y + x)))

/-- The mode of a 2bpp word: 0 direct, 1 H and V, 2 H-only, 3 V-only (R313, R314). -/
def mode2 (w : PvWord) : Fin 4 :=
  if bit w.col.toNat 0 = 0 then 0
  else if bit w.mod.toNat 0 = 1 then (if bit w.mod.toNat 20 = 1 then 3 else 2) else 1

/-- `v` with its bit `i` set to `c` (0 or 1). -/
def withBit (v i c : Nat) : Nat := v - bit v i * 2 ^ i + c * 2 ^ i

/-- `B` of R314: the modulation member with the two mode bits replaced by their virtual values. -/
def virtualBits (w : PvWord) : Nat :=
  let m := w.mod.toNat
  let b := if bit m 0 = 1 then withBit m 20 (bit m 21) else m
  withBit b 0 (bit m 1)

/-- A position is stored when `((x ^ y) & 1) = 0` (R127). -/
def isStored (x y : Nat) : Bool := decide ((x + y) % 2 = 0)

/-- The number n of the stored position (x, y) of a 2bpp word in raster order (R127, R315): each row has four. -/
def storedIndex (x y : Nat) : Nat := 4 * y + x / 2

/-- A stored 2-bit value as a value of `MODV`. -/
def modValue (v : Nat) : Fin 15 :=
  match v with
  | 0 => 0
  | 1 => 1
  | 2 => 2
  | _ => 3

/-- `MODV` of local pixel (x, y) of a 2bpp word: `none` where nothing is stored (R313, R315). -/
def unpack2 (w : PvWord) (x y : Nat) : Option (Fin 15) :=
  if bit w.col.toNat 0 = 0 then some (if bit w.mod.toNat (8 * y + x) = 1 then 3 else 0)
  else if isStored x y then
    some (modValue (bits (virtualBits w) (2 * storedIndex x y + 1) (2 * storedIndex x y)))
  else none

/-- `MODV` of a local pixel of a word (R311). -/
def unpackV (b : Bpp) (w : PvWord) (x y : Nat) : Option (Fin 15) :=
  match b with
  | .two => unpack2 w x y
  | .four => some (unpack4 w x y)

/-- `MODM` of every local pixel of a word (R312 to R315). -/
def unpackM (b : Bpp) (w : PvWord) : Fin 4 :=
  match b with
  | .two => mode2 w
  | .four => 0

/-- The word that fills position (i, j) of the modulation region (R310). -/
def wordAt (b : Bpp) (ws : FourWords) (i j : Nat) : PvWord :=
  if j < wh b then (if i < ww b then ws.p else ws.q) else (if i < ww b then ws.r else ws.s)

/-- A `2·WW × 2·WH` region as a list, row by row (R310). -/
def regionList {α : Type} (b : Bpp) (f : Nat → Nat → α) : List α :=
  (List.range (2 * wh b)).flatMap (fun j => (List.range (2 * ww b)).map (fun i => f i j))

/-- The grid `MODV` of the four words (R310, R311). -/
def modvGrid (b : Bpp) (ws : FourWords) : List (Option (Fin 15)) :=
  regionList b (fun i j => unpackV b (wordAt b ws i j) (i % ww b) (j % wh b))

/-- The grid `MODM` of the four words (R310, R311). -/
def modmGrid (b : Bpp) (ws : FourWords) : List (Fin 4) :=
  regionList b (fun i j => unpackM b (wordAt b ws i j))

/-- `MODV[i][j]`. -/
def modvAt (b : Bpp) (v : List (Option (Fin 15))) (i j : Nat) : Option (Fin 15) := v.getD (j * (2 * ww b) + i) none

/-- `MODM[i][j]`. -/
def modmAt (b : Bpp) (m : List (Fin 4)) (i j : Nat) : Fin 4 := m.getD (j * (2 * ww b) + i) 0

/-- `RV = [0, 3, 5, 8]` (R316). -/
def rv (v : Nat) : Nat :=
  match v with
  | 0 => 0
  | 1 => 3
  | 2 => 5
  | _ => 8

/-- `RV[MODV[i][j]]` (R316); a position that holds no value gives a free value (R47, log 11). -/
def rvAt (b : Bpp) (v : List (Option (Fin 15))) (i j : Nat) : Nat :=
  match modvAt b v i j with
  | some k => rv k.val
  | none => Config.unstoredWeight i j

/-- `Weight2(i, j)` (R316). -/
def weight2 (v : List (Option (Fin 15))) (m : List (Fin 4)) (i j : Nat) : Nat :=
  let mode := modmAt .two m i j
  if mode = 0 ∨ (i + j) % 2 = 0 then rvAt .two v i j
  else if mode = 1 then
    (rvAt .two v i (j - 1) + rvAt .two v i (j + 1) + rvAt .two v (i - 1) j + rvAt .two v (i + 1) j + 2) / 4
  else if mode = 2 then (rvAt .two v (i - 1) j + rvAt .two v (i + 1) j + 1) / 2
  else (rvAt .two v i (j - 1) + rvAt .two v i (j + 1) + 1) / 2

/-- `Weight4(i, j) = MODV[i][j]` (R317). -/
def weight4 (v : List (Option (Fin 15))) (i j : Nat) : Nat :=
  match modvAt .four v i j with
  | some k => k.val
  | none => Config.unstoredWeight i j

/-- The weight of position (i, j) (R325). -/
def weightAt (b : Bpp) (v : List (Option (Fin 15))) (m : List (Fin 4)) (i j : Nat) : Nat :=
  match b with
  | .two => weight2 v m i j
  | .four => weight4 v i j

/-! ## Interpolation and blending -/

/-- `Upscale(cP, cQ, cR, cS, c, r)` (R320). -/
def upscale (b : Bpp) (cP cQ cR cS c r : Nat) : Nat :=
  (ww b - c) * (wh b - r) * cP + c * (wh b - r) * cQ + (ww b - c) * r * cR + c * r * cS

/-- The widening of a 5-bit component's sum (R321). -/
def widenRgb (b : Bpp) (v : Nat) : Byte :=
  match b with
  | .two => BitVec.ofNat 8 (v / 2 ^ 7 + v / 2 ^ 2)
  | .four => BitVec.ofNat 8 (v / 2 ^ 6 + v / 2)

/-- The widening of a 4-bit alpha's sum (R321). -/
def widenA (b : Bpp) (v : Nat) : Byte :=
  match b with
  | .two => BitVec.ofNat 8 (v / 2 ^ 5 + v / 2)
  | .four => BitVec.ofNat 8 (v / 2 ^ 4 + v)

/-- The upscaled color of tile pixel (c, r), `UA` or `UB`, from the four words' colors (R322). -/
def upscaleColor (b : Bpp) (cp cq cr cs : PvColor) (c r : Nat) : Pixel :=
  ⟨widenRgb b (upscale b cp.r.toNat cq.r.toNat cr.r.toNat cs.r.toNat c r),
    widenRgb b (upscale b cp.g.toNat cq.g.toNat cr.g.toNat cs.g.toNat c r),
    widenRgb b (upscale b cp.b.toNat cq.b.toNat cr.b.toNat cs.b.toNat c r),
    widenA b (upscale b cp.a.toNat cq.a.toNat cr.a.toNat cs.a.toNat c r)⟩

/-- `UA` of tile pixel (c, r) (R322). -/
def pixelUA (b : Bpp) (ws : FourWords) (c r : Nat) : Pixel :=
  upscaleColor b (colorA ws.p.col) (colorA ws.q.col) (colorA ws.r.col) (colorA ws.s.col) c r

/-- `UB` of tile pixel (c, r) (R322). -/
def pixelUB (b : Bpp) (ws : FourWords) (c r : Nat) : Pixel :=
  upscaleColor b (colorB ws.p.col) (colorB ws.q.col) (colorB ws.r.col) (colorB ws.s.col) c r

/-- `(UA·(8 − w) + UB·w) / 8` of one channel (R325). -/
def blendChannel (w : Nat) (x y : Byte) : Byte := BitVec.ofNat 8 ((x.toNat * (8 - w) + y.toNat * w) / 8)

/-- The output pixel of a weight and the two upscaled colors (R325). -/
def blendPixel (w : Nat) (ua ub : Pixel) : Pixel :=
  let v := if ptFlag w then w - 10 else w
  ⟨blendChannel v ua.r ub.r, blendChannel v ua.g ub.g, blendChannel v ua.b ub.b,
    if ptFlag w then 0 else blendChannel v ua.a ub.a⟩

/-- The weight `TilePixel(bpp, c, r)` reads (R318, R325). -/
def pixelWeight (b : Bpp) (v : List (Option (Fin 15))) (m : List (Fin 4)) (c r : Nat) : Nat :=
  weightAt b v m (c + ww b / 2) (r + wh b / 2)

/-- `TilePixel(bpp, c, r)` (R325). -/
def tilePixel (b : Bpp) (ws : FourWords) (v : List (Option (Fin 15))) (m : List (Fin 4)) (c r : Nat) : Pixel :=
  blendPixel (pixelWeight b v m c r) (pixelUA b ws c r) (pixelUB b ws c r)

/-- The pixels of a tile in the order of R302: r outer, c inner. -/
def tileList {α : Type} (b : Bpp) (f : Nat → Nat → α) : List α :=
  (List.range (wh b)).flatMap (fun r => (List.range (ww b)).map (fun c => f c r))

/-- The decoder scratch a tile leaves (R302). -/
def decodeBlock (b : Bpp) (ws : FourWords) : DecScratch :=
  let v := modvGrid b ws
  let m := modmGrid b ws
  { wp := ws.p, wq := ws.q, wr := ws.r, ws := ws.s, modv := v, modm := m,
    ua := tileList b (pixelUA b ws), ub := tileList b (pixelUB b ws),
    pt := ptFlag (pixelWeight b v m (ww b - 1) (wh b - 1)),
    outt := tileList b (tilePixel b ws v m) }

/-- The image column of tile column c (R302, R326). -/
def outX (b : Bpp) (s : State) (c : Nat) : Nat :=
  ((tileWordX b s * ww b + (ww b / 2 : Nat) + c) % (opW s : Int)).toNat

/-- The image row of tile row r (R302, R326). -/
def outY (b : Bpp) (s : State) (r : Nat) : Nat :=
  ((tileWordY b s * wh b + (wh b / 2 : Nat) + r) % (opH s : Int)).toNat

/-- The address of the image pixel (x, y): `DST + 4·(y·W + x)` (R79). -/
def outPixelAddr (s : State) (x y : Nat) : Nat := dstAddr s + 4 * (y * opW s + x)

/-- The bytes a tile writes: `WritePixel` of each pixel in turn (R302, R326). -/
def decodeWrites (b : Bpp) (s : State) (ws : FourWords) : List Host.Cell :=
  (tileList b (fun c r =>
    cellsAt (outPixelAddr s (outX b s c) (outY b s r))
      (pixelBytes (tilePixel b ws (modvGrid b ws) (modmGrid b ws) c r)))).flatten

/-- `DecodeTile(bpp, wordX, wordY)` of tile TC (R301, R302). -/
def decodeTile (b : Bpp) (s : State) : TileEffect where
  reads := decodeReads b s
  writes := decodeWrites b s (fetchTile b s)
  scratch := { s.scratch with dec := decodeBlock b (fetchTile b s) }

/-- `DEC.PVRTC2` (R330). -/
def execDecPvrtc2 (s : State) : Out := runCommand .decPvrtc2 (decodeTile .two) s

/-- `DEC.PVRTC4` (R331). -/
def execDecPvrtc4 (s : State) : Out := runCommand .decPvrtc4 (decodeTile .four) s

end Sys2Proof.Machine
end

