-- ==== Sys2Proof/Machine/Dispatch.lean ====
section
/-! DEFINITION. What each command does: one arm per constructor of Instr, each one call of its meaning. -/

namespace Sys2Proof.Machine

def exec (i : Instr) (s : State) : Host.Outcome State Fault Refusal :=
  match i with
  | .clr => Sys2Proof.Machine.execClr s
  | .encDxt1Fast => Sys2Proof.Machine.execEncDxt1Fast s
  | .encDxt1Hq => Sys2Proof.Machine.execEncDxt1Hq s
  | .encDxt3Fast => Sys2Proof.Machine.execEncDxt3Fast s
  | .encDxt3Hq => Sys2Proof.Machine.execEncDxt3Hq s
  | .encDxt5Fast => Sys2Proof.Machine.execEncDxt5Fast s
  | .encDxt5Hq => Sys2Proof.Machine.execEncDxt5Hq s
  | .encDxnFast => Sys2Proof.Machine.execEncDxnFast s
  | .encDxnHq => Sys2Proof.Machine.execEncDxnHq s
  | .decPvrtc2 => Sys2Proof.Machine.execDecPvrtc2 s
  | .decPvrtc4 => Sys2Proof.Machine.execDecPvrtc4 s

end Sys2Proof.Machine
end

