-- ==== Sys2Proof/Machine/HostPort.lean ====
section
/-! DEFINITION. The host's side: memory moves and their races with a running command (spec/20_memory.md R85, R86), the reset
input (spec/70_reset_and_hazards.md R390), and the assembler's expansions (spec/30_encoding.md R104). -/

namespace Sys2Proof.Machine

/-! ## The running command, looked ahead -/

/-- The running command: what CMD decodes to while STATE = BUSY (R36). -/
def runningInstr (s : State) : Option Instr :=
  if s.status = .busy then
    match decode s.cmd with
    | .ok i => some i
    | .illegal _ => none
  else none

/-- The effect of the next tile of a command (R261, R301). -/
def nextTile (i : Instr) (s : State) : TileEffect :=
  match kindOf i with
  | .clear => ⟨[], [], s.scratch⟩
  | .enc f q => encodeTile f q s
  | .dec b => decodeTile b s

/-- The state after `n` more tiles, or after those before the tile that would be stuck (R72, R73). -/
def tilesAhead (i : Instr) : Nat → State → State
  | 0, s => s
  | n + 1, s =>
    match takeTile (nextTile i s) s with
    | some t => tilesAhead i n t
    | none => s

/-- The memory the engine leaves with its last step, at DONE or where it is stuck for ever: "the value the engine writes" of R86 at
each destination byte that it writes, and the byte as it is at the others. -/
def engineMem (i : Instr) (s : State) : Memory := (tilesAhead i (s.nt - s.tc) s).mem

/-- The running command is stuck: its next tile has a byte that is not admitted (R362). -/
def isStuck (i : Instr) (s : State) : Bool := !tileAdmitted s.params (nextTile i s)

/-- What a destination byte of a command that is still BUSY reads as, drawn with number `n` (R86): the value the byte held when the
command started or the value the engine writes to it, whether or not the host has written the byte; any value where the command is
stuck (R372) or its source is not stable (R82, R86). -/
def racedByte (i : Instr) (s : State) (a n : Nat) : Byte :=
  if isStuck i s || s.race.tainted then Config.drawByte n
  else if Config.drawBit n then Memory.read s.race.startMem a else Memory.read (engineMem i s) a

/-! ## Host memory moves -/

/-- The values of these cells at an address. -/
def valuesAt (cs : List Host.Cell) (a : Nat) : List Byte := (cs.filter (fun c => decide (c.1 = a))).map (·.2)

/-- Every cell that waits to be seen. -/
def Unseen.cells (u : Unseen) : List Host.Cell := u.last ++ u.earlier ++ u.left

/-- The values that a host read of the address may return beside the one memory holds (R85). -/
def Unseen.values (u : Unseen) (a : Nat) : List Byte := valuesAt u.cells a

/-- An engine write of the address may still reach the host's reads: no read of STATUS has returned DONE for it (R85). -/
def Unseen.coming (u : Unseen) (a : Nat) : Bool := (u.last ++ u.earlier).any (fun c => decide (c.1 = a))

/-- One of the values `v :: vs`, drawn with number `n`. -/
def pick (n : Nat) (v : Byte) : List Byte → Byte
  | [] => v
  | w :: ws => (v :: w :: ws).getD (Config.drawNat n % (ws.length + 2)) v

/-- A byte no running command is racing on: any value where reads are not stable (R82); else what memory holds or, where the engine's
write of the byte is not visible yet, another value it may still read as (R85). -/
def plainRead (s : State) (a n : Nat) : Byte :=
  if isUnstable s.params a then Config.drawByte n else pick n (Memory.read s.mem a) (s.unseen.values a)

/-- One byte of a host read (R86). -/
def hostReadByte (s : State) (a n : Nat) : Byte :=
  match runningInstr s with
  | some i => if inDest i s a then racedByte i s a n else plainRead s a n
  | none => plainRead s a n

/-- Keep the last value the host wrote to an address. -/
def recordWrite (cs : List Host.Cell) (a : Nat) (v : Byte) : List Host.Cell :=
  cs.filter (fun c => decide (c.1 ≠ a)) ++ [(a, v)]

/-- What is unseen after a host write of an address where memory held `w`: where an engine write may still reach the host's reads, `w`
may be read after the write too, since nothing orders the two; elsewhere the write is the last word (R85). -/
def Unseen.written (u : Unseen) (a : Nat) (w : Byte) : Unseen :=
  { u with left := if u.coming a then (a, w) :: u.left else u.left.filter (fun c => decide (c.1 ≠ a)) }

/-- A host write of a byte to memory, where the engine's next command finds it (R85, R392). -/
def plainWrite (s : State) (a : Nat) (v : Byte) : State :=
  { s with mem := Memory.write s.mem a v, unseen := s.unseen.written a (Memory.read s.mem a) }

/-- One byte of a host write: a destination byte of a running command is settled at DONE, and a source byte taints the command
(R86); any other byte is only written. -/
def hostWriteByte (s : State) (a : Nat) (v : Byte) : State :=
  match runningInstr s with
  | some i =>
    if inDest i s a then
      { s with race := { s.race with hostWrites := recordWrite s.race.hostWrites a v } }
    else if inSource i s a then
      { plainWrite s a v with race := { s.race with tainted := true } }
    else plainWrite s a v
  | none => plainWrite s a v

/-- The bytes of a host write, one after another in increasing address order. -/
def hostWriteBytes (s : State) (addr : Nat) : List Byte → State
  | [] => s
  | v :: vs => hostWriteBytes (hostWriteByte s addr v) (addr + 1) vs

/-- The check a host memory move passes: no byte of the register block (R33), and memory at every byte (R70). -/
def hostAccess (p : Params) (addr n : Nat) (go : State) : Out :=
  if (List.range n).any (fun k => inRegBlock p (addr + k)) then .refused .registerBlockBytes
  else if (List.range n).all (fun k => admits p (addr + k)) then .next go
  else .fault .hostUnmapped

/-- `MW` (R104). -/
def hostWriteMem (addr : DWord) (bytes : List Byte) (s : State) : Out :=
  hostAccess s.params addr.toNat bytes.length (hostWriteBytes s addr.toNat bytes)

/-- `MR` (R104): the host receives the bytes. -/
def hostReadMem (addr : DWord) (n : Nat) (s : State) : Out :=
  hostAccess s.params addr.toNat n
    { s with
      rx := .bytes ((List.range n).map (fun k => hostReadByte s (addr.toNat + k) (s.draws + k)))
      draws := s.draws + n }

/-- After a read of STATUS that returned DONE: every write of that command is visible (R85). -/
def Unseen.seen (u : Unseen) : Unseen := { u with last := [] }

/-- `RD` (R104): the host receives the register's value. Where it is STATUS with STATE = DONE, the command's writes are visible to the
host from then on (R85). -/
def hostReadReg (r : Fin 16) (s : State) : State :=
  { s with
    rx := .word (readReg r s)
    unseen := if r = 1 ∧ s.status = .done then s.unseen.seen else s.unseen }

/-- `WAIT` (R104): `RD STATUS`, and once more after an engine step while STATE = BUSY. -/
def hostWait (s : State) : State :=
  let t := hostReadReg 1 s
  if s.status = .busy then { t with events := .engine :: .host .wait :: s.events } else t

/-! ## Reset -/

/-- A destination byte that an abandoned command leaves (R390): the old value, the engine's, or one the host wrote while BUSY. -/
def abandonedByte (i : Instr) (s : State) (a n : Nat) : Byte := pick n (racedByte i s a n) (valuesAt s.race.hostWrites a)

/-- The destination bytes a command that is abandoned leaves (R390): "any mix of old and new bytes", one draw a byte. -/
def abandonedCells (i : Instr) (s : State) : List Host.Cell :=
  (List.range (dstLen i s)).map (fun k => (dstAddr s + k, abandonedByte i s (dstAddr s + k) (s.draws + k)))

/-- What reset does to memory: nothing, but for the destination of a command it abandons (R390). -/
def resetMem (s : State) : Memory :=
  match runningInstr s with
  | some i => Memory.writes s.mem (admittedCells s.params (abandonedCells i s))
  | none => s.mem

/-- What the host may not have seen at reset, of an abandoned command among others: no read of STATUS will make it visible, but no engine
write is still to come either, so that a host write is the last word from then on (R85, R390, R392). -/
def resetUnseen (s : State) : Unseen :=
  match runningInstr s with
  | some i => ⟨[], [], unseenCells i s ++ s.unseen.cells⟩
  | none => ⟨[], [], s.unseen.cells⟩

/-- How many values reset draws. -/
def resetDraws (s : State) : Nat :=
  match runningInstr s with
  | some i => dstLen i s + 1
  | none => 1

/-- The reset input (R390): every register, TC and NT to their reset values, the scratch state to any value. -/
def resetEngine (s : State) : State :=
  { s with
    cmd := State.reset.cmd, status := State.reset.status, srcLo := State.reset.srcLo, srcHi := State.reset.srcHi,
    dstLo := State.reset.dstLo, dstHi := State.reset.dstHi, width := State.reset.width, height := State.reset.height,
    depth := State.reset.depth, tc := State.reset.tc, nt := State.reset.nt, race := Race.none
    unseen := resetUnseen s
    scratch := Config.drawScratch (s.draws + (resetDraws s - 1)), mem := resetMem s, draws := s.draws + resetDraws s }

/-! ## The assembler -/

/-- The register writes of an operand list `dst, src, width, height[, depth]` (R104). -/
def operandWrites : List Nat → List HostMove
  | [dst, src, w, h] =>
    [.wr 4 (BitVec.ofNat 32 dst), .wr 5 (BitVec.ofNat 32 (dst / 2 ^ 32)), .wr 2 (BitVec.ofNat 32 src),
      .wr 3 (BitVec.ofNat 32 (src / 2 ^ 32)), .wr 6 (BitVec.ofNat 32 w), .wr 7 (BitVec.ofNat 32 h)]
  | [dst, src, w, h, d] =>
    [.wr 4 (BitVec.ofNat 32 dst), .wr 5 (BitVec.ofNat 32 (dst / 2 ^ 32)), .wr 2 (BitVec.ofNat 32 src),
      .wr 3 (BitVec.ofNat 32 (src / 2 ^ 32)), .wr 6 (BitVec.ofNat 32 w), .wr 7 (BitVec.ofNat 32 h),
      .wr 8 (BitVec.ofNat 32 d)]
  | _ => []

/-- The expansion of a command mnemonic with its operands: the operand writes, then `WR CMD` (R104). -/
def assemble (l : AsmLine) : List HostMove := operandWrites l.operands ++ [.wr 0 (encode l.instr)]

end Sys2Proof.Machine
end

