-- ==== Sys2Proof/Machine/Turn.lean ====
section
/-! DEFINITION. One turn of the machine: a host move, an engine step or the reset input (spec/10_state.md R30, R35;
spec/60_exceptions.md R368). -/

namespace Sys2Proof.Machine

/-- A host write to CMD (R35): dropped while BUSY; otherwise the word is latched in CMD and its command starts, or, where the
word is illegal, the error E_UNSUPPORTED is taken (R102, R364). -/
def commandWrite (w : Word) (s : State) : Out :=
  if s.status = .busy then .next s
  else
    match decode w with
    | .ok i => exec i (storeReg 0 w s)
    | .illegal _ => .next (errorEntry .unsupported (storeReg 0 w s))

/-- The engine's turn (R30): the running command takes its next tile; while STATE ≠ BUSY the engine draws no step (R375). -/
def engineTurn (s : State) : Out :=
  match runningInstr s with
  | some i => exec i s
  | none => .next s

/-- The host's turn (R30, R104). -/
def hostTurn (m : HostMove) (s : State) : Out :=
  match m with
  | .wr r v => if r = 0 then commandWrite v s else .next (writeReg r v s)
  | .rd r => .next (hostReadReg r s)
  | .mw addr bytes => hostWriteMem addr bytes s
  | .mr addr n => hostReadMem addr n s
  | .wait => .next (hostWait s)

/-- One turn: the first event of the list, or an engine step where the list is empty (R368, R397). -/
def turn (s : State) : Out :=
  match s.events with
  | [] => engineTurn s
  | .engine :: es => engineTurn { s with events := es }
  | .host m :: es => hostTurn m { s with events := es }
  | .reset :: es => .next (resetEngine { s with events := es })

/-- `s` with a host write of `w` to CMD as its next event; a command that is running is given up first, so that STATE ≠ BUSY
and the write is not dropped (R35). -/
def placeCommand (w : Word) (s : State) : State :=
  { s with
    status := if s.status = .busy then .idle else s.status
    race := if s.status = .busy then Race.none else s.race
    events := .host (.wr 0 w) :: s.events }

end Sys2Proof.Machine
end

