-- ==== Sys2Proof/Machine/Step.lean ====
section
/-! DEFINITION. One step of the machine, and how a command word is given to it. -/

namespace Sys2Proof.Machine

/-- One step: one turn of the host or the engine (R30, R368). -/
def step (s : State) : Host.Outcome State Fault Refusal := turn s

/-- `s` with the command word `w` written to CMD by the very next step (log 4): the engine fetches no instruction from
memory (R90), a command is what the host writes to CMD. -/
def State.withFetchWord (s : State) (nbits w : Nat) : State :=
  placeCommand (BitVec.ofNat 32 (w % 2 ^ nbits)) s

end Sys2Proof.Machine
end

