-- ==== Sys2Proof/Machine/Ideal.lean ====
section
/-! DEFINITION. The exact real arithmetic of the high-quality endpoints (spec/42_endpoint_selector.md R174, R175, R177, R178): the
intended value of `HQ_ENDPOINTS`, stated as relations. No command uses it: of `HQ_ENDPOINTS` the machine assumes only the laws of
R179 (R176). -/

namespace Sys2Proof.Machine

/-- One channel of an RGB color, 0 = r, 1 = g, 2 = b. -/
def rgbChan (c : Rgb) (k : Fin 3) : Byte :=
  match k with
  | 0 => c.r
  | 1 => c.g
  | 2 => c.b

/-- `p_i`, the point of a pixel in `[0,1]^3` (R175). -/
def idealPoint (c : Rgb) (k : Fin 3) : ℚ := (rgbChan c k).toNat / 255

/-- `μ`, the centroid of sixteen points (R175). -/
def idealCentroid (cs : List Rgb) (k : Fin 3) : ℚ := (cs.map (fun c => idealPoint c k)).sum / 16

/-- `C`, the covariance matrix (R175). -/
def idealCovariance (cs : List Rgb) : Matrix (Fin 3) (Fin 3) ℚ :=
  fun j k => (cs.map (fun c => (idealPoint c j - idealCentroid cs j) * (idealPoint c k - idealCentroid cs k))).sum / 16

/-- A matrix read over the reals. -/
abbrev realMatrix (c : Matrix (Fin 3) (Fin 3) ℚ) : Matrix (Fin 3) (Fin 3) ℝ := c.map (fun q => (q : ℝ))

/-- `λ1 ≥ λ2 ≥ λ3` are the roots of `det(C − λI) = 0` (R175). -/
def IsRootTriple (c : Matrix (Fin 3) (Fin 3) ℚ) (l1 l2 l3 : ℝ) : Prop :=
  l2 ≤ l1 ∧ l3 ≤ l2 ∧ ∀ x : ℝ, (realMatrix c - x • (1 : Matrix (Fin 3) (Fin 3) ℝ)).det = (l1 - x) * (l2 - x) * (l3 - x)

/-- `v` is a unit vector of the eigenspace of `l` (R175). -/
def IsUnitEigenvector (c : Matrix (Fin 3) (Fin 3) ℚ) (l : ℝ) (v : Fin 3 → ℝ) : Prop :=
  v 0 ^ 2 + v 1 ^ 2 + v 2 ^ 2 = 1 ∧ (realMatrix c).mulVec v = l • v

/-- `HQ_PLANE_CHOICE` (R6, R175): for a matrix whose dominant root is repeated, a unit vector of its plane. It is an argument of
the relations below (log 9). -/
def IsPlaneChoice (plane : Matrix (Fin 3) (Fin 3) ℚ → Fin 3 → ℝ) : Prop :=
  ∀ c l1 l3, IsRootTriple c l1 l1 l3 → l1 ≠ l3 → IsUnitEigenvector c l1 (plane c)

/-- `(1,1,1)/√3`, the fallback axis (R174, R175). -/
def IsFallbackAxis (v : Fin 3 → ℝ) : Prop := ∀ k, v k = 1 / Real.sqrt 3

/-- `IdealAxis(blk) -> (μ, v)`: `v` is the axis, for a plane choice `plane` (R175). -/
def IsIdealAxis (plane : Matrix (Fin 3) (Fin 3) ℚ → Fin 3 → ℝ) (cs : List Rgb) (v : Fin 3 → ℝ) : Prop :=
  IsPlaneChoice plane ∧ ∃ l1 l2 l3 : ℝ, IsRootTriple (idealCovariance cs) l1 l2 l3 ∧
    (l1 = l3 → IsFallbackAxis v) ∧
    (l1 ≠ l3 → l1 = l2 → v = plane (idealCovariance cs)) ∧
    (l1 ≠ l3 → l1 ≠ l2 → IsUnitEigenvector (idealCovariance cs) l1 v)

/-! ## The closed form of the axis (R174, R175): the depressed cubic solved by a cosine, and an eigenvector by cross products -/

/-- `p1 = C01² + C02² + C12²` (R175). -/
def closedP1 (c : Matrix (Fin 3) (Fin 3) ℚ) : ℚ := c 0 1 ^ 2 + c 0 2 ^ 2 + c 1 2 ^ 2

/-- `q = (C00 + C11 + C22)/3` (R175). -/
def closedQ (c : Matrix (Fin 3) (Fin 3) ℚ) : ℚ := (c 0 0 + c 1 1 + c 2 2) / 3

/-- `p² = ((C00−q)² + (C11−q)² + (C22−q)² + 2·p1)/6` (R175). -/
def closedPSquared (c : Matrix (Fin 3) (Fin 3) ℚ) : ℚ :=
  ((c 0 0 - closedQ c) ^ 2 + (c 1 1 - closedQ c) ^ 2 + (c 2 2 - closedQ c) ^ 2 + 2 * closedP1 c) / 6

/-- `λ1` by the trigonometric formula, for `p1 ≠ 0`: `B = (C − q·I)/p`, `ρ = clamp(det(B)/2, −1, 1)`, `φ = acos(ρ)/3` and
`λ1 = q + 2p·cos(φ)` (R175). -/
def IsCosineRoot (c : Matrix (Fin 3) (Fin 3) ℚ) (l : ℝ) : Prop :=
  ∃ p ρ φ : ℝ, p = Real.sqrt (closedPSquared c) ∧
    ρ = min (max ((p⁻¹ • (realMatrix c - (closedQ c : ℝ) • (1 : Matrix (Fin 3) (Fin 3) ℝ))).det / 2) (-1)) 1 ∧
    φ = Real.arccos ρ / 3 ∧ l = closedQ c + 2 * p * Real.cos φ

/-- `λ1` in closed form: the greatest diagonal entry where `p1 = 0`, else the trigonometric formula (R175). -/
def IsClosedFormRoot (c : Matrix (Fin 3) (Fin 3) ℚ) (l : ℝ) : Prop :=
  (closedP1 c = 0 → l = (max (c 0 0) (max (c 1 1) (c 2 2)) : ℚ)) ∧ (closedP1 c ≠ 0 → IsCosineRoot c l)

/-- The cross product of rows `j` and `k` of `C − λ1·I` (R175). -/
def rowCross (c : Matrix (Fin 3) (Fin 3) ℚ) (l : ℝ) (j k : Fin 3) : Fin 3 → ℝ :=
  let m := realMatrix c - l • (1 : Matrix (Fin 3) (Fin 3) ℝ)
  ![m j 1 * m k 2 - m j 2 * m k 1, m j 2 * m k 0 - m j 0 * m k 2, m j 0 * m k 1 - m j 1 * m k 0]

/-- The squared length of a vector. -/
def lengthSquared (w : Fin 3 → ℝ) : ℝ := w 0 ^ 2 + w 1 ^ 2 + w 2 ^ 2

/-- The eigenvector for `λ1` by cofactors: the longest of the three cross products of pairs of rows, with either sign and length 1;
a zero one gives the fallback axis (R175). -/
def IsClosedFormVector (c : Matrix (Fin 3) (Fin 3) ℚ) (l : ℝ) (v : Fin 3 → ℝ) : Prop :=
  ∃ w ∈ [rowCross c l 0 1, rowCross c l 0 2, rowCross c l 1 2],
    (∀ u ∈ [rowCross c l 0 1, rowCross c l 0 2, rowCross c l 1 2], lengthSquared u ≤ lengthSquared w) ∧
    (w = 0 → IsFallbackAxis v) ∧
    (w ≠ 0 → v = (Real.sqrt (lengthSquared w))⁻¹ • w ∨ v = -((Real.sqrt (lengthSquared w))⁻¹ • w))

/-- The axis of sixteen colors in closed form (R174, R175). -/
def IsClosedFormAxis (cs : List Rgb) (v : Fin 3 → ℝ) : Prop :=
  ∃ l, IsClosedFormRoot (idealCovariance cs) l ∧ IsClosedFormVector (idealCovariance cs) l v

/-! ## The endpoints -/

/-- `t_i = (p_i − μ) · v` is the projection of the color `c` (R178). -/
def IsProjection (cs : List Rgb) (v : Fin 3 → ℝ) (c : Rgb) (t : ℝ) : Prop :=
  t = ∑ k, ((idealPoint c k - idealCentroid cs k : ℚ) : ℝ) * v k

/-- `floor(n·clamp(x, 0, 1) + ½)` is `q` (R177). -/
def IsQuantLevel (n : Nat) (x : ℝ) (q : Nat) : Prop := (q : ℤ) = ⌊(n : ℝ) * max 0 (min x 1) + 1 / 2⌋

/-- `Q565(e)` is `p` (R177). -/
def IsQ565 (e : Fin 3 → ℝ) (p : Half) : Prop :=
  ∃ r g b : Nat, IsQuantLevel 31 (e 0) r ∧ IsQuantLevel 63 (e 1) g ∧ IsQuantLevel 31 (e 2) b ∧
    p.toNat = r * 2 ^ 11 + g * 2 ^ 5 + b

/-- `IdealEndpoints(blk)` is `(pa, pb)`, for the sixteen colors `cs` of the block (R178). -/
def IsIdealEndpoints (plane : Matrix (Fin 3) (Fin 3) ℚ → Fin 3 → ℝ) (cs : List Rgb) (pa pb : Half) : Prop :=
  ∃ v hi lo, IsIdealAxis plane cs v ∧
    IsGreatest (fun t => ∃ c ∈ cs, IsProjection cs v c t) hi ∧ IsLeast (fun t => ∃ c ∈ cs, IsProjection cs v c t) lo ∧
    IsQ565 (fun k => (idealCentroid cs k : ℝ) + hi * v k) pa ∧ IsQ565 (fun k => (idealCentroid cs k : ℝ) + lo * v k) pb

end Sys2Proof.Machine
end

