-- ==== Sys2Proof/Safety.lean ====
section
/-! DEFINITION. What counts as a safe run, in the terms the statements use: the invariant every step keeps, and the conditions
under which a command's next tile is taken. -/

namespace Sys2Proof.Machine

/-- `i` is the running command: STATE = BUSY and CMD holds its word (R34, R36). -/
abbrev Running (i : Instr) (s : State) : Prop := s.status = .busy ∧ s.cmd = encode i

/-- No race has touched the running command (R82, R86). -/
abbrev RaceFree (s : State) : Prop := s.race.tainted = false ∧ s.race.hostWrites = []

/-- The running command's next tile is enabled and every byte it reads or writes is admitted (R72, R73, R261, R301). -/
abbrev TileReady (i : Instr) (s : State) : Prop :=
  Running i s ∧ s.tc < s.nt ∧ tileAdmitted s.params (nextTile i s) = true

/-- Every byte of the command's two regions is admitted to the engine (R70, R83). -/
def RegionsAdmitted (i : Instr) (s : State) : Prop :=
  ∀ a, inSource i s a = true ∨ inDest i s a = true → engineAdmits s.params a = true

/-- The invariant of the machine: memory is in canonical form; a running command is a legal one that passed its checks, with its own
number of tiles and a tile left (R36, R40, R364); DONE means that every tile was taken (R40); nothing is remembered of races while
no command runs, and of a running one only the host's writes to its destination (R86); and while a command runs no read of STATUS can
make an earlier one's writes visible (R85). -/
structure Inv (s : State) : Prop where
  memWf : Memory.wf s.mem
  startWf : Memory.wf s.race.startMem
  running : s.status = .busy → ∃ i, decode s.cmd = .ok i ∧ startChecks i s = none ∧ s.nt = tilesOf i s ∧ s.tc < s.nt
  finished : s.status = .done → s.tc = s.nt
  quiet : s.status ≠ .busy → s.race = Race.none
  recorded : s.status = .busy → ∀ i, decode s.cmd = .ok i → ∀ c ∈ s.race.hostWrites, inDest i s c.1 = true
  seen : s.status = .busy → s.unseen.last = []

/-- The registers a command may not change (R36): what the host sees of the register block but for STATUS. -/
def sameOperands (s t : State) : Prop :=
  t.cmd = s.cmd ∧ t.srcLo = s.srcLo ∧ t.srcHi = s.srcHi ∧ t.dstLo = s.dstLo ∧ t.dstHi = s.dstHi ∧
    t.width = s.width ∧ t.height = s.height ∧ t.depth = s.depth

/-- Nothing of the host's side changes: its pending events, what it last read, and the launch parameters. -/
def sameHostSide (s t : State) : Prop := t.events = s.events ∧ t.rx = s.rx ∧ t.params = s.params

/-- The bytes `bs` stand in memory from `addr` upward. -/
def BytesAt (m : Memory) (addr : Nat) (bs : List Byte) : Prop :=
  ∀ k b, bs[k]? = some b → Memory.read m (addr + k) = b

/-- Every byte outside `[addr, addr + n)` reads as before. -/
def SameOutside (s t : State) (addr n : Nat) : Prop :=
  ∀ a, ¬(addr ≤ a ∧ a < addr + n) → Memory.read t.mem a = Memory.read s.mem a

/-- What every tile does beside its bytes and its scratch (R261, R301): TC advances, STATUS becomes DONE with the last tile, and
every other register, the launch parameters and the host's side stay. The scratch holds a fresh free value (R45, log 14), and until
the last tile the record of the command's races and what the host has not seen stay, of which the last tile adds nothing to what earlier
commands and resets left (R85, R86, logs 15 and 17). -/
def TileTaken (s t : State) : Prop :=
  t.tc = s.tc + 1 ∧ t.status = (if s.tc + 1 = s.nt then .done else .busy) ∧ t.nt = s.nt ∧ t.draws = s.draws + 1 ∧
    t.scratch = Config.drawScratch s.draws ∧ sameOperands s t ∧ sameHostSide s t ∧
    t.unseen.earlier ⊆ s.unseen.earlier ∧ t.unseen.left ⊆ s.unseen.left ∧ (s.tc + 1 ≠ s.nt → t.race = s.race ∧ t.unseen = s.unseen)

/-- The block that tile TC extracts (R151, R261). -/
def tileBlock (s : State) : Vector Pixel 16 := extract s (tileZ s) (tileBx s) (tileBy s)

/-- The alpha scratch of the encoder is the same: what a color-only tile does not write (R46). -/
def sameAlphaScratch (e e' : EncScratch) : Prop :=
  e'.ramp = e.ramp ∧ e'.ramp' = e.ramp' ∧ e'.ori = e.ori

/-- The color scratch of the encoder is the same: what a DXN tile does not write (R46). -/
def sameColorScratch (e e' : EncScratch) : Prop :=
  e'.minc = e.minc ∧ e'.maxc = e.maxc ∧ e'.pa = e.pa ∧ e'.pb = e.pb ∧ e'.c0 = e.c0 ∧ e'.c1 = e.c1 ∧
    e'.swap = e.swap ∧ e'.pal = e.pal ∧ e'.three = e.three ∧ e'.idx = e.idx ∧ e'.errc = e.errc

/-- The color block of the fast mode for the endpoints `PA`, `PB` of a block (R172, R204): `PA` first, with no exchange
(R173). -/
def fastColorBytes (fb : Bool) (blk : Vector Pixel 16) : List Byte :=
  let p := fastEndpoints (fastBox blk)
  leBytes 2 p.1.toNat ++ leBytes 2 p.2.toNat ++ leBytes 4 (fastIndices (palette p.1 p.2 fb) blk).toNat

/-- The color block of the high-quality mode: the endpoints of `HQ_ENDPOINTS`, ordered, and their nearest indices
(R176, R180, R206). -/
def hqColorBytes (fb : Bool) (blk : Vector Pixel 16) : List Byte :=
  let o := order (hqEndpoints blk).1 (hqEndpoints blk).2
  leBytes 2 o.1.toNat ++ leBytes 2 o.2.toNat ++ leBytes 4 (hqIndices (palette o.1 o.2 fb) blk).toNat

end Sys2Proof.Machine
end

