-- ==== Sys2Proof/Certificates/Slice0/Obligations.lean ====
section
/-! DEFINITION. The statements for the provers, in the order of OBLIGATIONS.json. -/

open Sys2Proof Sys2Proof.Machine

/-! ## Reset, registers and STATUS -/

/-- R52: the reset input puts every host register, STATE, ERR, TC and NT at 0, and leaves every byte of memory as it was but
for the destination of a command that it abandons. -/
def Obligations.ResetClearsRegistersAndKeepsMemory : Prop :=
  ∀ (s : State) (es : List Event), s.events = .reset :: es → Memory.wf s.mem →
    ∃ t, step s = .next t ∧ (∀ r, readReg r t = 0) ∧ t.status = .idle ∧ t.tc = 0 ∧ t.nt = 0 ∧ t.params = s.params ∧
      t.events = es ∧
      ∀ a, (∀ i, runningInstr s = some i → inDest i s a = false) → Memory.read t.mem a = Memory.read s.mem a

/-- R390: a command that is running and not stuck at reset is abandoned, and each destination byte is an old one or a new one: what it
held when the command started, what the engine's steps would leave (`engineMem`, which `EngineMemIsWhatTheStepsLeave` ties to the
steps), or what the host wrote there while BUSY. -/
def Obligations.ResetLeavesOldOrNewDestinationBytes : Prop :=
  ∀ (s : State) (es : List Event) (i : Instr), s.events = .reset :: es → Running i s → s.race.tainted = false → Memory.wf s.mem →
    tileAdmitted s.params (nextTile i s) = true →
    ∃ t, step s = .next t ∧ ∀ a, inDest i s a = true → engineAdmits s.params a = true →
      Memory.read t.mem a = Memory.read s.race.startMem a ∨ Memory.read t.mem a = Memory.read (engineMem i s) a ∨
        (a, Memory.read t.mem a) ∈ s.race.hostWrites

/-- The reset state holds the reset values of R391, memory lists nothing (the model's choice, log 3) and no
event is pending (the model's choice, log 21). -/
def Obligations.ResetStateHoldsTheResetValues : Prop :=
  (∀ r, readReg r State.reset = 0) ∧ State.reset.status = .idle ∧ State.reset.tc = 0 ∧ State.reset.nt = 0 ∧
    State.reset.mem = [] ∧ State.reset.events = []

/-- R32, R34, R104: a host `RD` in any state, while BUSY above all, answers the register's value and changes nothing else, but that a
read of STATUS that returns DONE makes the command's writes visible (R85; the model's form of what is unseen, log 17); STATUS holds
STATE in bits 1:0 and ERR in bits 7:4, ERR is 0 unless STATE = 3, and its other bits read 0. -/
def Obligations.HostReadAnswersTheRegisterAndTheStatusWord : Prop :=
  (∀ (s : State) (r : Fin 16) (es : List Event), s.events = .host (.rd r) :: es →
    step s = .next { s with
      events := es
      rx := .word ([s.cmd, statusWord s.status, s.srcLo, s.srcHi, s.dstLo, s.dstHi, s.width, s.height, s.depth].getD r.val 0)
      unseen := if r = 1 ∧ s.status = .done then s.unseen.seen else s.unseen }) ∧
  ∀ t : Status, bits (statusWord t).toNat 1 0 = stateField t ∧ bits (statusWord t).toNat 7 4 = errField t ∧
    bits (statusWord t).toNat 3 2 = 0 ∧ bits (statusWord t).toNat 31 8 = 0 ∧
    (stateField t ≠ 3 → bits (statusWord t).toNat 7 4 = 0) ∧
    (stateField .idle = 0 ∧ stateField .busy = 1 ∧ stateField .done = 2 ∧ ∀ c, stateField (.error c) = 3)

/-- R32: a read returns the last value written to an operand register; a write to STATUS or to a reserved offset is ignored, every
register keeping its value, and a reserved offset reads 0. -/
def Obligations.OperandRegistersReadBackWhatWasWritten : Prop :=
  ∀ (s : State) (r : Fin 16) (v : Word), s.status ≠ .busy → r ≠ 0 → s.events = [.host (.wr r v), .host (.rd r)] →
    ∃ t : State, Host.Core.run core 2 s = .next t ∧
      t.rx = .word (if 2 ≤ r.val ∧ r.val ≤ 8 then v else if r = 1 then statusWord s.status else 0) ∧
      t.mem = s.mem ∧ t.status = s.status ∧ t.tc = s.tc ∧ t.nt = s.nt ∧ t.cmd = s.cmd ∧ t.scratch = s.scratch ∧
      (r = 1 ∨ 9 ≤ r.val → sameOperands s t)

/-- R35: a host write while STATE = BUSY is dropped; otherwise a write to CMD stores the word and starts that command (an illegal word
ends at once in its error), and a write to an operand register stores the value and starts nothing. -/
def Obligations.RegisterWritesStoreStartOrAreDropped : Prop :=
  ∀ (s : State) (r : Fin 16) (v : Word) (es : List Event), s.events = .host (.wr r v) :: es →
    (s.status = .busy → step s = .next { s with events := es }) ∧
    (s.status ≠ .busy → r = 0 → ∃ t, step s = .next t ∧ t.cmd = v ∧
      (∀ i, decode v = .ok i → exec i { s with events := es, cmd := v } = .next t) ∧
      (∀ e, decode v = .illegal e → t = { s with events := es, cmd := v, status := .error .unsupported })) ∧
    (s.status ≠ .busy → 2 ≤ r.val → r.val ≤ 8 →
      ∃ t, step s = .next t ∧ readReg r t = v ∧ (∀ q, q ≠ r → readReg q t = readReg q s) ∧ t.status = s.status ∧
        t.tc = s.tc ∧ t.nt = s.nt ∧ t.scratch = s.scratch ∧ t.mem = s.mem ∧ t.events = es)

/-- R36: while a command runs, CMD, SRC, DST, WIDTH, HEIGHT and DEPTH keep their values in every step but a reset. -/
def Obligations.RunningCommandKeepsItsOperands : Prop :=
  ∀ s t : State, s.status = .busy → (∀ es, s.events ≠ .reset :: es) → step s = .next t → sameOperands s t

/-- R42: STATUS changes only at a command's start, at its completion, and by CLR (or by reset). -/
def Obligations.StatusChangesOnlyAtStartCompletionClrOrReset : Prop :=
  ∀ s t : State, step s = .next t → t.status ≠ s.status →
    (s.status ≠ .busy ∧ ∃ w es, s.events = .host (.wr 0 w) :: es) ∨
    (s.status = .busy ∧ t.status = .done ∧ t.tc = t.nt ∧ t.tc = s.tc + 1) ∨
    (∃ es, s.events = .reset :: es)

/-- Only a host memory move can stop the machine, and only outside memory: a byte of the register block is refused (R33, log 5) and
a byte that does not exist is a fault (R70, log 6); every other step goes on, the engine's own steps among them (R362). -/
def Obligations.OnlyHostMemoryMovesStopTheMachine : Prop :=
  ∀ s : State,
    ((∀ a bs es, s.events ≠ .host (.mw a bs) :: es) → (∀ a n es, s.events ≠ .host (.mr a n) :: es) →
      ∃ t, step s = .next t) ∧
    ∀ (a : DWord) (n : Nat) (es : List Event),
      (∃ bs, bs.length = n ∧ s.events = .host (.mw a bs) :: es) ∨ s.events = .host (.mr a n) :: es →
      ((∃ k, k < n ∧ inRegBlock s.params (a.toNat + k) = true) → step s = .refused .registerBlockBytes) ∧
      ((∀ k, k < n → inRegBlock s.params (a.toNat + k) = false) →
        ((∃ k, k < n ∧ admits s.params (a.toNat + k) = false) → step s = .fault .hostUnmapped) ∧
        ((∀ k, k < n → admits s.params (a.toNat + k) = true) → ∃ t, step s = .next t))

/-- R70, R104: while no command runs, the host reads back the bytes it wrote to memory where no engine write of them is still to be seen
(R85), and every other byte and the whole engine stay as they were. In any state an `MR` changes nothing but the pending event, what the
host received and the count of draws (log 7), and a stable byte outside a running command's destination reads as memory holds it, or as
a value that waits to be seen there (log 17). -/
def Obligations.HostMemoryMovesReadBack : Prop :=
  (∀ (s : State) (addr : DWord) (bs : List Byte), s.status ≠ .busy → Memory.wf s.mem →
    (∀ k, k < bs.length → admits s.params (addr.toNat + k) = true ∧ inRegBlock s.params (addr.toNat + k) = false ∧
      isUnstable s.params (addr.toNat + k) = false ∧ s.unseen.coming (addr.toNat + k) = false) →
    s.events = [.host (.mw addr bs), .host (.mr addr bs.length)] →
    ∃ t : State, Host.Core.run core 2 s = .next t ∧ t.rx = .bytes bs ∧ t.events = [] ∧
      (∀ a, ¬(addr.toNat ≤ a ∧ a < addr.toNat + bs.length) → Memory.read t.mem a = Memory.read s.mem a) ∧
      sameOperands s t ∧ t.status = s.status ∧ t.tc = s.tc ∧ t.nt = s.nt ∧ t.scratch = s.scratch) ∧
  ∀ (s : State) (addr : DWord) (n : Nat) (es : List Event), s.events = .host (.mr addr n) :: es →
    (∀ k, k < n → admits s.params (addr.toNat + k) = true ∧ inRegBlock s.params (addr.toNat + k) = false) →
    ∃ bs, step s = .next { s with events := es, rx := .bytes bs, draws := s.draws + n } ∧ bs.length = n ∧
      ∀ k, k < n → isUnstable s.params (addr.toNat + k) = false →
        (∀ i, runningInstr s = some i → inDest i s (addr.toNat + k) = false) →
        ∃ v, bs[k]? = some v ∧
          (v = Memory.read s.mem (addr.toNat + k) ∨ v ∈ s.unseen.values (addr.toNat + k))

/-- R392, R85 (1): while no command runs, after a reset above all, every byte that the host writes to memory stands there, whatever was
unseen, and still does when the host then writes CMD: the command that this starts finds it as its memory at the start, and no byte
outside the write has changed. What the host reads back: where no engine write of the byte was still to be seen only its own value, and
where one was, the value before as well (the model's form, log 17). -/
def Obligations.HostWritesReachTheNextCommand : Prop :=
  ∀ (s : State) (addr : DWord) (bs : List Byte) (w : Word) (es : List Event), s.status ≠ .busy → Memory.wf s.mem →
    s.events = .host (.mw addr bs) :: .host (.wr 0 w) :: es →
    (∀ k, k < bs.length → admits s.params (addr.toNat + k) = true ∧ inRegBlock s.params (addr.toNat + k) = false) →
    ∃ t u, step s = .next t ∧ BytesAt t.mem addr.toNat bs ∧ SameOutside s t addr.toNat bs.length ∧
      sameOperands s t ∧ t.status = s.status ∧ t.tc = s.tc ∧ t.nt = s.nt ∧ t.scratch = s.scratch ∧ t.race = s.race ∧
      t.draws = s.draws ∧ t.rx = s.rx ∧ t.params = s.params ∧ t.events = .host (.wr 0 w) :: es ∧
      (∀ k, k < bs.length →
        (s.unseen.coming (addr.toNat + k) = false → t.unseen.values (addr.toNat + k) = []) ∧
        (s.unseen.coming (addr.toNat + k) = true → Memory.read s.mem (addr.toNat + k) ∈ t.unseen.values (addr.toNat + k) ∧
          ∀ v ∈ s.unseen.values (addr.toNat + k), v ∈ t.unseen.values (addr.toNat + k))) ∧
      (∀ a, ¬(addr.toNat ≤ a ∧ a < addr.toNat + bs.length) → t.unseen.values a = s.unseen.values a) ∧
      step t = .next u ∧ u.mem = t.mem ∧ (u.status = .busy → u.race.startMem = t.mem)

/-! ## The command word -/

/-- R101, R102: a word is a command's exactly when it is that command's word of the table. -/
def Obligations.DecodeAgreesWithEncode : Prop := ∀ (w : Word) (i : Instr), decode w = .ok i ↔ w = encode i

/-- R101: the words of the table decode to their commands. -/
def Obligations.TableWordsDecodeToTheirCommands : Prop :=
  decode 0x00#32 = .ok .clr ∧ decode 0x01#32 = .ok .encDxt1Fast ∧ decode 0x11#32 = .ok .encDxt1Hq ∧
    decode 0x02#32 = .ok .encDxt3Fast ∧ decode 0x12#32 = .ok .encDxt3Hq ∧ decode 0x03#32 = .ok .encDxt5Fast ∧
    decode 0x13#32 = .ok .encDxt5Hq ∧ decode 0x04#32 = .ok .encDxnFast ∧ decode 0x14#32 = .ok .encDxnHq ∧
    decode 0x08#32 = .ok .decPvrtc2 ∧ decode 0x09#32 = .ok .decPvrtc4

/-- R102: writing any word that is not one of the eleven while STATE ≠ BUSY ends the command at once with E_UNSUPPORTED. -/
def Obligations.IllegalWordEndsWithUnsupported : Prop :=
  ∀ (s : State) (w : Word) (es : List Event), s.status ≠ .busy → s.events = .host (.wr 0 w) :: es →
    w ∉ [0x00#32, 0x01#32, 0x11#32, 0x02#32, 0x12#32, 0x03#32, 0x13#32, 0x04#32, 0x14#32, 0x08#32, 0x09#32] →
    step s = .next { s with events := es, cmd := w, status := .error .unsupported }

/-- R35, R261, R301: a step whose event is a host write of a legal word to CMD, while STATE ≠ BUSY, latches the word and is that
command's `exec`; while STATE = BUSY an engine step is the `exec` of the command that CMD decodes to. That a step with no event
pending is an engine step is the model's choice (log 13). -/
def Obligations.StepRunsTheDecodedCommand : Prop :=
  ∀ (s : State) (i : Instr) (es : List Event),
    (∀ w, s.status ≠ .busy → s.events = .host (.wr 0 w) :: es → decode w = .ok i →
      step s = exec i { s with events := es, cmd := w }) ∧
    (s.status = .busy → decode s.cmd = .ok i → s.events = .engine :: es ∨ s.events = [] ∧ es = [] →
      step s = exec i { s with events := es })

/-! ## Start, errors and CLR -/

/-- R369: CLR, word 0x00, passes every check and returns STATUS to IDLE, and changes nothing else; while BUSY it is dropped. -/
def Obligations.ClrReturnsStatusToIdle : Prop :=
  ∀ s : State, encode .clr = 0 ∧ startChecks .clr s = none ∧
    (s.status ≠ .busy → exec .clr s = .next { s with status := .idle }) ∧
    (s.status = .busy → exec .clr s = .next s) ∧
    ∀ es, s.events = .host (.wr 0 0) :: es →
      (s.status ≠ .busy → step s = .next { s with events := es, cmd := 0, status := .idle }) ∧
      (s.status = .busy → step s = .next { s with events := es })

/-- R364: the start checks of every command, in their order, with the register values and exact arithmetic: a power of two is
2^k. -/
def Obligations.StartChecksReportTheFirstFailure : Prop :=
  (∀ s, startChecks .clr s = none) ∧
  (∀ (i : Instr) (f : Fmt) (q : Quality) (s : State), kindOf i = .enc f q →
    let src := s.srcHi.toNat * 2 ^ 32 + s.srcLo.toNat
    let dst := s.dstHi.toNat * 2 ^ 32 + s.dstLo.toNat
    let sl := 4 * s.width.toNat * s.height.toNat * s.depth.toNat
    let dl := blockSize f * ((s.width.toNat + 3) / 4) * ((s.height.toNat + 3) / 4) * s.depth.toNat
    (startChecks i s = some .range ↔ 2 ^ 64 < src + sl ∨ 2 ^ 64 < dst + dl) ∧
    (startChecks i s = some .overlap ↔
      src + sl ≤ 2 ^ 64 ∧ dst + dl ≤ 2 ^ 64 ∧ ∃ a, src ≤ a ∧ a < src + sl ∧ dst ≤ a ∧ a < dst + dl) ∧
    startChecks i s ∈ [none, some .range, some .overlap]) ∧
  (∀ (i : Instr) (b : Bpp) (s : State), kindOf i = .dec b →
    let src := s.srcHi.toNat * 2 ^ 32 + s.srcLo.toNat
    let dst := s.dstHi.toNat * 2 ^ 32 + s.dstLo.toNat
    let sl := s.width.toNat * s.height.toNat * bppOf b / 8
    let dl := 4 * s.width.toNat * s.height.toNat
    let pow2 := (∃ k, s.width.toNat = 2 ^ k) ∧ ∃ k, s.height.toNat = 2 ^ k
    let large := minW b ≤ s.width.toNat ∧ minH b ≤ s.height.toNat
    (startChecks i s = some .dimNotPow2 ↔ ¬pow2) ∧
    (startChecks i s = some .dimTooSmall ↔ pow2 ∧ ¬large) ∧
    (startChecks i s = some .range ↔ pow2 ∧ large ∧ (2 ^ 64 < src + sl ∨ 2 ^ 64 < dst + dl)) ∧
    (startChecks i s = some .overlap ↔
      pow2 ∧ large ∧ src + sl ≤ 2 ^ 64 ∧ dst + dl ≤ 2 ^ 64 ∧
        ∃ a, src ≤ a ∧ a < src + sl ∧ dst ≤ a ∧ a < dst + dl) ∧
    startChecks i s ≠ some .unsupported)

/-- R365: a write of a command whose checks fail with code e sets STATUS to `(e << 4) | 3` in that step, with the word in CMD,
and touches nothing else; an illegal word does so with code 1. R360: the codes are E_UNSUPPORTED 1, E_DIM_NOT_POW2 2,
E_DIM_TOO_SMALL 3, E_RANGE 4 and E_OVERLAP 5, and STATUS.ERR holds no other number but 0. -/
def Obligations.FailedCheckTakesTheErrorEntry : Prop :=
  (errNumber .unsupported = 1 ∧ errNumber .dimNotPow2 = 2 ∧ errNumber .dimTooSmall = 3 ∧ errNumber .range = 4 ∧
    errNumber .overlap = 5 ∧ ∀ t : Status, errField t ≤ 5) ∧
  ∀ (s : State) (w : Word) (es : List Event) (c : ErrCode), s.status ≠ .busy → s.events = .host (.wr 0 w) :: es →
    (∃ i, decode w = .ok i ∧ startChecks i s = some c) ∨ ((∃ e, decode w = .illegal e) ∧ c = .unsupported) →
    step s = .next { s with events := es, cmd := w, status := .error c } ∧
      (statusWord (.error c)).toNat = errNumber c * 16 + 3

/-- R260: an encode command that passes its checks starts with TC = 0 and `NT = ceil(W/4)·ceil(H/4)·D`, BUSY, or DONE at once where
NT = 0; no memory, no operand and no scratch changes. R82: the command is tainted from its start exactly where an address of its
source is unstable (the model's form of it, logs 15 and 16). What the host has not seen of an earlier command stays unseen (R85,
log 17). -/
def Obligations.EncodeCommandStarts : Prop :=
  ∀ (i : Instr) (f : Fmt) (q : Quality) (s : State), kindOf i = .enc f q → s.status ≠ .busy → startChecks i s = none →
    ∃ t, exec i s = .next t ∧ t.tc = 0 ∧
      t.nt = (s.width.toNat + 3) / 4 * ((s.height.toNat + 3) / 4) * s.depth.toNat ∧
      (t.nt = 0 → t.status = .done ∧ t.race = Race.none) ∧
      (t.nt ≠ 0 → t.status = .busy ∧ t.race.startMem = s.mem ∧ t.race.hostWrites = [] ∧
        (t.race.tainted = true ↔ ∃ a, inSource i s a = true ∧ isUnstable s.params a = true)) ∧
      t.mem = s.mem ∧ t.scratch = s.scratch ∧ t.draws = s.draws ∧ sameOperands s t ∧ sameHostSide s t ∧
      t.unseen = ⟨[], s.unseen.last ++ s.unseen.earlier, s.unseen.left⟩

/-- R300: a decode command that passes its checks starts BUSY with TC = 0 and `NT = nX · nY`, at least 4; DEPTH is not
read; no memory, no operand and no scratch changes. R82: the command is tainted from its start exactly where an address of its
source is unstable (the model's form of it, logs 15 and 16). What the host has not seen of an earlier command stays unseen (R85,
log 17). -/
def Obligations.DecodeCommandStarts : Prop :=
  ∀ (i : Instr) (b : Bpp) (s : State), kindOf i = .dec b → s.status ≠ .busy → startChecks i s = none →
    (∀ d, startChecks i { s with depth := d } = none) ∧
    ∃ t, exec i s = .next t ∧ t.tc = 0 ∧ t.nt = s.width.toNat / ww b * (s.height.toNat / wh b) ∧ 4 ≤ t.nt ∧
      t.status = .busy ∧ t.race.startMem = s.mem ∧ t.race.hostWrites = [] ∧
      (t.race.tainted = true ↔ ∃ a, inSource i s a = true ∧ isUnstable s.params a = true) ∧
      t.mem = s.mem ∧ t.scratch = s.scratch ∧ t.draws = s.draws ∧ sameOperands s t ∧ sameHostSide s t ∧
      t.unseen = ⟨[], s.unseen.last ++ s.unseen.earlier, s.unseen.left⟩

/-! ## The tile of each encode command

`TileTaken` says that the scratch holds a free value after the tile (R45, log 14), and that a tile before the last one keeps the record
of the command's races and what the host has not seen (R85, R86, logs 15 and 17). What a tile does not write of the scratch it starts
from (R46, R47: "written by") shows in the model's record `lastTile` of it. -/

/-- R270: a tile of `ENC.DXT1.FAST` writes the 8 bytes of the fast color block. The scratch it
leaves and records is the model's form (log 14). -/
def Obligations.EncDxt1FastTileWritesItsBlock : Prop :=
  ∀ s : State, TileReady .encDxt1Fast s → (s.tc + 1 = s.nt → RaceFree s) → Memory.wf s.mem →
    ∃ t, exec .encDxt1Fast s = .next t ∧
      BytesAt t.mem (dstAddr s + 8 * s.tc) (fastColorBytes true (tileBlock s)) ∧
      SameOutside s t (dstAddr s + 8 * s.tc) 8 ∧ TileTaken s t ∧ t.lastTile.dec = s.scratch.dec ∧
      sameAlphaScratch s.scratch.enc t.lastTile.enc ∧ t.lastTile.enc.exa = s.scratch.enc.exa ∧
      t.lastTile.enc.errc = s.scratch.enc.errc

/-- R271: a tile of `ENC.DXT1.HQ` writes the 8 bytes of the high-quality color block (`HQ_ENDPOINTS`: log
9; the scratch it leaves and records: log 14). -/
def Obligations.EncDxt1HqTileWritesItsBlock : Prop :=
  ∀ s : State, TileReady .encDxt1Hq s → (s.tc + 1 = s.nt → RaceFree s) → Memory.wf s.mem →
    ∃ t, exec .encDxt1Hq s = .next t ∧
      BytesAt t.mem (dstAddr s + 8 * s.tc) (hqColorBytes true (tileBlock s)) ∧
      SameOutside s t (dstAddr s + 8 * s.tc) 8 ∧ TileTaken s t ∧ t.lastTile.dec = s.scratch.dec ∧
      sameAlphaScratch s.scratch.enc t.lastTile.enc ∧ t.lastTile.enc.exa = s.scratch.enc.exa ∧
      t.lastTile.enc.minc = s.scratch.enc.minc ∧ t.lastTile.enc.maxc = s.scratch.enc.maxc

/-- R272: a tile of `ENC.DXT3.FAST` writes the explicit alpha block and the fast color block. The
scratch it leaves and records is the model's form (log 14). -/
def Obligations.EncDxt3FastTileWritesItsBlock : Prop :=
  ∀ s : State, TileReady .encDxt3Fast s → (s.tc + 1 = s.nt → RaceFree s) → Memory.wf s.mem →
    ∃ t, exec .encDxt3Fast s = .next t ∧
      BytesAt t.mem (dstAddr s + 16 * s.tc)
        (leBytes 8 (explicitAlpha (channel (tileBlock s) 3)).toNat ++ fastColorBytes true (tileBlock s)) ∧
      SameOutside s t (dstAddr s + 16 * s.tc) 16 ∧ TileTaken s t ∧ t.lastTile.dec = s.scratch.dec ∧
      sameAlphaScratch s.scratch.enc t.lastTile.enc ∧ t.lastTile.enc.errc = s.scratch.enc.errc

/-- R273: a tile of `ENC.DXT3.HQ` writes the explicit alpha block and the high-quality color block
(`HQ_ENDPOINTS`: log 9; the scratch it leaves and records: log 14). -/
def Obligations.EncDxt3HqTileWritesItsBlock : Prop :=
  ∀ s : State, TileReady .encDxt3Hq s → (s.tc + 1 = s.nt → RaceFree s) → Memory.wf s.mem →
    ∃ t, exec .encDxt3Hq s = .next t ∧
      BytesAt t.mem (dstAddr s + 16 * s.tc)
        (leBytes 8 (explicitAlpha (channel (tileBlock s) 3)).toNat ++ hqColorBytes true (tileBlock s)) ∧
      SameOutside s t (dstAddr s + 16 * s.tc) 16 ∧ TileTaken s t ∧ t.lastTile.dec = s.scratch.dec ∧
      sameAlphaScratch s.scratch.enc t.lastTile.enc ∧ t.lastTile.enc.minc = s.scratch.enc.minc ∧
      t.lastTile.enc.maxc = s.scratch.enc.maxc

/-- R274: a tile of `ENC.DXT5.FAST` writes the fast alpha ramp with inset shift 5 and the fast color block.
The scratch it leaves and records is the model's form (log 14). -/
def Obligations.EncDxt5FastTileWritesItsBlock : Prop :=
  ∀ s : State, TileReady .encDxt5Fast s → (s.tc + 1 = s.nt → RaceFree s) → Memory.wf s.mem →
    ∃ t, exec .encDxt5Fast s = .next t ∧
      BytesAt t.mem (dstAddr s + 16 * s.tc)
        (rampBytes (fastAlpha (channel (tileBlock s) 3) 5) ++ fastColorBytes true (tileBlock s)) ∧
      SameOutside s t (dstAddr s + 16 * s.tc) 16 ∧ TileTaken s t ∧ t.lastTile.dec = s.scratch.dec ∧
      t.lastTile.enc.ramp' = s.scratch.enc.ramp' ∧ t.lastTile.enc.ori = s.scratch.enc.ori ∧
      t.lastTile.enc.exa = s.scratch.enc.exa ∧ t.lastTile.enc.errc = s.scratch.enc.errc

/-- R275: a tile of `ENC.DXT5.HQ` writes the high-quality alpha ramp with inset shift 5 and the high-quality color block
(`HQ_ENDPOINTS`: log 9; the scratch it leaves and records: log 14). -/
def Obligations.EncDxt5HqTileWritesItsBlock : Prop :=
  ∀ s : State, TileReady .encDxt5Hq s → (s.tc + 1 = s.nt → RaceFree s) → Memory.wf s.mem →
    ∃ t, exec .encDxt5Hq s = .next t ∧
      BytesAt t.mem (dstAddr s + 16 * s.tc)
        (rampBytes (hqAlpha (channel (tileBlock s) 3) 5) ++ hqColorBytes true (tileBlock s)) ∧
      SameOutside s t (dstAddr s + 16 * s.tc) 16 ∧ TileTaken s t ∧ t.lastTile.dec = s.scratch.dec ∧
      t.lastTile.enc.ramp' = s.scratch.enc.ramp' ∧ t.lastTile.enc.exa = s.scratch.enc.exa ∧
      t.lastTile.enc.minc = s.scratch.enc.minc ∧ t.lastTile.enc.maxc = s.scratch.enc.maxc

/-- R276: a tile of `ENC.DXN.FAST` writes the fast ramps of red and green with `NORMAL_INSET_SHIFT` (log 10 where it is 0), and
touches no color scratch (the scratch it leaves and records: log 14). -/
def Obligations.EncDxnFastTileWritesItsBlock : Prop :=
  ∀ s : State, TileReady .encDxnFast s → (s.tc + 1 = s.nt → RaceFree s) → Memory.wf s.mem →
    ∃ t, exec .encDxnFast s = .next t ∧
      BytesAt t.mem (dstAddr s + 16 * s.tc)
        (rampBytes (fastAlpha (channel (tileBlock s) 0) s.params.normalInsetShift.val) ++
          rampBytes (fastAlpha (channel (tileBlock s) 1) s.params.normalInsetShift.val)) ∧
      SameOutside s t (dstAddr s + 16 * s.tc) 16 ∧ TileTaken s t ∧ t.lastTile.dec = s.scratch.dec ∧
      sameColorScratch s.scratch.enc t.lastTile.enc ∧ t.lastTile.enc.exa = s.scratch.enc.exa ∧
      t.lastTile.enc.ori = s.scratch.enc.ori

/-- R277: a tile of `ENC.DXN.HQ` writes the high-quality ramps of red and green with `NORMAL_INSET_SHIFT`, and touches no
color scratch (the scratch it leaves and records: log 14). -/
def Obligations.EncDxnHqTileWritesItsBlock : Prop :=
  ∀ s : State, TileReady .encDxnHq s → (s.tc + 1 = s.nt → RaceFree s) → Memory.wf s.mem →
    ∃ t, exec .encDxnHq s = .next t ∧
      BytesAt t.mem (dstAddr s + 16 * s.tc)
        (rampBytes (hqAlpha (channel (tileBlock s) 0) s.params.normalInsetShift.val) ++
          rampBytes (hqAlpha (channel (tileBlock s) 1) s.params.normalInsetShift.val)) ∧
      SameOutside s t (dstAddr s + 16 * s.tc) 16 ∧ TileTaken s t ∧ t.lastTile.dec = s.scratch.dec ∧
      sameColorScratch s.scratch.enc t.lastTile.enc ∧ t.lastTile.enc.exa = s.scratch.enc.exa

/-! ## The tile of each decode command -/

/-- R330, R302: a tile of `DEC.PVRTC2` writes its 8 × 4 pixels, each at `DST + 4·(y·W + x)` with x, y wrapped, and no other byte.
The scratch it leaves and records is the model's form (log 14). -/
def Obligations.DecPvrtc2TileWritesItsPixels : Prop :=
  ∀ s : State, Inv s → TileReady .decPvrtc2 s → (s.tc + 1 = s.nt → RaceFree s) →
    let ws := fetchTile .two s
    let x := fun c : Nat => ((((s.tc % wordsX .two s : Nat) - 1 : Int) * 8 + 4 + c) % (s.width.toNat : Int)).toNat
    let y := fun r : Nat => ((((s.tc / wordsX .two s : Nat) - 1 : Int) * 4 + 2 + r) % (s.height.toNat : Int)).toNat
    let addr := fun c r => dstAddr s + 4 * (y r * s.width.toNat + x c)
    ∃ t, exec .decPvrtc2 s = .next t ∧
      (∀ c r, c < 8 → r < 4 → BytesAt t.mem (addr c r)
        (pixelBytes (blendPixel (weight2 (modvGrid .two ws) (modmGrid .two ws) (c + 4) (r + 2)) (pixelUA .two ws c r)
          (pixelUB .two ws c r)))) ∧
      (∀ a, (∀ c r, c < 8 → r < 4 → ¬(addr c r ≤ a ∧ a < addr c r + 4)) →
        Memory.read t.mem a = Memory.read s.mem a) ∧
      TileTaken s t ∧ t.lastTile.enc = s.scratch.enc

/-- R331, R302: a tile of `DEC.PVRTC4` writes its 4 × 4 pixels, each at `DST + 4·(y·W + x)` with x, y wrapped, and no other byte.
The scratch it leaves and records is the model's form (log 14). -/
def Obligations.DecPvrtc4TileWritesItsPixels : Prop :=
  ∀ s : State, Inv s → TileReady .decPvrtc4 s → (s.tc + 1 = s.nt → RaceFree s) →
    let ws := fetchTile .four s
    let x := fun c : Nat => ((((s.tc % wordsX .four s : Nat) - 1 : Int) * 4 + 2 + c) % (s.width.toNat : Int)).toNat
    let y := fun r : Nat => ((((s.tc / wordsX .four s : Nat) - 1 : Int) * 4 + 2 + r) % (s.height.toNat : Int)).toNat
    let addr := fun c r => dstAddr s + 4 * (y r * s.width.toNat + x c)
    ∃ t, exec .decPvrtc4 s = .next t ∧
      (∀ c r, c < 4 → r < 4 → BytesAt t.mem (addr c r)
        (pixelBytes (blendPixel (weight4 (modvGrid .four ws) (c + 2) (r + 2)) (pixelUA .four ws c r)
          (pixelUB .four ws c r)))) ∧
      (∀ a, (∀ c r, c < 4 → r < 4 → ¬(addr c r ≤ a ∧ a < addr c r + 4)) →
        Memory.read t.mem a = Memory.read s.mem a) ∧
      TileTaken s t ∧ t.lastTile.enc = s.scratch.enc

/-! ## Whole commands -/

/-- The reset state meets the invariant. -/
def Obligations.ResetStateMeetsTheInvariant : Prop := Inv State.reset

/-- Every step keeps the invariant. -/
def Obligations.EveryStepKeepsTheInvariant : Prop := ∀ s t : State, Inv s → step s = .next t → Inv t

/-- R362, R72: a running command whose next tile has a byte that `Admit` refuses is stuck: STATE stays BUSY
and TC stays. That a stuck step answers the same state is the model's form (log 8), and so is that no byte and no scratch of the
tile changes, even where only a later byte of it is refused (log 12; R366 lets the destination be partly written). -/
def Obligations.UnadmittedByteLeavesTheEngineStuck : Prop :=
  ∀ (i : Instr) (s : State), i ≠ .clr → Running i s →
    ((∃ a ∈ (nextTile i s).reads, engineAdmits s.params a = false) ∨
      ∃ c ∈ (nextTile i s).writes, engineAdmits s.params c.1 = false) → exec i s = .next s

/-- R71: a running command's tile reads only its source region and writes only its destination region. R77, R261: tile TC's block of
an encode command lies at `DST + BS·TC = DST + BS·((z·bh + by)·bw + bx)`, with bx, by, z in their ranges. -/
def Obligations.TileStaysInItsRegions : Prop :=
  ∀ (i : Instr) (s : State), Inv s → Running i s →
    (∀ a ∈ (nextTile i s).reads, inSource i s a = true) ∧ (∀ c ∈ (nextTile i s).writes, inDest i s c.1 = true) ∧
    ∀ (f : Fmt) (q : Quality), kindOf i = .enc f q →
      blockAddr f s = dstAddr s + blockSize f * ((tileZ s * blocksH s + tileBy s) * blocksW s + tileBx s) ∧
        tileBx s < blocksW s ∧ tileBy s < blocksH s ∧ tileZ s < opD s

/-- R93, R261, R280: an encode command written to CMD that passes its checks, over admitted regions, is DONE after its start and NT
tile steps; every block of the image then stands in its place, encoded from the source as it was, and no byte outside the
destination region has changed. That the engine steps with no event pending is the model's choice (log 13). -/
def Obligations.EncodeCommandWritesEveryBlock : Prop :=
  ∀ (i : Instr) (f : Fmt) (q : Quality) (s : State), kindOf i = .enc f q → s.status ≠ .busy →
    s.events = [.host (.wr 0 (encode i))] → Memory.wf s.mem → startChecks i s = none → RegionsAdmitted i s →
    sourceUnstable i s = false →
    ∃ t : State, Host.Core.run core (encTiles s + 1) s = .next t ∧ t.status = .done ∧ t.tc = encTiles s ∧
      (∀ z bx by_, z < opD s → bx < blocksW s → by_ < blocksH s →
        BytesAt t.mem (dstAddr s + blockSize f * ((z * blocksH s + by_) * blocksW s + bx))
          (encodeBlock f q s.params.normalInsetShift.val (extract s z bx by_) s.scratch.enc).outb) ∧
      ∀ a, inDest i s a = false → Memory.read t.mem a = Memory.read s.mem a

/-- R93, R301: a decode command written to CMD that passes its checks, over admitted regions, is DONE after its start and NT tile
steps; every pixel of every tile then stands in its place, decoded from the source as it was, and no byte outside the
destination region has changed. That the engine steps with no event pending is the model's choice (log 13). -/
def Obligations.DecodeCommandWritesEveryPixel : Prop :=
  ∀ (i : Instr) (b : Bpp) (s : State), kindOf i = .dec b → s.status ≠ .busy →
    s.events = [.host (.wr 0 (encode i))] → Memory.wf s.mem → startChecks i s = none → RegionsAdmitted i s →
    sourceUnstable i s = false →
    ∃ t : State, Host.Core.run core (decTiles b s + 1) s = .next t ∧ t.status = .done ∧ t.tc = decTiles b s ∧
      (∀ n c r, n < decTiles b s → c < ww b → r < wh b →
        let u := { s with tc := n }
        let ws := fetchTile b u
        BytesAt t.mem (outPixelAddr s (outX b u c) (outY b u r))
          (pixelBytes (tilePixel b ws (modvGrid b ws) (modmGrid b ws) c r))) ∧
      ∀ a, inDest i s a = false → Memory.read t.mem a = Memory.read s.mem a

/-- R326: each pixel of the image is written by exactly one tile, at exactly one of its positions. -/
def Obligations.EveryPixelBelongsToOneTile : Prop :=
  ∀ (i : Instr) (b : Bpp) (s : State), kindOf i = .dec b → startChecks i s = none →
    ∀ x y, x < opW s → y < opH s →
      ∃! p : Nat × Nat × Nat, p.1 < decTiles b s ∧ p.2.1 < ww b ∧ p.2.2 < wh b ∧
        outX b { s with tc := p.1 } p.2.1 = x ∧ outY b { s with tc := p.1 } p.2.2 = y

/-! ## Races -/

/-- R86: a byte the host reads of a running command's destination, while the command is not stuck and its source untouched, is the value
it held when the command started or the value the engine writes to it (`engineMem`, which `EngineMemIsWhatTheStepsLeave` ties to the
steps), whether or not the host has written it. -/
def Obligations.RacedReadReturnsOldOrNewByte : Prop :=
  ∀ (s : State) (i : Instr) (addr : DWord) (es : List Event), s.events = .host (.mr addr 1) :: es →
    Running i s → s.race.tainted = false → tileAdmitted s.params (nextTile i s) = true → inDest i s addr.toNat = true →
    engineAdmits s.params addr.toNat = true →
    ∃ t v, step s = .next t ∧ t.rx = .bytes [v] ∧ t.mem = s.mem ∧ t.race = s.race ∧
      (v = Memory.read s.race.startMem addr.toNat ∨ v = Memory.read (engineMem i s) addr.toNat)

/-- R86: the value the engine writes, `engineMem`, is what the machine's own steps leave: with no event pending (log 13), a race-free
running command goes on for the rest of its tiles and ends in DONE, or for as many as are admitted and is then stuck in BUSY (logs
8, 12), and memory is `engineMem` there. -/
def Obligations.EngineMemIsWhatTheStepsLeave : Prop :=
  ∀ (i : Instr) (s : State), Inv s → Running i s → RaceFree s → s.events = [] →
    ∃ (k : Nat) (t : State), k ≤ s.nt - s.tc ∧ Host.Core.run core k s = .next t ∧ t.mem = engineMem i s ∧ t.tc = s.tc + k ∧
      sameOperands s t ∧
      (t.status = .done ∧ k = s.nt - s.tc ∨
        t.status = .busy ∧ k < s.nt - s.tc ∧ tileAdmitted t.params (nextTile i t) = false ∧ step t = .next t)

/-- R86: a host write to memory while a command runs. A byte written to the destination is kept beside memory until DONE, as the last
host value of that address; a byte of the source is written and taints the command; any other byte is only written. Where an engine
write of the byte is still to be seen, a host read may return the value before as well, and elsewhere the host's is the last word (R85,
log 17). No register, no STATUS and no cursor changes (the model's form of the race, log 15). -/
def Obligations.HostWriteWhileBusyIsRecorded : Prop :=
  ∀ (i : Instr) (s : State) (addr : DWord) (bs : List Byte) (es : List Event), Inv s → Running i s →
    s.events = .host (.mw addr bs) :: es →
    (∀ k, k < bs.length → admits s.params (addr.toNat + k) = true ∧ inRegBlock s.params (addr.toNat + k) = false) →
    ∃ t, step s = .next t ∧
      (∀ k b, bs[k]? = some b → inDest i s (addr.toNat + k) = true →
        Memory.read t.mem (addr.toNat + k) = Memory.read s.mem (addr.toNat + k) ∧
          ∀ v, (addr.toNat + k, v) ∈ t.race.hostWrites ↔ v = b) ∧
      (∀ k b, bs[k]? = some b → inDest i s (addr.toNat + k) = false →
        Memory.read t.mem (addr.toNat + k) = b ∧
        (s.unseen.coming (addr.toNat + k) = false → t.unseen.values (addr.toNat + k) = []) ∧
        (s.unseen.coming (addr.toNat + k) = true → Memory.read s.mem (addr.toNat + k) ∈ t.unseen.values (addr.toNat + k) ∧
          ∀ v ∈ s.unseen.values (addr.toNat + k), v ∈ t.unseen.values (addr.toNat + k))) ∧
      (∀ a, inDest i s a = true ∨ ¬(addr.toNat ≤ a ∧ a < addr.toNat + bs.length) →
        t.unseen.values a = s.unseen.values a) ∧
      (∀ a, ¬(addr.toNat ≤ a ∧ a < addr.toNat + bs.length) → Memory.read t.mem a = Memory.read s.mem a) ∧
      (∀ c : Host.Cell, inDest i s c.1 = false ∨ ¬(addr.toNat ≤ c.1 ∧ c.1 < addr.toNat + bs.length) →
        (c ∈ t.race.hostWrites ↔ c ∈ s.race.hostWrites)) ∧
      (t.race.tainted = true ↔ s.race.tainted = true ∨ ∃ k, k < bs.length ∧ inSource i s (addr.toNat + k) = true) ∧
      t.race.startMem = s.race.startMem ∧ t.status = s.status ∧ t.tc = s.tc ∧ t.nt = s.nt ∧ t.scratch = s.scratch ∧
      t.draws = s.draws ∧ t.events = es ∧ t.rx = s.rx ∧ t.params = s.params ∧ sameOperands s t

/-- R86: after the last tile every byte holds what the engine left, or what the host wrote there while BUSY
(`HostWriteWhileBusyIsRecorded` says what is recorded); where the host touched the source or its reads are not stable, every
destination byte is a free value (the model's form of the races, logs 7 and 15). R71, R93: under the invariant no byte outside the
destination changes, tainted or not. The bytes of the destination, and they alone, then wait for a read of STATUS, and nothing else is
unseen there (R85, log 17). -/
def Obligations.CompletionSettlesTheRaces : Prop :=
  ∀ (i : Instr) (s : State), i ≠ .clr → TileReady i s → s.tc + 1 = s.nt → Memory.wf s.mem →
    ∃ t, exec i s = .next t ∧ t.status = .done ∧ t.race = Race.none ∧ t.tc = s.nt ∧ t.nt = s.nt ∧ sameOperands s t ∧
      sameHostSide s t ∧
      (s.race.tainted = false → ∀ a,
        Memory.read t.mem a = Memory.read (Memory.writes s.mem (nextTile i s).writes) a ∨
          (a, Memory.read t.mem a) ∈ s.race.hostWrites) ∧
      (s.race.tainted = true → ∀ k, k < dstLen i s → engineAdmits s.params (dstAddr s + k) = true →
        Memory.read t.mem (dstAddr s + k) = Config.drawByte (s.draws + 1 + k)) ∧
      (Inv s → ∀ a, inDest i s a = false → Memory.read t.mem a = Memory.read s.mem a) ∧
      (∀ c, (c ∈ t.unseen.earlier ↔ c ∈ s.unseen.earlier ∧ inDest i s c.1 = false) ∧
        (c ∈ t.unseen.left ↔ c ∈ s.unseen.left ∧ inDest i s c.1 = false)) ∧
      (∀ a, inDest i s a = true → (a, Memory.read s.race.startMem a) ∈ t.unseen.last) ∧
      (Inv s → ∀ c ∈ t.unseen.last, inDest i s c.1 = true)

/-- R85 (2): once a host read of STATUS has returned DONE, every later host read returns what memory holds, but where an earlier command
was never polled (`earlier`) or where a reset, or a host write before the read, left more than one value (`left`): at DONE neither
holds an address of the command's destination (`CompletionSettlesTheRaces`). Before the read, a host read of a destination byte may
return the value from the command's start (log 17). -/
def Obligations.StatusReadOfDoneMakesTheWritesVisible : Prop :=
  ∀ (s : State) (addr : DWord) (n : Nat) (es : List Event), s.status = .done →
    s.events = .host (.rd 1) :: .host (.mr addr n) :: es →
    (∀ k, k < n → admits s.params (addr.toNat + k) = true ∧ inRegBlock s.params (addr.toNat + k) = false ∧
      isUnstable s.params (addr.toNat + k) = false ∧
      ∀ v, (addr.toNat + k, v) ∉ s.unseen.earlier ∧ (addr.toNat + k, v) ∉ s.unseen.left) →
    ∃ u t, step s = .next u ∧ u.rx = .word 2 ∧ step u = .next t ∧ t.rx = .bytes (Memory.readBytes s.mem addr.toNat n) ∧
      t.mem = s.mem ∧ t.unseen = ⟨[], s.unseen.earlier, s.unseen.left⟩

/-! ## The color datapath -/

/-- R170: with s ≥ 1 the inset range keeps its order, and both ends lie between the least and the greatest value. -/
def Obligations.InsetRangeStaysOrderedInsideTheValues : Prop :=
  ∀ (vals : List Byte) (k : Nat), vals ≠ [] → 1 ≤ k →
    (insetRange vals k).1.toNat ≤ (insetRange vals k).2.toNat ∧
      (∃ v ∈ vals, v.toNat ≤ (insetRange vals k).1.toNat) ∧ ∃ v ∈ vals, (insetRange vals k).2.toNat ≤ v.toNat

/-- R173: in fast mode `PA ≥ PB` for every block. R180: after `Order` every color block has `C0 ≥ C1`, the
pair is `PA`, `PB` in one order or the other, and SWAP says which. In high quality which one is `PA` is a free value (log 9). -/
def Obligations.ColorBlockEndpointsAreOrdered : Prop :=
  (∀ blk : Vector Pixel 16, (fastEndpoints (fastBox blk)).2.toNat ≤ (fastEndpoints (fastBox blk)).1.toNat) ∧
  ∀ (q : Quality) (fb : Bool) (e : EncScratch),
    let e' := colorBlock q fb e
    e'.c1.toNat ≤ e'.c0.toNat ∧ (e'.swap = true → e'.c0 = e'.pb ∧ e'.c1 = e'.pa ∧ e'.pa.toNat < e'.pb.toNat) ∧
      (e'.swap = false → e'.c0 = e'.pa ∧ e'.c1 = e'.pb)

/-- R179: the laws L1 to L3 of `HQ_ENDPOINTS` (the model's form of it, log 9). -/
def Obligations.HqEndpointsObeyTheirLaws : Prop :=
  (∀ (blk : Vector Pixel 16) (c : Rgb), (∀ p ∈ blk.toList, rgbOf p = c) → hqEndpoints blk = (q565 c, q565 c)) ∧
  (∀ (blk : Vector Pixel 16) (c d : Rgb), c ≠ d → (∀ p ∈ blk.toList, rgbOf p = c ∨ rgbOf p = d) →
    (∃ p ∈ blk.toList, rgbOf p = c) → (∃ p ∈ blk.toList, rgbOf p = d) →
    hqEndpoints blk = (q565 c, q565 d) ∨ hqEndpoints blk = (q565 d, q565 c)) ∧
  ∀ blk blk' : Vector Pixel 16, blk.toList.map rgbOf = blk'.toList.map rgbOf → hqEndpoints blk = hqEndpoints blk'

/-- R178 for a flat block: the ideal endpoints of sixteen equal colors are `Q565` of that color, whatever the axis. -/
def Obligations.IdealEndpointsOfAFlatBlock : Prop :=
  ∀ (plane : Matrix (Fin 3) (Fin 3) ℚ → Fin 3 → ℝ) (c : Rgb) (pa pb : Half),
    IsIdealEndpoints plane (List.replicate 16 c) pa pb → pa = q565 c ∧ pb = q565 c

/-- R174, R175: the closed form (the depressed cubic solved by a cosine, then the longest cross product of two rows) gives the axis: its
root is λ1; its vector is the ideal axis where λ1 is simple and where the three roots are one; and where λ1 is repeated its cross
products are zero and it falls back to (1,1,1)/√3. -/
def Obligations.ClosedFormGivesTheIdealAxis : Prop :=
  ∀ (plane : Matrix (Fin 3) (Fin 3) ℚ → Fin 3 → ℝ) (cs : List Rgb) (v : Fin 3 → ℝ) (l1 l2 l3 : ℝ), IsPlaneChoice plane →
    IsRootTriple (idealCovariance cs) l1 l2 l3 →
    (∀ l, IsClosedFormRoot (idealCovariance cs) l → l = l1) ∧
    (IsClosedFormAxis cs v → (l1 ≠ l2 ∨ l1 = l3 → IsIdealAxis plane cs v) ∧ (l1 = l2 → IsFallbackAxis v))

/-- R112, R204: bits 2i+1:2i of the fast index word are the cascade's index of pixel i. -/
def Obligations.FastIndexWordHoldsEachPixelsIndex : Prop :=
  ∀ (pal : Palette) (blk : Vector Pixel 16) (i : Fin 16),
    bits (fastIndices pal blk).toNat (2 * i.val + 1) (2 * i.val) = fastIndex pal blk[i]

/-- R206: bits 2i+1:2i of the high-quality index word are the least index whose palette entry is nearest to pixel i, and ERRC is
the exact sum of the least squared distances. -/
def Obligations.HqIndexWordHoldsTheNearestIndex : Prop :=
  ∀ (pal : Palette) (blk : Vector Pixel 16),
    (∀ i : Fin 16, ∃ k d, bits (hqIndices pal blk).toNat (2 * i.val + 1) (2 * i.val) = k ∧
      (ssds pal blk[i])[k]? = some d ∧ (∀ e ∈ ssds pal blk[i], d ≤ e) ∧
      ∀ j e, j < k → (ssds pal blk[i])[j]? = some e → d < e) ∧
    (hqError pal blk).toNat = (blk.toList.map (fun p => leastOf (ssds pal p))).sum

/-- R203: the cascade of four equal distances is 0; where the first three are equal it is 3 when the fourth is less and 0
otherwise; and it is not the argmin of every tuple. R207: a block of one color encodes, in both modes, to `C0 = C1` and an all-zero
index word. -/
def Obligations.CascadeCornersAndFlatBlocks : Prop :=
  ((∀ d, cascade d d d d = 0) ∧ (∀ d d3, cascade d d d d3 = if d3 < d then 3 else 0) ∧ cascade 9 0 5 5 = 0 ∧
    ∀ d0 d1 d2 d3, cascade d0 d1 d2 d3 ≤ 3) ∧
  ∀ (q : Quality) (e : EncScratch) (c : Rgb), (∀ p ∈ e.blk.toList, rgbOf p = c) →
    (colorBlock q true e).c0 = (colorBlock q true e).c1 ∧ (colorBlock q true e).idx = 0

/-! ## The alpha datapath -/

/-- R234: a value at or above `mx` takes index 0, whose level is `A0`, and a value at or below `mn` takes index 1, whose level is
`A1`; every index is in 0 to 7. With an inset shift of at least 1 the block holds (mx, mn) and, for each value, the index that the
number of thresholds at or above it selects. -/
def Obligations.FastAlphaIndexesByItsThresholds : Prop :=
  (∀ (mn mx : Nat) (v : Byte),
    (mn < mx → mx ≤ v.toNat → fastRampIndex (rampThresholds mn mx) v = 0) ∧
    (mn ≤ mx → v.toNat ≤ mn → fastRampIndex (rampThresholds mn mx) v = 1) ∧
    fastRampIndex (rampThresholds mn mx) v ≤ 7) ∧
  ∀ (vals : List Byte) (k : Nat), vals.length = 16 → 1 ≤ k →
    let mn := (alphaRange vals k).1.toNat
    let mx := (alphaRange vals k).2.toNat
    let mid := (mx - mn) / 14
    let ab := [mn + mid, (6 * mx + mn) / 7 + mid, (5 * mx + 2 * mn) / 7 + mid, (4 * mx + 3 * mn) / 7 + mid,
      (3 * mx + 4 * mn) / 7 + mid, (2 * mx + 5 * mn) / 7 + mid, (mx + 6 * mn) / 7 + mid]
    let r := fastAlpha vals k
    r.a0.toNat = mx ∧ r.a1.toNat = mn ∧ (∀ t ∈ ab, t ≤ mx) ∧
      ∀ i v, vals[i]? = some v →
        bits r.aidx.toNat (3 * i + 2) (3 * i) = [0, 2, 3, 4, 5, 6, 7, 1].getD (ab.countP (fun t => decide (v.toNat ≤ t))) 0

/-- R235, R236: the high-quality ramp block decodes with the lower of the two orientations' total squared errors. Orientation (a), with
endpoints (hi, lo) and ORI = 0, is taken exactly where its error is not the greater one, and each index is the least one at the least
squared distance. -/
def Obligations.HqAlphaDecodesWithTheLowerError : Prop :=
  ∀ (vals : List Byte) (k : Nat), vals.length = 16 →
    let r := hqAlpha vals k
    let lo := (alphaRange vals k).1
    let hi := (alphaRange vals k).2
    let err := (List.range 16).map (fun i =>
      absDiff (vals.getD i 0).toNat ((ramp r.a0 r.a1).getD (bits r.aidx.toNat (3 * i + 2) (3 * i)) 0) ^ 2)
    err.sum = min (rampFitErr vals hi lo) (rampFitErr vals lo hi) ∧
      (rampFitErr vals hi lo ≤ rampFitErr vals lo hi → r.a0 = hi ∧ r.a1 = lo ∧ hqOri vals k = false) ∧
      (rampFitErr vals lo hi < rampFitErr vals hi lo → r.a0 = lo ∧ r.a1 = hi ∧ hqOri vals k = true) ∧
      ∀ i v, vals[i]? = some v →
        let ds := (ramp r.a0 r.a1).map (fun l => absDiff v.toNat l ^ 2)
        ∃ j d, bits r.aidx.toNat (3 * i + 2) (3 * i) = j ∧ ds[j]? = some d ∧ (∀ e ∈ ds, d ≤ e) ∧
          ∀ j' e, j' < j → ds[j']? = some e → d < e

/-- R238: for every inset shift from 1 to 8, a channel of 0s and 255s, both present, decodes exactly. -/
def Obligations.ExtremeAlphaDecodesExactly : Prop :=
  ∀ (vals : List Byte) (k : Nat), vals.length = 16 → (∀ v ∈ vals, v = 0 ∨ v = 255) → 0 ∈ vals → 255 ∈ vals → 1 ≤ k →
    let r := hqAlpha vals k
    ∀ i, i < 16 → (ramp r.a0 r.a1).getD (bits r.aidx.toNat (3 * i + 2) (3 * i)) 0 = (vals.getD i 0).toNat

/-- R114, R237: nibble i of the explicit alpha field is the high four bits of value i. -/
def Obligations.ExplicitAlphaKeepsTheHighNibbles : Prop :=
  ∀ (vals : List Byte) (i : Nat) (v : Byte), vals.length = 16 → vals[i]? = some v →
    bits (explicitAlpha vals).toNat (4 * i + 3) (4 * i) = bits v.toNat 7 4

/-- R112 to R115: read back as little-endian fields, the bytes of a block are its endpoints, its index words and its alpha field, and a
block has its format's size. -/
def Obligations.SerializedBlockReadsBack : Prop :=
  ∀ (f : Fmt) (e : EncScratch),
    (serialize f e).length = blockSize f ∧
    (f ≠ .dxn → leValue ((serialize f e).drop (blockSize f - 8)) =
      e.c0.toNat + e.c1.toNat * 2 ^ 16 + e.idx.toNat * 2 ^ 32) ∧
    (f = .dxt3 → leValue ((serialize f e).take 8) = e.exa.toNat) ∧
    (f = .dxt5 ∨ f = .dxn → leValue ((serialize f e).take 8) =
      e.ramp.a0.toNat + e.ramp.a1.toNat * 2 ^ 8 + e.ramp.aidx.toNat * 2 ^ 16) ∧
    (f = .dxn → leValue ((serialize f e).drop 8) =
      e.ramp'.a0.toNat + e.ramp'.a1.toNat * 2 ^ 8 + e.ramp'.aidx.toNat * 2 ^ 16)

/-- R280: the bytes of a tile are a function of its sixteen pixels, the format and the quality alone (with the configuration): no
scratch of an earlier tile reaches them. R239, R276: source alpha reaches no output bit of a DXT1 block, and blue and alpha reach none
of a DXN block. -/
def Obligations.BlockBytesDependOnTheirChannelsAlone : Prop :=
  ∀ (q : Quality) (k : Nat) (b b' : Vector Pixel 16) (e e' : EncScratch),
    (∀ f, (encodeBlock f q k b e).outb = (encodeBlock f q k b e').outb) ∧
    (b.toList.map rgbOf = b'.toList.map rgbOf → (encodeBlock .dxt1 q k b e).outb = (encodeBlock .dxt1 q k b' e').outb) ∧
    (channel b 0 = channel b' 0 → channel b 1 = channel b' 1 →
      (encodeBlock .dxn q k b e).outb = (encodeBlock .dxn q k b' e').outb)

/-! ## The PVRTC datapath -/

/-- R303: on a grid of powers of two, `TwiddleUV` is a bijection from the grid onto 0 to X·Y − 1. -/
def Obligations.TwiddleIsABijection : Prop :=
  ∀ m n : Nat, (∀ x y, x < 2 ^ m → y < 2 ^ n → twiddleUV (2 ^ m) (2 ^ n) x y < 2 ^ m * 2 ^ n) ∧
    (∀ x y x' y', x < 2 ^ m → y < 2 ^ n → x' < 2 ^ m → y' < 2 ^ n →
      twiddleUV (2 ^ m) (2 ^ n) x y = twiddleUV (2 ^ m) (2 ^ n) x' y' → x = x' ∧ y = y') ∧
    ∀ t, t < 2 ^ m * 2 ^ n → ∃ x y, x < 2 ^ m ∧ y < 2 ^ n ∧ twiddleUV (2 ^ m) (2 ^ n) x y = t

/-- R316 to R318: every position whose stored value a tile reads holds one (a 2bpp position at its own place where its word is direct
or the place is a stored one, and otherwise each neighbour that its mode averages; every position at 4bpp), so every weight a 2bpp
tile reads is in 0 to 8 and every weight a 4bpp tile reads is one of 0, 3, 4, 5, 8, 14. -/
def Obligations.WeightsReadOnlyStoredValues : Prop :=
  (∀ (ws : FourWords) (c r : Nat), c < 8 → r < 4 →
    let v := modvGrid .two ws
    let mode := modmAt .two (modmGrid .two ws) (c + 4) (r + 2)
    (mode = 0 ∨ (c + r) % 2 = 0 → modvAt .two v (c + 4) (r + 2) ≠ none) ∧
    (mode ≠ 0 → (c + r) % 2 ≠ 0 → modvAt .two v (c + 3) (r + 2) ≠ none ∧ modvAt .two v (c + 5) (r + 2) ≠ none ∧
      modvAt .two v (c + 4) (r + 1) ≠ none ∧ modvAt .two v (c + 4) (r + 3) ≠ none) ∧
    weight2 v (modmGrid .two ws) (c + 4) (r + 2) ≤ 8) ∧
  ∀ (ws : FourWords) (c r : Nat), c < 4 → r < 4 →
    modvAt .four (modvGrid .four ws) (c + 2) (r + 2) ≠ none ∧
      weight4 (modvGrid .four ws) (c + 2) (r + 2) ∈ [0, 3, 4, 5, 8, 14]

/-- R321, R332: where the four words are equal, the upscaled colors of every pixel are the bit replications of the word's two
colors. -/
def Obligations.EqualWordsGiveConstantColors : Prop :=
  ∀ (b : Bpp) (w : PvWord) (c r : Nat), c < ww b → r < wh b →
    let rep := fun k : PvColor =>
      (⟨BitVec.ofNat 8 (k.r.toNat * 8 + k.r.toNat / 4), BitVec.ofNat 8 (k.g.toNat * 8 + k.g.toNat / 4),
        BitVec.ofNat 8 (k.b.toNat * 8 + k.b.toNat / 4), BitVec.ofNat 8 (k.a.toNat * 16 + k.a.toNat)⟩ : Pixel)
    pixelUA b ⟨w, w, w, w⟩ c r = rep (colorA w.col) ∧ pixelUB b ⟨w, w, w, w⟩ c r = rep (colorB w.col)

/-- R325: weight 0 gives UA and weight 8 gives UB exactly; a weight above 10 forces alpha to 0 and blends the colors by the weight
less 10. R307: a transparent color has alpha at most 14 and an opaque one alpha 15, and bit 0 of the color member reaches neither
color. -/
def Obligations.BlendEndsPunchThroughAndColorModes : Prop :=
  (∀ ua ub : Pixel, blendPixel 0 ua ub = ua ∧ blendPixel 8 ua ub = ub ∧
    ∀ w, 10 < w → (blendPixel w ua ub).a = 0 ∧ (blendPixel w ua ub).r = blendChannel (w - 10) ua.r ub.r ∧
      (blendPixel w ua ub).g = blendChannel (w - 10) ua.g ub.g ∧ (blendPixel w ua ub).b = blendChannel (w - 10) ua.b ub.b) ∧
  ∀ col : Word, ((colorA col).a.toNat = 15 ↔ bit col.toNat 15 = 1) ∧ ((colorB col).a.toNat = 15 ↔ bit col.toNat 31 = 1) ∧
    colorA (col ^^^ 1) = colorA col ∧ colorB (col ^^^ 1) = colorB col
end

