-- ==== Sys2Proof/Laws/Datapath.lean ====
section
/-! SUPPORT. The small lemmas of the datapath's operations: byte order, packed indices, ranges, distances, the ordering of
endpoints and the laws of the high-quality pair. -/

namespace Sys2Proof.Machine

/-! ## Bit fields and byte order -/

theorem bits_eq (v hi lo : Nat) : bits v hi lo = v / 2 ^ lo % 2 ^ (hi - lo + 1) := rfl

theorem bits_lt (v hi lo : Nat) : bits v hi lo < 2 ^ (hi - lo + 1) := Nat.mod_lt _ (by positivity)

theorem bit_lt (v i : Nat) : bit v i < 2 := Nat.mod_lt _ (by decide)

@[simp] theorem leBytes_length (n v : Nat) : (leBytes n v).length = n := by simp [leBytes]

theorem leBytes_zero (v : Nat) : leBytes 0 v = [] := rfl

theorem leBytes_succ (n v : Nat) : leBytes (n + 1) v = byteOf v 0 :: leBytes n (v / 256) := by
  simp only [leBytes, List.range_succ_eq_map, List.map_cons, List.map_map]
  congr 1
  refine List.map_congr_left fun k _ => ?_
  simp only [Function.comp, byteOf]
  rw [Nat.div_div_eq_div_mul, show 2 ^ (8 * Nat.succ k) = 256 * 2 ^ (8 * k) by rw [Nat.mul_succ, Nat.pow_add]; ring]

/-- Little-endian bytes read back as the number they hold. -/
theorem leValue_leBytes : ∀ (n v : Nat), leValue (leBytes n v) = v % 256 ^ n
  | 0, v => by simp [leBytes_zero, leValue, Nat.mod_one]
  | n + 1, v => by
    rw [leBytes_succ, leValue, leValue_leBytes n, show 256 ^ (n + 1) = 256 * 256 ^ n by ring, Nat.mod_mul]
    simp [byteOf]

theorem leValue_append : ∀ xs ys : List Byte, leValue (xs ++ ys) = leValue xs + 256 ^ xs.length * leValue ys
  | [], ys => by simp [leValue]
  | x :: xs, ys => by
    simp only [List.cons_append, leValue, leValue_append xs ys, List.length_cons, Nat.pow_succ]
    ring

/-! ## Packed indices -/

theorem packIndices_lt (n : Nat) : ∀ ks : List Nat, (∀ k ∈ ks, k < 2 ^ n) → packIndices n ks < 2 ^ (n * ks.length)
  | [], _ => by simp [packIndices]
  | k :: ks, h => by
    have hk := h k (by simp)
    have ih := packIndices_lt n ks fun j hj => h j (by simp [hj])
    simp only [packIndices, List.length_cons]
    calc packIndices n ks * 2 ^ n + k < packIndices n ks * 2 ^ n + 2 ^ n := by omega
      _ = (packIndices n ks + 1) * 2 ^ n := by ring
      _ ≤ 2 ^ (n * ks.length) * 2 ^ n := Nat.mul_le_mul_right _ ih
      _ = 2 ^ (n * (ks.length + 1)) := by rw [← Nat.pow_add, Nat.mul_succ]

/-- Field i of packed indices is index i. -/
theorem packIndices_field (n : Nat) : ∀ (ks : List Nat) (i : Nat) (k : Nat), (∀ j ∈ ks, j < 2 ^ n) → ks[i]? = some k →
    packIndices n ks / 2 ^ (n * i) % 2 ^ n = k
  | [], i, k, _, h => by simp at h
  | j :: js, 0, k, hlt, h => by
    have hk : j = k := by simpa using h
    subst hk
    simp only [packIndices, Nat.mul_zero, Nat.pow_zero, Nat.div_one, Nat.mul_add_mod_self_right]
    exact Nat.mod_eq_of_lt (hlt j (by simp))
  | j :: js, i + 1, k, hlt, h => by
    have ih := packIndices_field n js i k (fun x hx => hlt x (by simp [hx])) (by simpa using h)
    have hj := hlt j (by simp)
    simp only [packIndices]
    rw [Nat.mul_succ, Nat.pow_add, Nat.mul_comm (2 ^ (n * i)), ← Nat.div_div_eq_div_mul]
    rw [show (packIndices n js * 2 ^ n + j) / 2 ^ n = packIndices n js by
      rw [Nat.add_comm, Nat.add_mul_div_right _ _ (by positivity), Nat.div_eq_of_lt hj, Nat.zero_add]]
    exact ih

/-! ## Least values and ranges -/

theorem minOf_le {vals : List Byte} {v : Byte} (h : v ∈ vals) : minOf vals ≤ v.toNat := by
  have key : ∀ (l : List Byte) (m : Nat), l.foldl (fun m v => min m v.toNat) m ≤ m ∧
      ∀ v ∈ l, l.foldl (fun m v => min m v.toNat) m ≤ v.toNat := by
    intro l
    induction l with
    | nil => simp
    | cons x xs ih =>
      intro m
      obtain ⟨h1, h2⟩ := ih (min m x.toNat)
      refine ⟨le_trans h1 (min_le_left _ _), fun v hv => ?_⟩
      rcases List.mem_cons.1 hv with rfl | hv
      · exact le_trans h1 (min_le_right _ _)
      · exact h2 v hv
  exact (key vals 255).2 v h

theorem le_maxOf {vals : List Byte} {v : Byte} (h : v ∈ vals) : v.toNat ≤ maxOf vals := by
  have key : ∀ (l : List Byte) (m : Nat), m ≤ l.foldl (fun m v => max m v.toNat) m ∧
      ∀ v ∈ l, v.toNat ≤ l.foldl (fun m v => max m v.toNat) m := by
    intro l
    induction l with
    | nil => simp
    | cons x xs ih =>
      intro m
      obtain ⟨h1, h2⟩ := ih (max m x.toNat)
      refine ⟨le_trans (le_max_left _ _) h1, fun v hv => ?_⟩
      rcases List.mem_cons.1 hv with rfl | hv
      · exact le_trans (le_max_right _ _) h1
      · exact h2 v hv
  exact (key vals 0).2 v h

theorem minOf_mem {vals : List Byte} (h : vals ≠ []) : ∃ v ∈ vals, v.toNat = minOf vals := by
  have key : ∀ (l : List Byte) (m : Nat), (∃ v ∈ l, v.toNat = l.foldl (fun m v => min m v.toNat) m) ∨
      l.foldl (fun m v => min m v.toNat) m = m := by
    intro l
    induction l with
    | nil => simp
    | cons x xs ih =>
      intro m
      rcases ih (min m x.toNat) with ⟨v, hv, he⟩ | he
      · exact .inl ⟨v, by simp [hv], he⟩
      · rcases le_total m x.toNat with hm | hm
        · exact .inr (by rw [List.foldl_cons, he, min_eq_left hm])
        · exact .inl ⟨x, by simp, by rw [List.foldl_cons, he, min_eq_right hm]⟩
  rcases key vals 255 with hk | hk
  · exact hk
  · obtain ⟨v, hv⟩ := List.exists_mem_of_ne_nil _ h
    have h1 := minOf_le hv
    have h2 : minOf vals = 255 := hk
    exact ⟨v, hv, by have := v.isLt; omega⟩

theorem maxOf_mem {vals : List Byte} (h : vals ≠ []) : ∃ v ∈ vals, v.toNat = maxOf vals := by
  have key : ∀ (l : List Byte) (m : Nat), (∃ v ∈ l, v.toNat = l.foldl (fun m v => max m v.toNat) m) ∨
      l.foldl (fun m v => max m v.toNat) m = m := by
    intro l
    induction l with
    | nil => simp
    | cons x xs ih =>
      intro m
      rcases ih (max m x.toNat) with ⟨v, hv, he⟩ | he
      · exact .inl ⟨v, by simp [hv], he⟩
      · rcases le_total x.toNat m with hm | hm
        · exact .inr (by rw [List.foldl_cons, he, max_eq_left hm])
        · exact .inl ⟨x, by simp, by rw [List.foldl_cons, he, max_eq_right hm]⟩
  rcases key vals 0 with hk | hk
  · exact hk
  · obtain ⟨v, hv⟩ := List.exists_mem_of_ne_nil _ h
    have h1 := le_maxOf hv
    have h2 : maxOf vals = 0 := hk
    exact ⟨v, hv, by omega⟩

theorem minOf_le_maxOf {vals : List Byte} (h : vals ≠ []) : minOf vals ≤ maxOf vals ∧ maxOf vals < 256 := by
  obtain ⟨v, hv, he⟩ := maxOf_mem h
  exact ⟨le_trans (minOf_le hv) (le_maxOf hv), he ▸ v.isLt⟩

/-- The two ends of the inset range as numbers: the clamps never act (R170). -/
theorem insetRange_toNat {vals : List Byte} (h : vals ≠ []) (k : Nat) :
    (insetRange vals k).1.toNat = minOf vals + (maxOf vals - minOf vals) / 2 ^ k ∧
      (insetRange vals k).2.toNat = maxOf vals - (maxOf vals - minOf vals) / 2 ^ k := by
  obtain ⟨h1, h2⟩ := minOf_le_maxOf h
  have h3 : (maxOf vals - minOf vals) / 2 ^ k ≤ maxOf vals - minOf vals := Nat.div_le_self _ _
  simp only [insetRange, BitVec.toNat_ofNat]
  generalize (maxOf vals - minOf vals) / 2 ^ k = ins at *
  constructor
  · rw [min_eq_left (by omega), Nat.mod_eq_of_lt (by omega)]
  · rw [max_eq_left (by omega), Nat.mod_eq_of_lt (by omega)]

@[simp] theorem channel_length (blk : Vector Pixel 16) (ch : Fin 4) : (channel blk ch).length = 16 := by simp [channel]

theorem channel_ne_nil (blk : Vector Pixel 16) (ch : Fin 4) : channel blk ch ≠ [] := by
  intro h
  have := channel_length blk ch
  simp [h] at this

/-! ## 565 colors -/

theorem pack565_toNat (r g b : Byte) :
    (pack565 r g b).toNat = r.toNat / 8 * 2 ^ 11 + g.toNat / 4 * 2 ^ 5 + b.toNat / 8 := by
  have := r.isLt
  have := g.isLt
  have := b.isLt
  simp only [pack565, BitVec.toNat_ofNat]
  omega

theorem pack565_le {r g b r' g' b' : Byte} (hr : r.toNat ≤ r'.toNat) (hg : g.toNat ≤ g'.toNat) (hb : b.toNat ≤ b'.toNat) :
    (pack565 r g b).toNat ≤ (pack565 r' g' b').toNat := by
  rw [pack565_toNat, pack565_toNat]
  have := Nat.div_le_div_right (c := 8) hr
  have := Nat.div_le_div_right (c := 4) hg
  have := Nat.div_le_div_right (c := 8) hb
  omega

theorem order_of_le {pa pb : Half} (h : pb.toNat ≤ pa.toNat) : order pa pb = (pa, pb) := by
  rw [order, if_neg (by omega)]

/-- The ordered pair does not depend on which endpoint comes first. -/
theorem order_comm (pa pb : Half) : order pa pb = order pb pa := by
  unfold order
  rcases lt_trichotomy pa.toNat pb.toNat with h | h | h
  · rw [if_pos h, if_neg (by omega)]
  · rw [BitVec.eq_of_toNat_eq h]
  · rw [if_neg (by omega), if_pos h]

/-- The ordered pair of the high-quality endpoints is the ordered `hqPair`. -/
theorem order_hqEndpoints (blk : Vector Pixel 16) :
    order (hqEndpoints blk).1 (hqEndpoints blk).2 = order (hqPair (blockRgb blk)).1 (hqPair (blockRgb blk)).2 := by
  unfold hqEndpoints
  split
  · exact order_comm _ _
  · rfl

/-! ## Least index and least distance -/

theorem leastOf_le : ∀ {ds : List Nat} {e : Nat}, e ∈ ds → leastOf ds ≤ e
  | [d], e, h => by simp at h; simp [leastOf, h]
  | d :: d' :: ds, e, h => by
    rw [leastOf]
    · rcases List.mem_cons.1 h with rfl | h
      · exact min_le_left _ _
      · exact le_trans (min_le_right _ _) (leastOf_le h)
    · simp

/-- The least index: its distance is the least one, and every earlier distance is greater. -/
theorem leastIndex_spec : ∀ {ds : List Nat}, ds ≠ [] → ∃ d, ds[leastIndex ds]? = some d ∧ leastOf ds = d ∧
    ∀ j e, j < leastIndex ds → ds[j]? = some e → d < e
  | [d], _ => ⟨d, by simp [leastIndex, leastOf]⟩
  | d :: d' :: ds, _ => by
    obtain ⟨m, h1, h2, h3⟩ := leastIndex_spec (ds := d' :: ds) (by simp)
    by_cases hall : (d' :: ds).all (fun e => decide (d ≤ e)) = true
    · refine ⟨d, ?_, ?_, ?_⟩
      · rw [leastIndex, if_pos hall] <;> simp
      · rw [leastOf, h2]
        · rw [List.all_eq_true] at hall
          have := hall m (List.mem_of_getElem? h1)
          exact min_eq_left (by simpa using this)
        · simp
      · rw [leastIndex, if_pos hall] <;> simp
    · have hlt : m < d := by
        by_contra hc
        refine hall (List.all_eq_true.2 fun e he => ?_)
        have := leastOf_le he
        simp only [decide_eq_true_eq]
        omega
      have hi : leastIndex (d :: d' :: ds) = leastIndex (d' :: ds) + 1 := by
        rw [leastIndex, if_neg hall]
        simp
      refine ⟨m, by rw [hi]; simpa using h1, ?_, ?_⟩
      · rw [leastOf, h2]
        · exact min_eq_right (by omega)
        · simp
      · intro j e hj he
        cases j with
        | zero => simp at he; omega
        | succ j => exact h3 j e (by omega) (by simpa using he)

theorem leastIndex_lt {ds : List Nat} (h : ds ≠ []) : leastIndex ds < ds.length := by
  obtain ⟨d, hd, -⟩ := leastIndex_spec h
  exact (List.getElem?_eq_some_iff.1 hd).1

theorem hqIndex_lt (pal : Palette) (p : Pixel) : hqIndex pal p < 4 := leastIndex_lt (ds := ssds pal p) (by simp [ssds])

theorem cascade_lt (d0 d1 d2 d3 : Nat) : cascade d0 d1 d2 d3 < 4 := by
  simp only [cascade]
  generalize (decide (d3 < d0) && decide (d3 < d2)) = x
  generalize (decide (d2 < d1) && decide (d2 < d0) || decide (d3 < d0) && decide (d3 < d1)) = y
  cases x <;> cases y <;> decide

theorem fastIndex_lt (pal : Palette) (p : Pixel) : fastIndex pal p < 4 := cascade_lt _ _ _ _

@[simp] theorem ramp_length (a0 a1 : Byte) : (ramp a0 a1).length = 8 := by unfold ramp; dsimp only; split <;> rfl

theorem rampDistances_length (levels : List Nat) (v : Byte) : (rampDistances levels v).length = levels.length := by
  simp [rampDistances]

theorem fastRampIndex_lt (ab : List Int) (v : Byte) : fastRampIndex ab v < 8 := by
  unfold fastRampIndex
  dsimp only
  split <;> omega

/-! ## The sizes of a block's parts -/

@[simp] theorem colorBytes_length (e : EncScratch) : (colorBytes e).length = 8 := by simp [colorBytes]

@[simp] theorem rampBytes_length (r : RampBlock) : (rampBytes r).length = 8 := by simp [rampBytes]

@[simp] theorem explicitBytes_length (e : EncScratch) : (explicitBytes e).length = 8 := by simp [explicitBytes]

@[simp] theorem serialize_length (f : Fmt) (e : EncScratch) : (serialize f e).length = blockSize f := by
  cases f <;> simp [serialize, blockSize]

@[simp] theorem encodeBlock_outb_length (f : Fmt) (q : Quality) (k : Nat) (b : Vector Pixel 16) (e : EncScratch) :
    (encodeBlock f q k b e).outb.length = blockSize f := by simp [encodeBlock]

/-! ## What the color stages leave alone -/

@[simp] theorem colorFast_blk (fb : Bool) (e : EncScratch) : (colorFast fb e).blk = e.blk := rfl
@[simp] theorem colorFast_ramp (fb : Bool) (e : EncScratch) : (colorFast fb e).ramp = e.ramp := rfl
@[simp] theorem colorFast_ramp' (fb : Bool) (e : EncScratch) : (colorFast fb e).ramp' = e.ramp' := rfl
@[simp] theorem colorFast_ori (fb : Bool) (e : EncScratch) : (colorFast fb e).ori = e.ori := rfl
@[simp] theorem colorFast_exa (fb : Bool) (e : EncScratch) : (colorFast fb e).exa = e.exa := rfl
@[simp] theorem colorFast_errc (fb : Bool) (e : EncScratch) : (colorFast fb e).errc = e.errc := rfl
@[simp] theorem colorFast_outb (fb : Bool) (e : EncScratch) : (colorFast fb e).outb = e.outb := rfl

@[simp] theorem colorHq_blk (fb : Bool) (e : EncScratch) : (colorHq fb e).blk = e.blk := rfl
@[simp] theorem colorHq_minc (fb : Bool) (e : EncScratch) : (colorHq fb e).minc = e.minc := rfl
@[simp] theorem colorHq_maxc (fb : Bool) (e : EncScratch) : (colorHq fb e).maxc = e.maxc := rfl
@[simp] theorem colorHq_ramp (fb : Bool) (e : EncScratch) : (colorHq fb e).ramp = e.ramp := rfl
@[simp] theorem colorHq_ramp' (fb : Bool) (e : EncScratch) : (colorHq fb e).ramp' = e.ramp' := rfl
@[simp] theorem colorHq_ori (fb : Bool) (e : EncScratch) : (colorHq fb e).ori = e.ori := rfl
@[simp] theorem colorHq_exa (fb : Bool) (e : EncScratch) : (colorHq fb e).exa = e.exa := rfl
@[simp] theorem colorHq_outb (fb : Bool) (e : EncScratch) : (colorHq fb e).outb = e.outb := rfl

/-! ## The scratch a tile leaves, format by format -/

theorem encodeBlock_dxt1 (q : Quality) (k : Nat) (b : Vector Pixel 16) (e : EncScratch) :
    encodeBlock .dxt1 q k b e =
      { colorBlock q true { e with blk := b } with outb := colorBytes (colorBlock q true { e with blk := b }) } := rfl

theorem encodeBlock_dxt3 (q : Quality) (k : Nat) (b : Vector Pixel 16) (e : EncScratch) :
    encodeBlock .dxt3 q k b e =
      { colorBlock q true { e with blk := b } with
        exa := explicitAlpha (channel b 3)
        outb := leBytes 8 (explicitAlpha (channel b 3)).toNat ++ colorBytes (colorBlock q true { e with blk := b }) } := rfl

theorem colorBlock_blk (q : Quality) (fb : Bool) (e : EncScratch) : (colorBlock q fb e).blk = e.blk := by cases q <;> rfl

theorem colorBlock_ori (q : Quality) (fb : Bool) (e : EncScratch) : (colorBlock q fb e).ori = e.ori := by cases q <;> rfl

theorem encodeBlock_dxt5 (q : Quality) (k : Nat) (b : Vector Pixel 16) (e : EncScratch) :
    encodeBlock .dxt5 q k b e =
      { colorBlock q true { e with blk := b } with
        ramp := alphaBlock q (channel b 3) 5
        ori := alphaOri q (channel b 3) 5 e.ori
        outb := rampBytes (alphaBlock q (channel b 3) 5) ++ colorBytes (colorBlock q true { e with blk := b }) } := by
  cases q <;> rfl

theorem encodeBlock_dxn (q : Quality) (k : Nat) (b : Vector Pixel 16) (e : EncScratch) :
    encodeBlock .dxn q k b e =
      { e with
        blk := b
        ramp := alphaBlock q (channel b 0) k
        ramp' := alphaBlock q (channel b 1) k
        ori := alphaOri q (channel b 1) k e.ori
        outb := rampBytes (alphaBlock q (channel b 0) k) ++ rampBytes (alphaBlock q (channel b 1) k) } := by
  cases q <;> rfl

end Sys2Proof.Machine
end

