-- ==== Sys2Proof/Laws/Ideal.lean ====
section
/-! SUPPORT. The ideal axis of a block (spec/42_endpoint_selector.md R175): its dominant root is one number, and a plane choice
exists; the closed form always gives a root and an axis. -/

namespace Sys2Proof.Machine

/-- The covariance matrix is symmetric. -/
theorem idealCovariance_symm (cs : List Rgb) (j k : Fin 3) : idealCovariance cs j k = idealCovariance cs k j := by
  unfold idealCovariance
  congr 2
  exact List.map_congr_left (fun c _ => mul_comm _ _)

/-- The characteristic polynomial, written out. -/
theorem det_realMatrix_sub (c : Matrix (Fin 3) (Fin 3) ℚ) (t : ℝ) :
    (realMatrix c - t • (1 : Matrix (Fin 3) (Fin 3) ℝ)).det =
      ((c 0 0 : ℝ) - t) * ((c 1 1 : ℝ) - t) * ((c 2 2 : ℝ) - t) - ((c 0 0 : ℝ) - t) * c 1 2 * c 2 1 -
        c 0 1 * c 1 0 * ((c 2 2 : ℝ) - t) + c 0 1 * c 1 2 * c 2 0 + c 0 2 * c 1 0 * c 2 1 -
        c 0 2 * ((c 1 1 : ℝ) - t) * c 2 0 := by
  rw [Matrix.det_fin_three]
  simp [realMatrix]

/-- The sum and the pairwise products of the roots are the trace and the sum of the principal minors. -/
theorem IsRootTriple.coefficients {c : Matrix (Fin 3) (Fin 3) ℚ} {l1 l2 l3 : ℝ} (h : IsRootTriple c l1 l2 l3) :
    (c 0 0 : ℝ) + c 1 1 + c 2 2 = l1 + l2 + l3 ∧
      (c 0 0 : ℝ) * c 1 1 + c 0 0 * c 2 2 + c 1 1 * c 2 2 - c 0 1 * c 1 0 - c 0 2 * c 2 0 - c 1 2 * c 2 1 =
        l1 * l2 + l1 * l3 + l2 * l3 := by
  have h0 := h.2.2 0
  have h1 := h.2.2 1
  have h2 := h.2.2 (-1)
  have h3 := h.2.2 2
  rw [det_realMatrix_sub] at h0 h1 h2 h3
  constructor <;> nlinarith

/-- A vector of length 0 is 0. -/
theorem eq_zero_of_lengthSquared {u : Fin 3 → ℝ} (h : lengthSquared u ≤ 0) : u = 0 := by
  unfold lengthSquared at h
  have h0 := sq_nonneg (u 0)
  have h1 := sq_nonneg (u 1)
  have h2 := sq_nonneg (u 2)
  funext k
  fin_cases k
  · exact (pow_eq_zero_iff two_ne_zero).1 (show u 0 ^ 2 = 0 by linarith)
  · exact (pow_eq_zero_iff two_ne_zero).1 (show u 1 ^ 2 = 0 by linarith)
  · exact (pow_eq_zero_iff two_ne_zero).1 (show u 2 ^ 2 = 0 by linarith)

/-- `λ1` is a root, and no root is greater. -/
theorem IsRootTriple.greatest {c : Matrix (Fin 3) (Fin 3) ℚ} {l1 l2 l3 : ℝ} (h : IsRootTriple c l1 l2 l3) :
    IsGreatest {x : ℝ | (realMatrix c - x • (1 : Matrix (Fin 3) (Fin 3) ℝ)).det = 0} l1 := by
  obtain ⟨h21, h32, hd⟩ := h
  refine ⟨by rw [Set.mem_ofPred_eq, hd]; ring, fun x hx => ?_⟩
  rw [Set.mem_ofPred_eq, hd, mul_eq_zero, mul_eq_zero] at hx
  rcases hx with (h | h) | h <;> linarith

/-- The dominant root is the matrix's own. -/
theorem IsRootTriple.dominant_unique {c : Matrix (Fin 3) (Fin 3) ℚ} {l1 l2 l3 m1 m2 m3 : ℝ}
    (h : IsRootTriple c l1 l2 l3) (h' : IsRootTriple c m1 m2 m3) : l1 = m1 :=
  h.greatest.unique h'.greatest

/-- Every root has a unit eigenvector. -/
theorem exists_unit_eigenvector {c : Matrix (Fin 3) (Fin 3) ℚ} {l : ℝ}
    (h : (realMatrix c - l • (1 : Matrix (Fin 3) (Fin 3) ℝ)).det = 0) : ∃ v, IsUnitEigenvector c l v := by
  obtain ⟨v, hv, hz⟩ := Matrix.exists_mulVec_eq_zero_iff.2 h
  have hpos : 0 < lengthSquared v := lt_of_not_ge fun h => hv (eq_zero_of_lengthSquared h)
  have hs := Real.sq_sqrt hpos.le
  have hs0 : Real.sqrt (lengthSquared v) ≠ 0 := (Real.sqrt_pos.2 hpos).ne'
  rw [Matrix.sub_mulVec, Matrix.smul_mulVec, Matrix.one_mulVec, sub_eq_zero] at hz
  refine ⟨(Real.sqrt (lengthSquared v))⁻¹ • v, ?_, ?_⟩
  · simp only [Pi.smul_apply, smul_eq_mul, mul_pow, inv_pow, hs, ← mul_add]
    exact inv_mul_cancel₀ hpos.ne'
  · rw [Matrix.mulVec_smul, hz, smul_comm]

/-- `HQ_PLANE_CHOICE` exists. -/
theorem exists_planeChoice : ∃ plane, IsPlaneChoice plane := by
  classical
  have hex : ∀ c : Matrix (Fin 3) (Fin 3) ℚ, ∃ v, ∀ l1 l3, IsRootTriple c l1 l1 l3 → IsUnitEigenvector c l1 v := by
    intro c
    by_cases h : ∃ l1 l3, IsRootTriple c l1 l1 l3
    · obtain ⟨l1, l3, h⟩ := h
      obtain ⟨v, hv⟩ := exists_unit_eigenvector h.greatest.1
      exact ⟨v, fun m1 m3 h' => h.dominant_unique h' ▸ hv⟩
    · exact ⟨0, fun l1 l3 h' => absurd ⟨l1, l3, h'⟩ h⟩
  choose plane hp using hex
  exact ⟨plane, fun c l1 l3 h _ => hp c l1 l3 h⟩

/-- The closed form gives a root. -/
theorem exists_closedFormRoot (c : Matrix (Fin 3) (Fin 3) ℚ) : ∃ l, IsClosedFormRoot c l := by
  by_cases h : closedP1 c = 0
  · exact ⟨_, fun _ => rfl, fun h' => absurd h h'⟩
  · exact ⟨_, fun h' => absurd h' h, fun _ => ⟨_, _, _, rfl, rfl, rfl, rfl⟩⟩

/-- One of three vectors is the longest. -/
theorem exists_longest (a b d : Fin 3 → ℝ) : ∃ w ∈ [a, b, d], ∀ u ∈ [a, b, d], lengthSquared u ≤ lengthSquared w := by
  classical
  obtain ⟨w, hw, h⟩ := Finset.exists_max_image [a, b, d].toFinset lengthSquared ⟨a, by simp⟩
  exact ⟨w, List.mem_toFinset.1 hw, fun u hu => h u (List.mem_toFinset.2 hu)⟩

/-- The closed form gives an axis. -/
theorem exists_closedFormAxis (cs : List Rgb) : ∃ v, IsClosedFormAxis cs v := by
  obtain ⟨l, hl⟩ := exists_closedFormRoot (idealCovariance cs)
  obtain ⟨w, hw, hlong⟩ := exists_longest (rowCross (idealCovariance cs) l 0 1) (rowCross (idealCovariance cs) l 0 2)
    (rowCross (idealCovariance cs) l 1 2)
  by_cases h0 : w = 0
  · exact ⟨fun _ => 1 / Real.sqrt 3, l, hl, w, hw, hlong, fun _ _ => rfl, fun h => absurd h0 h⟩
  · exact ⟨_, l, hl, w, hw, hlong, fun h => absurd h h0, fun _ => .inl rfl⟩

end Sys2Proof.Machine
end

