-- ==== Sys2Proof/Laws/Memory.lean ====
section
/-! SUPPORT. What every memory operation does: the canonical form is kept, a read after a write, and the frame. -/

namespace Sys2Proof.Machine

theorem Memory.wf_nil : Memory.wf [] := by simp [Memory.wf]

theorem Memory.wf_tail {c : Host.Cell} {m : Memory} (h : Memory.wf (c :: m)) : Memory.wf m :=
  ⟨(List.pairwise_cons.1 h.1).2, fun d hd => h.2 d (List.mem_cons_of_mem _ hd)⟩

theorem Memory.wf_cons {c : Host.Cell} {m : Memory} :
    Memory.wf (c :: m) ↔ (∀ d ∈ m, c.1 < d.1) ∧ c.2 ≠ memDefault ∧ c.1 < 2 ^ 64 ∧ Memory.wf m := by
  simp only [Memory.wf, List.pairwise_cons, List.mem_cons, forall_eq_or_imp]
  tauto

/-- An address below every listed one is not listed. -/
theorem Memory.read_of_lt {m : Memory} {x : Nat} (h : ∀ d ∈ m, x < d.1) : Memory.read m x = memDefault := by
  induction m with
  | nil => rfl
  | cons c m ih =>
    obtain ⟨a, v⟩ := c
    have ha : x < a := h (a, v) (by simp)
    have : Memory.read m x = memDefault := ih fun d hd => h d (by simp [hd])
    simp [Memory.read, this, Nat.ne_of_lt ha]

theorem Memory.mem_write {m : Memory} {x : Nat} {v : Byte} {d : Host.Cell} (h : d ∈ Memory.write m x v) :
    d ∈ m ∨ (d = (x, v) ∧ v ≠ memDefault) := by
  induction m with
  | nil =>
    simp only [Memory.write] at h
    split at h
    · simp at h
    · exact .inr ⟨by simpa using h, ‹_›⟩
  | cons c m ih =>
    obtain ⟨a, w⟩ := c
    simp only [Memory.write] at h
    split at h
    · split at h
      · exact .inl h
      · rcases List.mem_cons.1 h with h | h
        · exact .inr ⟨h, ‹_›⟩
        · exact .inl h
    · split at h
      · split at h
        · exact .inl (List.mem_cons_of_mem _ h)
        · rcases List.mem_cons.1 h with h | h
          · exact .inr ⟨h, ‹_›⟩
          · exact .inl (List.mem_cons_of_mem _ h)
      · rcases List.mem_cons.1 h with h | h
        · exact .inl (by simp [h])
        · rcases ih h with h | h
          · exact .inl (List.mem_cons_of_mem _ h)
          · exact .inr h

/-- A write keeps the canonical form. -/
theorem Memory.write_wf {m : Memory} {x : Nat} {v : Byte} (h : Memory.wf m) (hx : x < 2 ^ 64) :
    Memory.wf (Memory.write m x v) := by
  induction m with
  | nil =>
    simp only [Memory.write]
    split
    · exact h
    · exact Memory.wf_cons.2 ⟨by simp, ‹_›, hx, h⟩
  | cons c m ih =>
    obtain ⟨a, w⟩ := c
    have hc := Memory.wf_cons.1 h
    simp only [Memory.write]
    split
    · split
      · exact h
      · rename_i hlt hv
        refine Memory.wf_cons.2 ⟨fun d hd => ?_, hv, hx, h⟩
        rcases List.mem_cons.1 hd with rfl | hd
        · exact hlt
        · exact Nat.lt_trans hlt (hc.1 d hd)
    · split
      · split
        · exact hc.2.2.2
        · rename_i _ heq hv
          exact Memory.wf_cons.2 ⟨fun d hd => heq ▸ hc.1 d hd, hv, hx, hc.2.2.2⟩
      · rename_i hlt hne
        refine Memory.wf_cons.2 ⟨fun d hd => ?_, hc.2.1, hc.2.2.1, ih hc.2.2.2⟩
        rcases Memory.mem_write hd with hd | ⟨rfl, -⟩
        · exact hc.1 d hd
        · exact Nat.lt_of_le_of_ne (Nat.le_of_not_lt hlt) (Ne.symm hne)

/-- A read after a write. -/
theorem Memory.read_write {m : Memory} (h : Memory.wf m) (x : Nat) (v : Byte) (y : Nat) :
    Memory.read (Memory.write m x v) y = if y = x then v else Memory.read m y := by
  induction m with
  | nil =>
    simp only [Memory.write, Memory.read]
    split
    · subst v; simp [Memory.read]
    · simp [Memory.read]
  | cons c m ih =>
    obtain ⟨a, w⟩ := c
    have hc := Memory.wf_cons.1 h
    have hi := ih hc.2.2.2
    simp only [Memory.write]
    split
    · rename_i hlt
      have hd : Memory.read ((a, w) :: m) x = memDefault := Memory.read_of_lt fun d hd => by
        rcases List.mem_cons.1 hd with rfl | hd
        · exact hlt
        · exact Nat.lt_trans hlt (hc.1 d hd)
      split
      · subst v
        split
        · subst y; exact hd
        · rfl
      · simp only [Memory.read]
    · split
      · rename_i _ heq
        subst x
        have hd : Memory.read m a = memDefault := Memory.read_of_lt fun d hd => hc.1 d hd
        split
        · subst v
          by_cases hy : y = a
          · subst hy; simp [hd]
          · simp [Memory.read, hy]
        · by_cases hy : y = a <;> simp [Memory.read, hy]
      · rename_i _ hne
        simp only [Memory.read, hi]
        by_cases hy : y = a
        · subst hy; simp [Ne.symm hne]
        · simp [hy]

@[simp] theorem Memory.writes_nil (m : Memory) : Memory.writes m [] = m := rfl

@[simp] theorem Memory.writes_cons (m : Memory) (c : Host.Cell) (cs : List Host.Cell) :
    Memory.writes m (c :: cs) = Memory.writes (Memory.write m c.1 c.2) cs := rfl

theorem Memory.writes_append (m : Memory) (cs ds : List Host.Cell) :
    Memory.writes m (cs ++ ds) = Memory.writes (Memory.writes m cs) ds := by
  simp [Memory.writes]

/-- Writes keep the canonical form. -/
theorem Memory.writes_wf {cs : List Host.Cell} : ∀ {m : Memory}, Memory.wf m → (∀ c ∈ cs, c.1 < 2 ^ 64) →
    Memory.wf (Memory.writes m cs) := by
  induction cs with
  | nil => exact fun h _ => h
  | cons c cs ih =>
    exact fun h hc => ih (Memory.write_wf h (hc c (by simp))) fun d hd => hc d (by simp [hd])

/-- Writes leave every other address alone. -/
theorem Memory.read_writes_other {cs : List Host.Cell} {y : Nat} (hy : ∀ c ∈ cs, c.1 ≠ y) :
    ∀ {m : Memory}, Memory.wf m → (∀ c ∈ cs, c.1 < 2 ^ 64) → Memory.read (Memory.writes m cs) y = Memory.read m y := by
  induction cs with
  | nil => exact fun _ _ => rfl
  | cons c cs ih =>
    intro m h hc
    have hw := Memory.write_wf (v := c.2) h (hc c (by simp))
    rw [Memory.writes_cons, ih (fun d hd => hy d (by simp [hd])) hw (fun d hd => hc d (by simp [hd])),
      Memory.read_write h, if_neg (Ne.symm (hy c (by simp)))]

/-- What an address holds after writes to distinct addresses. -/
theorem Memory.read_writes_of_mem {cs : List Host.Cell} (hd : cs.Pairwise (fun c d => c.1 ≠ d.1)) {c : Host.Cell}
    (hc : c ∈ cs) : ∀ {m : Memory}, Memory.wf m → (∀ c ∈ cs, c.1 < 2 ^ 64) →
    Memory.read (Memory.writes m cs) c.1 = c.2 := by
  induction cs with
  | nil => simp at hc
  | cons d cs ih =>
    intro m h hb
    have hw := Memory.write_wf (v := d.2) h (hb d (by simp))
    have hp := List.pairwise_cons.1 hd
    rw [Memory.writes_cons]
    rcases List.mem_cons.1 hc with rfl | hc
    · rw [Memory.read_writes_other (fun e he => (hp.1 e he).symm) hw (fun e he => hb e (by simp [he])),
        Memory.read_write h, if_pos rfl]
    · exact ih hp.2 hc hw fun e he => hb e (by simp [he])

/-- What an address holds after writes that reach it: the value of one of them. -/
theorem Memory.read_writes_some {cs : List Host.Cell} {y : Nat} : ∀ {m : Memory}, Memory.wf m → (∀ c ∈ cs, c.1 < 2 ^ 64) →
    (∃ c ∈ cs, c.1 = y) → ∃ c ∈ cs, c.1 = y ∧ Memory.read (Memory.writes m cs) y = c.2 := by
  induction cs with
  | nil => simp
  | cons c cs ih =>
    intro m h hb hex
    have hw := Memory.write_wf (v := c.2) h (hb c (by simp))
    by_cases hr : ∃ d ∈ cs, d.1 = y
    · obtain ⟨d, hd, h1, h2⟩ := ih hw (fun e he => hb e (by simp [he])) hr
      exact ⟨d, by simp [hd], h1, by rw [Memory.writes_cons]; exact h2⟩
    · obtain ⟨d, hd, hy⟩ := hex
      have hdc : d = c := by
        rcases List.mem_cons.1 hd with hd | hd
        · exact hd
        · exact absurd ⟨d, hd, hy⟩ hr
      subst hdc
      refine ⟨d, by simp, hy, ?_⟩
      rw [Memory.writes_cons, Memory.read_writes_other (fun e he hey => hr ⟨e, he, hey⟩) hw (fun e he => hb e (by simp [he])),
        Memory.read_write h, if_pos hy.symm]

/-- Where each byte of `cellsAt` goes. -/
theorem mem_cellsAt {bs : List Byte} : ∀ {addr : Nat} {c : Host.Cell}, c ∈ cellsAt addr bs →
    addr ≤ c.1 ∧ c.1 < addr + bs.length ∧ bs[c.1 - addr]? = some c.2 := by
  induction bs with
  | nil => simp [cellsAt]
  | cons b bs ih =>
    intro addr c h
    rcases List.mem_cons.1 h with rfl | h
    · simp
    · obtain ⟨h1, h2, h3⟩ := ih h
      refine ⟨by omega, by simp; omega, ?_⟩
      have : c.1 - addr = (c.1 - (addr + 1)) + 1 := by omega
      rw [this, List.getElem?_cons_succ, h3]

theorem cellsAt_mem {bs : List Byte} : ∀ {addr k : Nat} {b : Byte}, bs[k]? = some b → (addr + k, b) ∈ cellsAt addr bs := by
  induction bs with
  | nil => simp
  | cons c bs ih =>
    intro addr k b h
    cases k with
    | zero => simp_all [cellsAt]
    | succ k =>
      have := ih (addr := addr + 1) (k := k) (by simpa using h)
      rw [show addr + (k + 1) = addr + 1 + k by omega]
      exact List.mem_cons_of_mem _ this

theorem cellsAt_pairwise {bs : List Byte} : ∀ {addr : Nat}, (cellsAt addr bs).Pairwise (fun c d => c.1 ≠ d.1) := by
  induction bs with
  | nil => simp [cellsAt]
  | cons b bs ih =>
    intro addr
    refine List.pairwise_cons.2 ⟨fun c hc => ?_, ih⟩
    have := (mem_cellsAt hc).1
    simp only
    omega

/-- Bytes written from an address upward read back in their places. -/
theorem Memory.read_writes_cellsAt {m : Memory} (h : Memory.wf m) {addr : Nat} {bs : List Byte}
    (hb : ∀ c ∈ cellsAt addr bs, c.1 < 2 ^ 64) {k : Nat} {b : Byte} (hk : bs[k]? = some b) :
    Memory.read (Memory.writes m (cellsAt addr bs)) (addr + k) = b :=
  Memory.read_writes_of_mem (c := (addr + k, b)) cellsAt_pairwise (cellsAt_mem hk) h hb

/-- Bytes written from an address upward leave every other address alone. -/
theorem Memory.read_writes_cellsAt_other {m : Memory} (h : Memory.wf m) {addr : Nat} {bs : List Byte}
    (hb : ∀ c ∈ cellsAt addr bs, c.1 < 2 ^ 64) {a : Nat} (ha : ¬(addr ≤ a ∧ a < addr + bs.length)) :
    Memory.read (Memory.writes m (cellsAt addr bs)) a = Memory.read m a := by
  refine Memory.read_writes_other (fun c hc hca => ha ?_) h hb
  obtain ⟨h1, h2, -⟩ := mem_cellsAt hc
  omega

/-- An address admitted to the engine lies in the address space. -/
theorem engineAdmits_lt {p : Params} {a : Nat} (h : engineAdmits p a = true) : a < 2 ^ 64 := by
  simp only [engineAdmits, admits, Bool.and_eq_true, decide_eq_true_eq] at h
  exact h.1.1

theorem admits_lt {p : Params} {a : Nat} (h : admits p a = true) : a < 2 ^ 64 := by
  simp only [admits, Bool.and_eq_true, decide_eq_true_eq] at h
  exact h.1

theorem mem_admittedCells {p : Params} {cs : List Host.Cell} {c : Host.Cell} :
    c ∈ admittedCells p cs ↔ c ∈ cs ∧ engineAdmits p c.1 = true := by
  simp [admittedCells]

end Sys2Proof.Machine
end

