-- ==== Sys2Proof/Laws/PerInstr.lean ====
section
/-! SUPPORT. Facts about every command as syntax, one lemma per constructor. -/

namespace Sys2Proof.Laws.EncodeFields

/-- The fields of a command's word are its row of the table (R100, R101), and the decoder answers the command. -/
def Statement (i : Instr) : Prop :=
  fieldRsv (encode i) = 0 ∧ fieldQ (encode i) = qOf i ∧ fieldOp (encode i) = opOf i ∧ decode (encode i) = .ok i

theorem clr : Statement .clr := by unfold Statement; decide
theorem encDxt1Fast : Statement .encDxt1Fast := by unfold Statement; decide
theorem encDxt1Hq : Statement .encDxt1Hq := by unfold Statement; decide
theorem encDxt3Fast : Statement .encDxt3Fast := by unfold Statement; decide
theorem encDxt3Hq : Statement .encDxt3Hq := by unfold Statement; decide
theorem encDxt5Fast : Statement .encDxt5Fast := by unfold Statement; decide
theorem encDxt5Hq : Statement .encDxt5Hq := by unfold Statement; decide
theorem encDxnFast : Statement .encDxnFast := by unfold Statement; decide
theorem encDxnHq : Statement .encDxnHq := by unfold Statement; decide
theorem decPvrtc2 : Statement .decPvrtc2 := by unfold Statement; decide
theorem decPvrtc4 : Statement .decPvrtc4 := by unfold Statement; decide

end Sys2Proof.Laws.EncodeFields
end

