-- ==== Sys2Proof/Laws/State.lean ====
section
/-! SUPPORT. One lemma per field per named update of State, each true by rfl. -/

namespace Sys2Proof.Machine

@[simp] theorem errorEntry_cmd (c : ErrCode) (s : State) : (errorEntry c s).cmd = s.cmd := rfl
@[simp] theorem errorEntry_status (c : ErrCode) (s : State) : (errorEntry c s).status = .error c := rfl
@[simp] theorem errorEntry_srcLo (c : ErrCode) (s : State) : (errorEntry c s).srcLo = s.srcLo := rfl
@[simp] theorem errorEntry_srcHi (c : ErrCode) (s : State) : (errorEntry c s).srcHi = s.srcHi := rfl
@[simp] theorem errorEntry_dstLo (c : ErrCode) (s : State) : (errorEntry c s).dstLo = s.dstLo := rfl
@[simp] theorem errorEntry_dstHi (c : ErrCode) (s : State) : (errorEntry c s).dstHi = s.dstHi := rfl
@[simp] theorem errorEntry_width (c : ErrCode) (s : State) : (errorEntry c s).width = s.width := rfl
@[simp] theorem errorEntry_height (c : ErrCode) (s : State) : (errorEntry c s).height = s.height := rfl
@[simp] theorem errorEntry_depth (c : ErrCode) (s : State) : (errorEntry c s).depth = s.depth := rfl
@[simp] theorem errorEntry_tc (c : ErrCode) (s : State) : (errorEntry c s).tc = s.tc := rfl
@[simp] theorem errorEntry_nt (c : ErrCode) (s : State) : (errorEntry c s).nt = s.nt := rfl
@[simp] theorem errorEntry_scratch (c : ErrCode) (s : State) : (errorEntry c s).scratch = s.scratch := rfl
@[simp] theorem errorEntry_lastTile (c : ErrCode) (s : State) : (errorEntry c s).lastTile = s.lastTile := rfl
@[simp] theorem errorEntry_mem (c : ErrCode) (s : State) : (errorEntry c s).mem = s.mem := rfl
@[simp] theorem errorEntry_params (c : ErrCode) (s : State) : (errorEntry c s).params = s.params := rfl
@[simp] theorem errorEntry_events (c : ErrCode) (s : State) : (errorEntry c s).events = s.events := rfl
@[simp] theorem errorEntry_rx (c : ErrCode) (s : State) : (errorEntry c s).rx = s.rx := rfl
@[simp] theorem errorEntry_race (c : ErrCode) (s : State) : (errorEntry c s).race = s.race := rfl
@[simp] theorem errorEntry_unseen (c : ErrCode) (s : State) : (errorEntry c s).unseen = s.unseen := rfl
@[simp] theorem errorEntry_draws (c : ErrCode) (s : State) : (errorEntry c s).draws = s.draws := rfl

@[simp] theorem clearStatus_cmd (s : State) : (clearStatus s).cmd = s.cmd := rfl
@[simp] theorem clearStatus_status (s : State) : (clearStatus s).status = .idle := rfl
@[simp] theorem clearStatus_srcLo (s : State) : (clearStatus s).srcLo = s.srcLo := rfl
@[simp] theorem clearStatus_srcHi (s : State) : (clearStatus s).srcHi = s.srcHi := rfl
@[simp] theorem clearStatus_dstLo (s : State) : (clearStatus s).dstLo = s.dstLo := rfl
@[simp] theorem clearStatus_dstHi (s : State) : (clearStatus s).dstHi = s.dstHi := rfl
@[simp] theorem clearStatus_width (s : State) : (clearStatus s).width = s.width := rfl
@[simp] theorem clearStatus_height (s : State) : (clearStatus s).height = s.height := rfl
@[simp] theorem clearStatus_depth (s : State) : (clearStatus s).depth = s.depth := rfl
@[simp] theorem clearStatus_tc (s : State) : (clearStatus s).tc = s.tc := rfl
@[simp] theorem clearStatus_nt (s : State) : (clearStatus s).nt = s.nt := rfl
@[simp] theorem clearStatus_scratch (s : State) : (clearStatus s).scratch = s.scratch := rfl
@[simp] theorem clearStatus_lastTile (s : State) : (clearStatus s).lastTile = s.lastTile := rfl
@[simp] theorem clearStatus_mem (s : State) : (clearStatus s).mem = s.mem := rfl
@[simp] theorem clearStatus_params (s : State) : (clearStatus s).params = s.params := rfl
@[simp] theorem clearStatus_events (s : State) : (clearStatus s).events = s.events := rfl
@[simp] theorem clearStatus_rx (s : State) : (clearStatus s).rx = s.rx := rfl
@[simp] theorem clearStatus_race (s : State) : (clearStatus s).race = s.race := rfl
@[simp] theorem clearStatus_unseen (s : State) : (clearStatus s).unseen = s.unseen := rfl
@[simp] theorem clearStatus_draws (s : State) : (clearStatus s).draws = s.draws := rfl

@[simp] theorem older_last (u : Unseen) : u.older.last = [] := rfl
@[simp] theorem older_earlier (u : Unseen) : u.older.earlier = u.last ++ u.earlier := rfl
@[simp] theorem older_values (u : Unseen) (a : Nat) : u.older.values a = u.values a := rfl
@[simp] theorem older_left (u : Unseen) : u.older.left = u.left := rfl
@[simp] theorem seen_last (u : Unseen) : u.seen.last = [] := rfl
@[simp] theorem seen_earlier (u : Unseen) : u.seen.earlier = u.earlier := rfl
@[simp] theorem seen_left (u : Unseen) : u.seen.left = u.left := rfl
@[simp] theorem written_last (u : Unseen) (a : Nat) (w : Byte) : (u.written a w).last = u.last := rfl
@[simp] theorem written_earlier (u : Unseen) (a : Nat) (w : Byte) : (u.written a w).earlier = u.earlier := rfl
@[simp] theorem written_coming (u : Unseen) (a : Nat) (w : Byte) (b : Nat) : (u.written a w).coming b = u.coming b := rfl

@[simp] theorem startEmpty_cmd (s : State) : (startEmpty s).cmd = s.cmd := rfl
@[simp] theorem startEmpty_status (s : State) : (startEmpty s).status = .done := rfl
@[simp] theorem startEmpty_srcLo (s : State) : (startEmpty s).srcLo = s.srcLo := rfl
@[simp] theorem startEmpty_srcHi (s : State) : (startEmpty s).srcHi = s.srcHi := rfl
@[simp] theorem startEmpty_dstLo (s : State) : (startEmpty s).dstLo = s.dstLo := rfl
@[simp] theorem startEmpty_dstHi (s : State) : (startEmpty s).dstHi = s.dstHi := rfl
@[simp] theorem startEmpty_width (s : State) : (startEmpty s).width = s.width := rfl
@[simp] theorem startEmpty_height (s : State) : (startEmpty s).height = s.height := rfl
@[simp] theorem startEmpty_depth (s : State) : (startEmpty s).depth = s.depth := rfl
@[simp] theorem startEmpty_tc (s : State) : (startEmpty s).tc = 0 := rfl
@[simp] theorem startEmpty_nt (s : State) : (startEmpty s).nt = 0 := rfl
@[simp] theorem startEmpty_scratch (s : State) : (startEmpty s).scratch = s.scratch := rfl
@[simp] theorem startEmpty_lastTile (s : State) : (startEmpty s).lastTile = s.lastTile := rfl
@[simp] theorem startEmpty_mem (s : State) : (startEmpty s).mem = s.mem := rfl
@[simp] theorem startEmpty_params (s : State) : (startEmpty s).params = s.params := rfl
@[simp] theorem startEmpty_events (s : State) : (startEmpty s).events = s.events := rfl
@[simp] theorem startEmpty_rx (s : State) : (startEmpty s).rx = s.rx := rfl
@[simp] theorem startEmpty_race (s : State) : (startEmpty s).race = Race.none := rfl
@[simp] theorem startEmpty_unseen (s : State) : (startEmpty s).unseen = s.unseen.older := rfl
@[simp] theorem startEmpty_draws (s : State) : (startEmpty s).draws = s.draws := rfl

@[simp] theorem startTiles_cmd (i : Instr) (s : State) : (startTiles i s).cmd = s.cmd := rfl
@[simp] theorem startTiles_status (i : Instr) (s : State) : (startTiles i s).status = .busy := rfl
@[simp] theorem startTiles_srcLo (i : Instr) (s : State) : (startTiles i s).srcLo = s.srcLo := rfl
@[simp] theorem startTiles_srcHi (i : Instr) (s : State) : (startTiles i s).srcHi = s.srcHi := rfl
@[simp] theorem startTiles_dstLo (i : Instr) (s : State) : (startTiles i s).dstLo = s.dstLo := rfl
@[simp] theorem startTiles_dstHi (i : Instr) (s : State) : (startTiles i s).dstHi = s.dstHi := rfl
@[simp] theorem startTiles_width (i : Instr) (s : State) : (startTiles i s).width = s.width := rfl
@[simp] theorem startTiles_height (i : Instr) (s : State) : (startTiles i s).height = s.height := rfl
@[simp] theorem startTiles_depth (i : Instr) (s : State) : (startTiles i s).depth = s.depth := rfl
@[simp] theorem startTiles_tc (i : Instr) (s : State) : (startTiles i s).tc = 0 := rfl
@[simp] theorem startTiles_nt (i : Instr) (s : State) : (startTiles i s).nt = tilesOf i s := rfl
@[simp] theorem startTiles_scratch (i : Instr) (s : State) : (startTiles i s).scratch = s.scratch := rfl
@[simp] theorem startTiles_lastTile (i : Instr) (s : State) : (startTiles i s).lastTile = s.lastTile := rfl
@[simp] theorem startTiles_mem (i : Instr) (s : State) : (startTiles i s).mem = s.mem := rfl
@[simp] theorem startTiles_params (i : Instr) (s : State) : (startTiles i s).params = s.params := rfl
@[simp] theorem startTiles_events (i : Instr) (s : State) : (startTiles i s).events = s.events := rfl
@[simp] theorem startTiles_rx (i : Instr) (s : State) : (startTiles i s).rx = s.rx := rfl
@[simp] theorem startTiles_race (i : Instr) (s : State) : (startTiles i s).race = ⟨s.mem, sourceUnstable i s, []⟩ := rfl
@[simp] theorem startTiles_unseen (i : Instr) (s : State) : (startTiles i s).unseen = s.unseen.older := rfl
@[simp] theorem startTiles_draws (i : Instr) (s : State) : (startTiles i s).draws = s.draws := rfl

@[simp] theorem afterTile_cmd (e : TileEffect) (s : State) : (afterTile e s).cmd = s.cmd := rfl
@[simp] theorem afterTile_status (e : TileEffect) (s : State) : (afterTile e s).status = s.status := rfl
@[simp] theorem afterTile_srcLo (e : TileEffect) (s : State) : (afterTile e s).srcLo = s.srcLo := rfl
@[simp] theorem afterTile_srcHi (e : TileEffect) (s : State) : (afterTile e s).srcHi = s.srcHi := rfl
@[simp] theorem afterTile_dstLo (e : TileEffect) (s : State) : (afterTile e s).dstLo = s.dstLo := rfl
@[simp] theorem afterTile_dstHi (e : TileEffect) (s : State) : (afterTile e s).dstHi = s.dstHi := rfl
@[simp] theorem afterTile_width (e : TileEffect) (s : State) : (afterTile e s).width = s.width := rfl
@[simp] theorem afterTile_height (e : TileEffect) (s : State) : (afterTile e s).height = s.height := rfl
@[simp] theorem afterTile_depth (e : TileEffect) (s : State) : (afterTile e s).depth = s.depth := rfl
@[simp] theorem afterTile_tc (e : TileEffect) (s : State) : (afterTile e s).tc = s.tc + 1 := rfl
@[simp] theorem afterTile_nt (e : TileEffect) (s : State) : (afterTile e s).nt = s.nt := rfl
@[simp] theorem afterTile_scratch (e : TileEffect) (s : State) : (afterTile e s).scratch = Config.drawScratch s.draws := rfl
@[simp] theorem afterTile_lastTile (e : TileEffect) (s : State) : (afterTile e s).lastTile = e.scratch := rfl
@[simp] theorem afterTile_mem (e : TileEffect) (s : State) : (afterTile e s).mem = Memory.writes s.mem e.writes := rfl
@[simp] theorem afterTile_params (e : TileEffect) (s : State) : (afterTile e s).params = s.params := rfl
@[simp] theorem afterTile_events (e : TileEffect) (s : State) : (afterTile e s).events = s.events := rfl
@[simp] theorem afterTile_rx (e : TileEffect) (s : State) : (afterTile e s).rx = s.rx := rfl
@[simp] theorem afterTile_race (e : TileEffect) (s : State) : (afterTile e s).race = s.race := rfl
@[simp] theorem afterTile_unseen (e : TileEffect) (s : State) : (afterTile e s).unseen = s.unseen := rfl
@[simp] theorem afterTile_draws (e : TileEffect) (s : State) : (afterTile e s).draws = s.draws + 1 := rfl

@[simp] theorem complete_cmd (i : Instr) (s : State) : (complete i s).cmd = s.cmd := rfl
@[simp] theorem complete_status (i : Instr) (s : State) : (complete i s).status = .done := rfl
@[simp] theorem complete_srcLo (i : Instr) (s : State) : (complete i s).srcLo = s.srcLo := rfl
@[simp] theorem complete_srcHi (i : Instr) (s : State) : (complete i s).srcHi = s.srcHi := rfl
@[simp] theorem complete_dstLo (i : Instr) (s : State) : (complete i s).dstLo = s.dstLo := rfl
@[simp] theorem complete_dstHi (i : Instr) (s : State) : (complete i s).dstHi = s.dstHi := rfl
@[simp] theorem complete_width (i : Instr) (s : State) : (complete i s).width = s.width := rfl
@[simp] theorem complete_height (i : Instr) (s : State) : (complete i s).height = s.height := rfl
@[simp] theorem complete_depth (i : Instr) (s : State) : (complete i s).depth = s.depth := rfl
@[simp] theorem complete_tc (i : Instr) (s : State) : (complete i s).tc = s.tc := rfl
@[simp] theorem complete_nt (i : Instr) (s : State) : (complete i s).nt = s.nt := rfl
@[simp] theorem complete_scratch (i : Instr) (s : State) : (complete i s).scratch = s.scratch := rfl
@[simp] theorem complete_lastTile (i : Instr) (s : State) : (complete i s).lastTile = s.lastTile := rfl
@[simp] theorem complete_mem (i : Instr) (s : State) : (complete i s).mem = Memory.writes s.mem (admittedCells s.params (settleCells i s)) := rfl
@[simp] theorem complete_params (i : Instr) (s : State) : (complete i s).params = s.params := rfl
@[simp] theorem complete_events (i : Instr) (s : State) : (complete i s).events = s.events := rfl
@[simp] theorem complete_rx (i : Instr) (s : State) : (complete i s).rx = s.rx := rfl
@[simp] theorem complete_race (i : Instr) (s : State) : (complete i s).race = Race.none := rfl
@[simp] theorem complete_unseen (i : Instr) (s : State) : (complete i s).unseen = completeUnseen i s := rfl
@[simp] theorem complete_draws (i : Instr) (s : State) : (complete i s).draws = s.draws + settleDraws i s := rfl

@[simp] theorem hostReadReg_cmd (r : Fin 16) (s : State) : (hostReadReg r s).cmd = s.cmd := rfl
@[simp] theorem hostReadReg_status (r : Fin 16) (s : State) : (hostReadReg r s).status = s.status := rfl
@[simp] theorem hostReadReg_srcLo (r : Fin 16) (s : State) : (hostReadReg r s).srcLo = s.srcLo := rfl
@[simp] theorem hostReadReg_srcHi (r : Fin 16) (s : State) : (hostReadReg r s).srcHi = s.srcHi := rfl
@[simp] theorem hostReadReg_dstLo (r : Fin 16) (s : State) : (hostReadReg r s).dstLo = s.dstLo := rfl
@[simp] theorem hostReadReg_dstHi (r : Fin 16) (s : State) : (hostReadReg r s).dstHi = s.dstHi := rfl
@[simp] theorem hostReadReg_width (r : Fin 16) (s : State) : (hostReadReg r s).width = s.width := rfl
@[simp] theorem hostReadReg_height (r : Fin 16) (s : State) : (hostReadReg r s).height = s.height := rfl
@[simp] theorem hostReadReg_depth (r : Fin 16) (s : State) : (hostReadReg r s).depth = s.depth := rfl
@[simp] theorem hostReadReg_tc (r : Fin 16) (s : State) : (hostReadReg r s).tc = s.tc := rfl
@[simp] theorem hostReadReg_nt (r : Fin 16) (s : State) : (hostReadReg r s).nt = s.nt := rfl
@[simp] theorem hostReadReg_scratch (r : Fin 16) (s : State) : (hostReadReg r s).scratch = s.scratch := rfl
@[simp] theorem hostReadReg_lastTile (r : Fin 16) (s : State) : (hostReadReg r s).lastTile = s.lastTile := rfl
@[simp] theorem hostReadReg_mem (r : Fin 16) (s : State) : (hostReadReg r s).mem = s.mem := rfl
@[simp] theorem hostReadReg_params (r : Fin 16) (s : State) : (hostReadReg r s).params = s.params := rfl
@[simp] theorem hostReadReg_events (r : Fin 16) (s : State) : (hostReadReg r s).events = s.events := rfl
@[simp] theorem hostReadReg_rx (r : Fin 16) (s : State) : (hostReadReg r s).rx = .word (readReg r s) := rfl
@[simp] theorem hostReadReg_race (r : Fin 16) (s : State) : (hostReadReg r s).race = s.race := rfl
@[simp] theorem hostReadReg_unseen (r : Fin 16) (s : State) :
    (hostReadReg r s).unseen = if r = 1 ∧ s.status = .done then s.unseen.seen else s.unseen := rfl
@[simp] theorem hostReadReg_draws (r : Fin 16) (s : State) : (hostReadReg r s).draws = s.draws := rfl

@[simp] theorem plainWrite_cmd (s : State) (a : Nat) (v : Byte) : (plainWrite s a v).cmd = s.cmd := rfl
@[simp] theorem plainWrite_status (s : State) (a : Nat) (v : Byte) : (plainWrite s a v).status = s.status := rfl
@[simp] theorem plainWrite_srcLo (s : State) (a : Nat) (v : Byte) : (plainWrite s a v).srcLo = s.srcLo := rfl
@[simp] theorem plainWrite_srcHi (s : State) (a : Nat) (v : Byte) : (plainWrite s a v).srcHi = s.srcHi := rfl
@[simp] theorem plainWrite_dstLo (s : State) (a : Nat) (v : Byte) : (plainWrite s a v).dstLo = s.dstLo := rfl
@[simp] theorem plainWrite_dstHi (s : State) (a : Nat) (v : Byte) : (plainWrite s a v).dstHi = s.dstHi := rfl
@[simp] theorem plainWrite_width (s : State) (a : Nat) (v : Byte) : (plainWrite s a v).width = s.width := rfl
@[simp] theorem plainWrite_height (s : State) (a : Nat) (v : Byte) : (plainWrite s a v).height = s.height := rfl
@[simp] theorem plainWrite_depth (s : State) (a : Nat) (v : Byte) : (plainWrite s a v).depth = s.depth := rfl
@[simp] theorem plainWrite_tc (s : State) (a : Nat) (v : Byte) : (plainWrite s a v).tc = s.tc := rfl
@[simp] theorem plainWrite_nt (s : State) (a : Nat) (v : Byte) : (plainWrite s a v).nt = s.nt := rfl
@[simp] theorem plainWrite_scratch (s : State) (a : Nat) (v : Byte) : (plainWrite s a v).scratch = s.scratch := rfl
@[simp] theorem plainWrite_lastTile (s : State) (a : Nat) (v : Byte) : (plainWrite s a v).lastTile = s.lastTile := rfl
@[simp] theorem plainWrite_params (s : State) (a : Nat) (v : Byte) : (plainWrite s a v).params = s.params := rfl
@[simp] theorem plainWrite_events (s : State) (a : Nat) (v : Byte) : (plainWrite s a v).events = s.events := rfl
@[simp] theorem plainWrite_rx (s : State) (a : Nat) (v : Byte) : (plainWrite s a v).rx = s.rx := rfl
@[simp] theorem plainWrite_race (s : State) (a : Nat) (v : Byte) : (plainWrite s a v).race = s.race := rfl
@[simp] theorem plainWrite_mem (s : State) (a : Nat) (v : Byte) : (plainWrite s a v).mem = Memory.write s.mem a v := rfl
@[simp] theorem plainWrite_unseen (s : State) (a : Nat) (v : Byte) :
    (plainWrite s a v).unseen = s.unseen.written a (Memory.read s.mem a) := rfl
@[simp] theorem plainWrite_draws (s : State) (a : Nat) (v : Byte) : (plainWrite s a v).draws = s.draws := rfl

@[simp] theorem resetEngine_cmd (s : State) : (resetEngine s).cmd = 0 := rfl
@[simp] theorem resetEngine_status (s : State) : (resetEngine s).status = .idle := rfl
@[simp] theorem resetEngine_srcLo (s : State) : (resetEngine s).srcLo = 0 := rfl
@[simp] theorem resetEngine_srcHi (s : State) : (resetEngine s).srcHi = 0 := rfl
@[simp] theorem resetEngine_dstLo (s : State) : (resetEngine s).dstLo = 0 := rfl
@[simp] theorem resetEngine_dstHi (s : State) : (resetEngine s).dstHi = 0 := rfl
@[simp] theorem resetEngine_width (s : State) : (resetEngine s).width = 0 := rfl
@[simp] theorem resetEngine_height (s : State) : (resetEngine s).height = 0 := rfl
@[simp] theorem resetEngine_depth (s : State) : (resetEngine s).depth = 0 := rfl
@[simp] theorem resetEngine_tc (s : State) : (resetEngine s).tc = 0 := rfl
@[simp] theorem resetEngine_nt (s : State) : (resetEngine s).nt = 0 := rfl
@[simp] theorem resetEngine_scratch (s : State) : (resetEngine s).scratch = Config.drawScratch (s.draws + (resetDraws s - 1)) := rfl
@[simp] theorem resetEngine_lastTile (s : State) : (resetEngine s).lastTile = s.lastTile := rfl
@[simp] theorem resetEngine_mem (s : State) : (resetEngine s).mem = resetMem s := rfl
@[simp] theorem resetEngine_params (s : State) : (resetEngine s).params = s.params := rfl
@[simp] theorem resetEngine_events (s : State) : (resetEngine s).events = s.events := rfl
@[simp] theorem resetEngine_rx (s : State) : (resetEngine s).rx = s.rx := rfl
@[simp] theorem resetEngine_race (s : State) : (resetEngine s).race = Race.none := rfl
@[simp] theorem resetEngine_unseen (s : State) : (resetEngine s).unseen = resetUnseen s := rfl
@[simp] theorem resetEngine_draws (s : State) : (resetEngine s).draws = s.draws + resetDraws s := rfl

end Sys2Proof.Machine
end

