-- ==== Sys2Proof/Laws/Tile.lean ====
section
/-! SUPPORT. What starting a command, taking a tile and exec can do, said once each. -/

namespace Sys2Proof.Machine

/-! ## What depends on the operands alone (R103) -/

theorem srcAddr_congr {s t : State} (h : sameOperands s t) : srcAddr t = srcAddr s := by
  simp only [sameOperands] at h; simp only [srcAddr, h]

theorem dstAddr_congr {s t : State} (h : sameOperands s t) : dstAddr t = dstAddr s := by
  simp only [sameOperands] at h; simp only [dstAddr, h]

theorem srcLen_congr (i : Instr) {s t : State} (h : sameOperands s t) : srcLen i t = srcLen i s := by
  simp only [sameOperands] at h
  unfold srcLen
  cases kindOf i <;> simp only [opW, opH, opD, h]

theorem dstLen_congr (i : Instr) {s t : State} (h : sameOperands s t) : dstLen i t = dstLen i s := by
  simp only [sameOperands] at h
  unfold dstLen
  cases kindOf i <;> simp only [blocksW, blocksH, opW, opH, opD, h]

theorem tilesOf_congr (i : Instr) {s t : State} (h : sameOperands s t) : tilesOf i t = tilesOf i s := by
  simp only [sameOperands] at h
  unfold tilesOf
  cases kindOf i <;> simp only [encTiles, decTiles, wordsX, wordsY, blocksW, blocksH, opW, opH, opD, h]

theorem startChecks_congr (i : Instr) {s t : State} (h : sameOperands s t) : startChecks i t = startChecks i s := by
  have h1 := srcAddr_congr h
  have h2 := dstAddr_congr h
  have h3 := srcLen_congr i h
  have h4 := dstLen_congr i h
  simp only [sameOperands] at h
  unfold startChecks checkRegions
  rw [h1, h2, h3, h4]
  cases kindOf i with
  | dec b => simp only [opW, opH, h]; rfl
  | _ => rfl

theorem inSource_congr (i : Instr) {s t : State} (h : sameOperands s t) (a : Nat) : inSource i t a = inSource i s a := by
  unfold inSource; rw [srcAddr_congr h, srcLen_congr i h]

theorem inDest_congr (i : Instr) {s t : State} (h : sameOperands s t) (a : Nat) : inDest i t a = inDest i s a := by
  unfold inDest; rw [dstAddr_congr h, dstLen_congr i h]

/-! ## exec -/

/-- The meaning of every command other than CLR is `runCommand` with the command's own tile. -/
theorem exec_eq_runCommand {i : Instr} (hi : i ≠ .clr) (s : State) : exec i s = runCommand i (nextTile i) s := by
  cases i <;> first | exact absurd rfl hi | rfl

theorem exec_clr (s : State) : exec .clr s = if s.status = .busy then .next s else .next (clearStatus s) := rfl

/-- A command written while no command runs starts. -/
theorem exec_start {i : Instr} (hi : i ≠ .clr) {s : State} (h : s.status ≠ .busy) :
    exec i s = .next (commandStart i s) := by
  simp [exec_eq_runCommand hi, runCommand, h]

/-- The running command takes its next tile. -/
theorem exec_running {i : Instr} (hi : i ≠ .clr) {s : State} (h : Running i s) :
    exec i s = .next (engineStep i (nextTile i s) s) := by
  simp [exec_eq_runCommand hi, runCommand, h.1, h.2]

/-- Every instruction goes on from every state. -/
theorem exec_continues (i : Instr) (s : State) : ∃ t, exec i s = .next t := by
  by_cases hi : i = .clr
  · subst hi
    rw [exec_clr]
    split <;> exact ⟨_, rfl⟩
  · rw [exec_eq_runCommand hi, runCommand]
    split
    · split <;> exact ⟨_, rfl⟩
    · exact ⟨_, rfl⟩

/-- What `exec` can answer: the five cases of a command. -/
theorem exec_cases {i : Instr} {s t : State} (h : exec i s = .next t) :
    (s.status ≠ .busy ∧ i = .clr ∧ t = clearStatus s) ∨
    (s.status ≠ .busy ∧ i ≠ .clr ∧ t = commandStart i s) ∨
    (Running i s ∧ i ≠ .clr ∧ t = engineStep i (nextTile i s) s) ∨
    (s.status = .busy ∧ t = s) := by
  by_cases hb : s.status = .busy
  · by_cases hi : i = .clr
    · subst hi
      rw [exec_clr, if_pos hb] at h
      exact .inr (.inr (.inr ⟨hb, by injection h with h; exact h.symm⟩))
    · by_cases hc : s.cmd = encode i
      · rw [exec_running hi ⟨hb, hc⟩] at h
        exact .inr (.inr (.inl ⟨⟨hb, hc⟩, hi, by injection h with h; exact h.symm⟩))
      · rw [exec_eq_runCommand hi, runCommand, if_pos hb, if_neg hc] at h
        exact .inr (.inr (.inr ⟨hb, by injection h with h; exact h.symm⟩))
  · by_cases hi : i = .clr
    · subst hi
      rw [exec_clr, if_neg hb] at h
      exact .inl ⟨hb, rfl, by injection h with h; exact h.symm⟩
    · rw [exec_start hi hb] at h
      exact .inr (.inl ⟨hb, hi, by injection h with h; exact h.symm⟩)

/-- What a start can do: the error entry, DONE at once, or BUSY with TC = 0. -/
theorem commandStart_cases (i : Instr) (s : State) :
    (∃ c, startChecks i s = some c ∧ commandStart i s = errorEntry c s) ∨
    (startChecks i s = none ∧ tilesOf i s = 0 ∧
      commandStart i s = startEmpty s) ∨
    (startChecks i s = none ∧ tilesOf i s ≠ 0 ∧
      commandStart i s = startTiles i s) := by
  unfold commandStart
  cases hc : startChecks i s with
  | some c => exact .inl ⟨c, rfl, rfl⟩
  | none =>
    by_cases ht : tilesOf i s = 0
    · exact .inr (.inl ⟨rfl, ht, by simp [startRun, ht]⟩)
    · exact .inr (.inr ⟨rfl, ht, by simp [startRun, ht]⟩)

theorem takeTile_eq_some {e : TileEffect} {s t : State} (h : takeTile e s = some t) :
    tileAdmitted s.params e = true ∧ t = afterTile e s := by
  unfold takeTile at h
  split at h
  · exact ⟨‹_›, by injection h with h; exact h.symm⟩
  · cases h

/-- Every byte an admitted tile writes lies in the address space. -/
theorem tileAdmitted_writes_lt {p : Params} {e : TileEffect} (h : tileAdmitted p e = true) :
    ∀ c ∈ e.writes, c.1 < 2 ^ 64 := by
  simp only [tileAdmitted, Bool.and_eq_true, List.all_eq_true] at h
  exact fun c hc => engineAdmits_lt (h.2 c hc)

/-- What an engine step can do: nothing (not enabled, or stuck), one tile, or the last tile and completion. -/
theorem engineStep_cases (i : Instr) (e : TileEffect) (s : State) :
    (engineStep i e s = s ∧ (s.nt ≤ s.tc ∨ tileAdmitted s.params e = false)) ∨
    (s.tc < s.nt ∧ tileAdmitted s.params e = true ∧ s.tc + 1 ≠ s.nt ∧
      engineStep i e s = afterTile e s) ∨
    (s.tc < s.nt ∧ tileAdmitted s.params e = true ∧ s.tc + 1 = s.nt ∧
      engineStep i e s = complete i (afterTile e s)) := by
  unfold engineStep
  by_cases ht : s.tc < s.nt
  · cases ha : tileAdmitted s.params e with
    | false => exact .inl ⟨by simp [takeTile, ha, ht], .inr rfl⟩
    | true =>
      by_cases hl : s.tc + 1 = s.nt
      · exact .inr (.inr ⟨ht, rfl, hl, by simp [takeTile, ha, ht, finishTile, hl]⟩)
      · exact .inr (.inl ⟨ht, rfl, hl, by simp [takeTile, ha, ht, finishTile, hl]⟩)
  · exact .inl ⟨by simp [ht], .inl (Nat.le_of_not_lt ht)⟩

/-- Settling the races keeps the canonical form. -/
theorem settle_wf (i : Instr) {s : State} (h : Memory.wf s.mem) :
    Memory.wf (Memory.writes s.mem (admittedCells s.params (settleCells i s))) :=
  Memory.writes_wf h fun _ hc => engineAdmits_lt (mem_admittedCells.1 hc).2

/-- A command no race has touched has nothing to settle. -/
theorem settleCells_raceFree (i : Instr) {s : State} (h : RaceFree s) : settleCells i s = [] := by
  simp [settleCells, h.1, h.2]

theorem settleDraws_raceFree (i : Instr) {s : State} (h : RaceFree s) : settleDraws i s = 0 := by
  simp [settleDraws, h.1, h.2]

/-- An engine step keeps the canonical form. -/
theorem engineStep_wf (i : Instr) (e : TileEffect) {s : State} (h : Memory.wf s.mem) :
    Memory.wf (engineStep i e s).mem := by
  obtain ⟨he, -⟩ | ⟨-, ha, -, he⟩ | ⟨-, ha, -, he⟩ := engineStep_cases i e s
  · rw [he]; exact h
  · rw [he]; exact Memory.writes_wf h (tileAdmitted_writes_lt ha)
  · rw [he]
    exact settle_wf i (s := afterTile e s) (Memory.writes_wf h (tileAdmitted_writes_lt ha))

/-- An engine step changes only STATUS, TC, the scratch, memory and the model's own race and draw fields. -/
theorem engineStep_frame (i : Instr) (e : TileEffect) (s : State) :
    sameOperands s (engineStep i e s) ∧ sameHostSide s (engineStep i e s) ∧ (engineStep i e s).nt = s.nt := by
  obtain ⟨he, -⟩ | ⟨-, -, -, he⟩ | ⟨-, -, -, he⟩ := engineStep_cases i e s <;> rw [he] <;>
    simp [sameOperands, sameHostSide]

/-- A start changes only STATUS, TC, NT and the model's own race field. -/
theorem commandStart_frame (i : Instr) (s : State) :
    sameOperands s (commandStart i s) ∧ sameHostSide s (commandStart i s) ∧ (commandStart i s).mem = s.mem ∧
      (commandStart i s).scratch = s.scratch ∧ (commandStart i s).draws = s.draws := by
  obtain ⟨_, -, he⟩ | ⟨-, -, he⟩ | ⟨-, -, he⟩ := commandStart_cases i s <;> rw [he] <;>
    simp [sameOperands, sameHostSide]

/-- `exec` never touches the host's side nor the command's operands. -/
theorem exec_frame {i : Instr} {s t : State} (h : exec i s = .next t) : sameOperands s t ∧ sameHostSide s t := by
  obtain ⟨-, -, rfl⟩ | ⟨-, -, rfl⟩ | ⟨-, -, rfl⟩ | ⟨-, rfl⟩ := exec_cases h
  · simp [sameOperands, sameHostSide]
  · exact ⟨(commandStart_frame i s).1, (commandStart_frame i s).2.1⟩
  · exact ⟨(engineStep_frame i _ s).1, (engineStep_frame i _ s).2.1⟩
  · simp [sameOperands, sameHostSide]

/-- `exec` keeps the canonical form. -/
theorem exec_wf {i : Instr} {s t : State} (h : exec i s = .next t) (hw : Memory.wf s.mem) : Memory.wf t.mem := by
  obtain ⟨-, -, rfl⟩ | ⟨-, -, rfl⟩ | ⟨-, -, rfl⟩ | ⟨-, rfl⟩ := exec_cases h
  · exact hw
  · rw [(commandStart_frame i s).2.2.1]; exact hw
  · exact engineStep_wf i _ hw
  · exact hw

/-- The one lemma of a completed tile: on a ready command whose races, if this is its last tile, are none, `exec` takes the tile. -/
theorem exec_tileReady {i : Instr} (hi : i ≠ .clr) {s : State} (h : TileReady i s) (hr : s.tc + 1 = s.nt → RaceFree s) :
    ∃ t, exec i s = .next t ∧ t.mem = Memory.writes s.mem (nextTile i s).writes ∧ t.lastTile = (nextTile i s).scratch ∧
      TileTaken s t ∧ (RaceFree s → RaceFree t) := by
  obtain ⟨hrun, htc, hadm⟩ := h
  have hf := engineStep_frame i (nextTile i s) s
  refine ⟨_, exec_running hi hrun, ?_⟩
  obtain ⟨-, hn | hn⟩ | ⟨-, -, hl, he⟩ | ⟨-, -, hl, he⟩ := engineStep_cases i (nextTile i s) s
  · omega
  · simp [hadm] at hn
  · rw [he] at hf ⊢
    exact ⟨rfl, rfl, ⟨rfl, by simpa [hl] using hrun.1, rfl, rfl, rfl, hf.1, hf.2.1, fun _ => id, fun _ => id, fun _ => ⟨rfl, rfl⟩⟩, id⟩
  · have hr' : RaceFree (afterTile (nextTile i s) s) := hr hl
    rw [he] at hf ⊢
    refine ⟨?_, rfl, ⟨rfl, by simp [hl], rfl, ?_, rfl, hf.1, hf.2.1, fun _ => List.mem_of_mem_filter, fun _ => List.mem_of_mem_filter,
      fun h => absurd hl h⟩, fun _ => ⟨rfl, rfl⟩⟩
    · rw [complete_mem, settleCells_raceFree i hr']; rfl
    · rw [complete_draws, settleDraws_raceFree i hr']; rfl

/-! ## The tile of an encode command -/

theorem nextTile_enc {i : Instr} {f : Fmt} {q : Quality} (hk : kindOf i = .enc f q) (s : State) :
    nextTile i s = encodeTile f q s := by
  simp [nextTile, hk]

theorem nextTile_dec {i : Instr} {b : Bpp} (hk : kindOf i = .dec b) (s : State) : nextTile i s = decodeTile b s := by
  simp [nextTile, hk]

/-- The one lemma of an encode tile: the block's bytes at its address, no other byte, and the scratch it records. -/
theorem exec_encodeTile {i : Instr} {f : Fmt} {q : Quality} (hk : kindOf i = .enc f q) {s : State} (h : TileReady i s)
    (hr : s.tc + 1 = s.nt → RaceFree s) (hw : Memory.wf s.mem) :
    ∃ t, exec i s = .next t ∧ BytesAt t.mem (blockAddr f s) (encodedScratch f q s).outb ∧
      SameOutside s t (blockAddr f s) (blockSize f) ∧ TileTaken s t ∧
      t.lastTile = { s.scratch with enc := encodedScratch f q s } := by
  have hi : i ≠ .clr := by rintro rfl; simp [kindOf] at hk
  obtain ⟨t, he, hm, hs, ht, -⟩ := exec_tileReady hi h hr
  rw [nextTile_enc hk] at hm hs
  have hlt := tileAdmitted_writes_lt h.2.2
  rw [nextTile_enc hk] at hlt
  refine ⟨t, he, fun k b hb => ?_, fun a ha => ?_, ht, hs⟩
  · rw [hm]
    exact Memory.read_writes_cellsAt hw hlt hb
  · rw [hm]
    refine Memory.read_writes_cellsAt_other hw hlt ?_
    rw [encodedScratch, encodeBlock_outb_length]
    exact ha

end Sys2Proof.Machine
end

