-- ==== Sys2Proof/Laws/Pvrtc.lean ====
section
/-! SUPPORT. The geometry of a decode command: the places of a tile's pixels in the image and the cells it writes. -/

namespace Sys2Proof.Machine

theorem isPow2_iff (v : Nat) : isPow2 v = true ↔ ∃ k, v = 2 ^ k := by
  unfold isPow2
  simp only [Bool.and_eq_true, decide_eq_true_eq, beq_iff_eq]
  constructor
  · intro h
    obtain ⟨k, hk⟩ := (Nat.and_sub_one_eq_zero_iff_isPowerOfTwo (n := v) (by omega)).1 h.2
    exact ⟨k, hk⟩
  · rintro ⟨k, rfl⟩
    exact ⟨Nat.one_le_two_pow, (Nat.and_sub_one_eq_zero_iff_isPowerOfTwo (by positivity)).2 ⟨k, rfl⟩⟩

/-- What passed checks say of a decode command's dimensions (R364). -/
theorem startChecks_dec_none {i : Instr} {b : Bpp} {s : State} (hk : kindOf i = .dec b) (hc : startChecks i s = none) :
    (∃ k, opW s = 2 ^ k) ∧ (∃ k, opH s = 2 ^ k) ∧ minW b ≤ opW s ∧ minH b ≤ opH s ∧ checkRegions i s = none := by
  simp only [startChecks, hk] at hc
  split at hc
  · rename_i h
    rw [Bool.and_eq_true, isPow2_iff, isPow2_iff] at h
    split at hc
    · cases hc
    · exact ⟨h.1, h.2, by omega, by omega, hc⟩
  · cases hc

/-- A power of two of at least WW columns is a whole number of words, itself a power of two. -/
theorem wordsX_pow2 {b : Bpp} {s : State} (h : ∃ k, opW s = 2 ^ k) (hm : minW b ≤ opW s) :
    (∃ m, wordsX b s = 2 ^ m) ∧ opW s = wordsX b s * ww b ∧ 2 ≤ wordsX b s := by
  obtain ⟨k, hk⟩ := h
  cases b
  · have h4 : 4 ≤ k := by
      by_contra hc
      have : 2 ^ k ≤ 2 ^ 3 := Nat.pow_le_pow_right (by decide) (by omega)
      simp [minW] at hm; omega
    obtain ⟨d, rfl⟩ := Nat.exists_eq_add_of_le h4
    have hp : 2 ^ (4 + d) = 2 ^ (d + 1) * 8 := by rw [Nat.add_comm 4 d, Nat.pow_add, Nat.pow_succ]; ring
    have h1 : 1 ≤ 2 ^ d := Nat.one_le_two_pow
    have hx : wordsX .two s = 2 ^ (d + 1) := by simp [wordsX, ww, hk, hp]
    exact ⟨⟨_, hx⟩, by rw [hx, hk, hp, ww], by rw [hx, Nat.pow_succ]; omega⟩
  · have h3 : 3 ≤ k := by
      by_contra hc
      have : 2 ^ k ≤ 2 ^ 2 := Nat.pow_le_pow_right (by decide) (by omega)
      simp [minW] at hm; omega
    obtain ⟨d, rfl⟩ := Nat.exists_eq_add_of_le h3
    have hp : 2 ^ (3 + d) = 2 ^ (d + 1) * 4 := by rw [Nat.add_comm 3 d, Nat.pow_add, Nat.pow_succ]; ring
    have h1 : 1 ≤ 2 ^ d := Nat.one_le_two_pow
    have hx : wordsX .four s = 2 ^ (d + 1) := by simp [wordsX, ww, hk, hp]
    exact ⟨⟨_, hx⟩, by rw [hx, hk, hp, ww], by rw [hx, Nat.pow_succ]; omega⟩

/-- A power of two of at least MINH rows is a whole number of words, itself a power of two. -/
theorem wordsY_pow2 {b : Bpp} {s : State} (h : ∃ k, opH s = 2 ^ k) (hm : minH b ≤ opH s) :
    (∃ m, wordsY b s = 2 ^ m) ∧ opH s = wordsY b s * wh b ∧ 2 ≤ wordsY b s := by
  obtain ⟨k, hk⟩ := h
  have hm8 : 8 ≤ opH s := by cases b <;> exact hm
  have hw4 : wh b = 4 := by cases b <;> rfl
  have h3 : 3 ≤ k := by
    by_contra hc
    have : 2 ^ k ≤ 2 ^ 2 := Nat.pow_le_pow_right (by decide) (by omega)
    omega
  obtain ⟨d, rfl⟩ := Nat.exists_eq_add_of_le h3
  have hp : 2 ^ (3 + d) = 2 ^ (d + 1) * 4 := by rw [Nat.add_comm 3 d, Nat.pow_add, Nat.pow_succ]; ring
  have h1 : 1 ≤ 2 ^ d := Nat.one_le_two_pow
  have hx : wordsY b s = 2 ^ (d + 1) := by simp [wordsY, hw4, hk, hp]
  exact ⟨⟨_, hx⟩, by rw [hx, hk, hp, hw4], by rw [hx, Nat.pow_succ]; omega⟩

/-! ## The pixels of a tile -/

theorem mem_tileList {α : Type} {b : Bpp} {f : Nat → Nat → α} {a : α} :
    a ∈ tileList b f ↔ ∃ c r, c < ww b ∧ r < wh b ∧ f c r = a := by
  simp only [tileList, List.mem_flatMap, List.mem_range, List.mem_map]
  constructor
  · rintro ⟨r, hr, c, hc, h⟩; exact ⟨c, r, hc, hr, h⟩
  · rintro ⟨c, r, hc, hr, h⟩; exact ⟨r, hr, c, hc, h⟩

theorem mem_decodeWrites {b : Bpp} {s : State} {ws : FourWords} {x : Host.Cell} :
    x ∈ decodeWrites b s ws ↔ ∃ c r, c < ww b ∧ r < wh b ∧
      x ∈ cellsAt (outPixelAddr s (outX b s c) (outY b s r))
        (pixelBytes (tilePixel b ws (modvGrid b ws) (modmGrid b ws) c r)) := by
  simp only [decodeWrites, List.mem_flatten, mem_tileList]
  constructor
  · rintro ⟨l, ⟨c, r, hc, hr, rfl⟩, h⟩; exact ⟨c, r, hc, hr, h⟩
  · rintro ⟨c, r, hc, hr, h⟩; exact ⟨_, ⟨c, r, hc, hr, rfl⟩, h⟩

theorem outX_lt {b : Bpp} {s : State} (h : 0 < opW s) (c : Nat) : outX b s c < opW s := by
  unfold outX
  have h1 := Int.emod_nonneg (tileWordX b s * ww b + (ww b / 2 : Nat) + c) (show (opW s : Int) ≠ 0 by omega)
  have h2 := Int.emod_lt_of_pos (tileWordX b s * ww b + (ww b / 2 : Nat) + c) (show (0 : Int) < opW s by omega)
  omega

theorem outY_lt {b : Bpp} {s : State} (h : 0 < opH s) (r : Nat) : outY b s r < opH s := by
  unfold outY
  have h1 := Int.emod_nonneg (tileWordY b s * wh b + (wh b / 2 : Nat) + r) (show (opH s : Int) ≠ 0 by omega)
  have h2 := Int.emod_lt_of_pos (tileWordY b s * wh b + (wh b / 2 : Nat) + r) (show (0 : Int) < opH s by omega)
  omega

/-- Two places less than `n` apart are one place where they agree modulo `n`. -/
theorem emod_inj {a : Int} {n c c' : Nat} (hn : 0 < n) (hc : c < n) (hc' : c' < n)
    (h : ((a + c) % (n : Int)).toNat = ((a + c') % (n : Int)).toNat) : c = c' := by
  have h1 := Int.emod_nonneg (a + c) (show (n : Int) ≠ 0 by omega)
  have h2 := Int.emod_nonneg (a + c') (show (n : Int) ≠ 0 by omega)
  have h3 : (a + c) % (n : Int) = (a + c') % (n : Int) := by omega
  have h4 := Int.emod_emod_of_dvd (a + c) (dvd_refl (n : Int))
  have h5 : ((c : Int) - c') % n = 0 := by
    have := Int.emod_eq_emod_iff_emod_sub_eq_zero.1 h3
    rwa [show a + (c : Int) - (a + c') = c - c' by ring] at this
  obtain ⟨k, hk⟩ := Int.dvd_of_emod_eq_zero h5
  have : k = 0 := by
    by_contra hk0
    rcases lt_or_gt_of_ne hk0 with hneg | hpos
    · have : (n : Int) * k ≤ n * (-1) := Int.mul_le_mul_of_nonneg_left (by omega) (by omega)
      omega
    · have : (n : Int) * 1 ≤ n * k := Int.mul_le_mul_of_nonneg_left (by omega) (by omega)
      omega
  subst this
  omega

theorem outX_inj {b : Bpp} {s : State} (h : ww b ≤ opW s) {c c' : Nat} (hc : c < ww b) (hc' : c' < ww b)
    (he : outX b s c = outX b s c') : c = c' := by
  have hw : 0 < ww b := by cases b <;> decide
  exact emod_inj (a := tileWordX b s * ww b + (ww b / 2 : Nat)) (n := opW s) (by omega) (by omega) (by omega) he

theorem outY_inj {b : Bpp} {s : State} (h : wh b ≤ opH s) {r r' : Nat} (hr : r < wh b) (hr' : r' < wh b)
    (he : outY b s r = outY b s r') : r = r' := by
  have hw : 0 < wh b := by cases b <;> decide
  exact emod_inj (a := tileWordY b s * wh b + (wh b / 2 : Nat)) (n := opH s) (by omega) (by omega) (by omega) he

/-- A byte of one pixel of the image belongs to no other pixel. -/
theorem outPixelAddr_inj {s : State} {x y x' y' k k' : Nat} (hx : x < opW s) (hx' : x' < opW s) (hk : k < 4) (hk' : k' < 4)
    (h : outPixelAddr s x y + k = outPixelAddr s x' y' + k') : x = x' ∧ y = y' ∧ k = k' := by
  unfold outPixelAddr at h
  have h1 : k = k' := by omega
  have h2 : y * opW s + x = y' * opW s + x' := by omega
  have hy : y = y' := by
    have e1 := congrArg (· / opW s) h2
    simp only [Nat.mul_comm _ (opW s), Nat.mul_add_div (show 0 < opW s by omega), Nat.div_eq_of_lt hx,
      Nat.div_eq_of_lt hx', Nat.add_zero] at e1
    exact e1
  subst hy
  exact ⟨by omega, rfl, h1⟩

/-- A pixel of the image lies in the destination region. -/
theorem outPixelAddr_lt {s : State} {x y k : Nat} (hx : x < opW s) (hy : y < opH s) (hk : k < 4) :
    dstAddr s ≤ outPixelAddr s x y + k ∧ outPixelAddr s x y + k < dstAddr s + 4 * opW s * opH s := by
  unfold outPixelAddr
  have : (y + 1) * opW s ≤ opH s * opW s := Nat.mul_le_mul_right _ hy
  have h2 : y * opW s + x < opH s * opW s := by rw [Nat.add_mul] at this; omega
  have h3 : 4 * opW s * opH s = 4 * (opH s * opW s) := by ring
  omega

@[simp] theorem pixelBytes_length (p : Pixel) : (pixelBytes p).length = 4 := rfl

/-- What the writes of a decode tile leave in memory: each pixel's bytes in their place, and every other byte as it was. -/
theorem read_decodeWrites {b : Bpp} {s : State} {ws : FourWords} {m : Memory} (hW : ww b ≤ opW s) (hH : wh b ≤ opH s)
    (hw : Memory.wf m) (hlt : ∀ c ∈ decodeWrites b s ws, c.1 < 2 ^ 64) :
    (∀ c r, c < ww b → r < wh b → BytesAt (Memory.writes m (decodeWrites b s ws)) (outPixelAddr s (outX b s c) (outY b s r))
      (pixelBytes (tilePixel b ws (modvGrid b ws) (modmGrid b ws) c r))) ∧
    ∀ a, (∀ c r, c < ww b → r < wh b →
        ¬(outPixelAddr s (outX b s c) (outY b s r) ≤ a ∧ a < outPixelAddr s (outX b s c) (outY b s r) + 4)) →
      Memory.read (Memory.writes m (decodeWrites b s ws)) a = Memory.read m a := by
  have hW0 : 0 < opW s := by cases b <;> simp [ww] at hW <;> omega
  refine ⟨fun c r hc hr k v hv => ?_, fun a ha => ?_⟩
  · have hmem : (outPixelAddr s (outX b s c) (outY b s r) + k, v) ∈ decodeWrites b s ws :=
      mem_decodeWrites.2 ⟨c, r, hc, hr, cellsAt_mem hv⟩
    obtain ⟨d, hd, hda, hdv⟩ := Memory.read_writes_some hw hlt ⟨_, hmem, rfl⟩
    obtain ⟨c', r', hc', hr', hcell⟩ := mem_decodeWrites.1 hd
    obtain ⟨h1, h2, h3⟩ := mem_cellsAt hcell
    have hk4 : k < 4 := (List.getElem?_eq_some_iff.1 hv).1
    obtain ⟨k', hk'⟩ := Nat.exists_eq_add_of_le h1
    rw [pixelBytes_length] at h2
    simp only at hda
    have hinj := outPixelAddr_inj (s := s) (outX_lt hW0 c) (outX_lt hW0 c') hk4 (k' := k') (by omega) (by rw [← hk', ← hda])
    have e1 := outX_inj hW hc hc' hinj.1
    have e2 := outY_inj hH hr hr' hinj.2.1
    subst e1 e2
    rw [hdv]
    rw [show d.1 - outPixelAddr s (outX b s c) (outY b s r) = k by omega, hv] at h3
    exact (Option.some.inj h3).symm
  · refine Memory.read_writes_other (fun d hd hda => ?_) hw hlt
    obtain ⟨c, r, hc, hr, hcell⟩ := mem_decodeWrites.1 hd
    obtain ⟨h1, h2, -⟩ := mem_cellsAt hcell
    rw [pixelBytes_length] at h2
    exact ha c r hc hr (by omega)

/-- The one lemma of a decode tile: each pixel's bytes in their place, no other byte, and the scratch it records. -/
theorem exec_decodeTile {i : Instr} {b : Bpp} (hk : kindOf i = .dec b) {s : State} (h : TileReady i s)
    (hr : s.tc + 1 = s.nt → RaceFree s) (hw : Memory.wf s.mem) (hc : startChecks i s = none) :
    ∃ t, exec i s = .next t ∧
      (∀ c r, c < ww b → r < wh b → BytesAt t.mem (outPixelAddr s (outX b s c) (outY b s r))
        (pixelBytes (tilePixel b (fetchTile b s) (modvGrid b (fetchTile b s)) (modmGrid b (fetchTile b s)) c r))) ∧
      (∀ a, (∀ c r, c < ww b → r < wh b →
          ¬(outPixelAddr s (outX b s c) (outY b s r) ≤ a ∧ a < outPixelAddr s (outX b s c) (outY b s r) + 4)) →
        Memory.read t.mem a = Memory.read s.mem a) ∧
      TileTaken s t ∧ t.lastTile = { s.scratch with dec := decodeBlock b (fetchTile b s) } := by
  have hi : i ≠ .clr := by rintro rfl; simp [kindOf] at hk
  obtain ⟨-, -, hmw, hmh, -⟩ := startChecks_dec_none hk hc
  have hW : ww b ≤ opW s := by cases b <;> simp [ww, minW] at * <;> omega
  have hH : wh b ≤ opH s := by cases b <;> simp [wh, minH] at * <;> omega
  obtain ⟨t, he, hm, hs, ht, -⟩ := exec_tileReady hi h hr
  rw [nextTile_dec hk] at hm hs
  have hlt := tileAdmitted_writes_lt h.2.2
  rw [nextTile_dec hk] at hlt
  obtain ⟨h1, h2⟩ := read_decodeWrites hW hH hw hlt
  have hm' : t.mem = Memory.writes s.mem (decodeWrites b s (fetchTile b s)) := hm
  exact ⟨t, he, by rw [hm']; exact h1, by rw [hm']; exact h2, ht, hs⟩

end Sys2Proof.Machine
end

