-- ==== Sys2Proof/Laws/Step.lean ====
section
/-! SUPPORT. What a step can do, said once: the host's moves, the reset input, and one case split over the events. -/

namespace Sys2Proof.Machine

@[simp] theorem decode_encode_word (i : Instr) : decode (encode i) = .ok i := by cases i <;> decide

/-- A register write touches the register block only. -/
theorem storeReg_frame (r : Fin 16) (v : Word) (s : State) :
    (storeReg r v s).status = s.status ∧ (storeReg r v s).tc = s.tc ∧ (storeReg r v s).nt = s.nt ∧
      (storeReg r v s).scratch = s.scratch ∧ (storeReg r v s).mem = s.mem ∧ (storeReg r v s).params = s.params ∧
      (storeReg r v s).events = s.events ∧ (storeReg r v s).rx = s.rx ∧ (storeReg r v s).race = s.race ∧
      (storeReg r v s).draws = s.draws := by
  unfold storeReg
  split <;> simp

/-- One byte of a host write, by the region of its address: `D` is the destination of the running command and `S` its source, both
empty where no command runs. -/
theorem hostWriteByte_eq {s : State} {D S : Nat → Bool} (hD : ∀ a, (runningInstr s).any (inDest · s a) = D a)
    (hS : ∀ a, (runningInstr s).any (inSource · s a) = S a) (a : Nat) (v : Byte) :
    hostWriteByte s a v =
      { s with
        mem := if D a then s.mem else Memory.write s.mem a v
        race := ⟨s.race.startMem, s.race.tainted || (!D a && S a),
          if D a then recordWrite s.race.hostWrites a v else s.race.hostWrites⟩
        unseen := if D a then s.unseen else s.unseen.written a (Memory.read s.mem a) } := by
  replace hD := hD a
  replace hS := hS a
  unfold hostWriteByte
  cases hr : runningInstr s with
  | none =>
    rw [hr, Option.any_none] at hD hS
    rw [← hD, ← hS]
    simp [plainWrite]
  | some i =>
    rw [hr, Option.any_some] at hD hS
    dsimp only
    rw [hD, hS]
    cases D a <;> cases S a <;> simp [plainWrite]

/-- A host memory write changes memory, the race field and what the host may still read only, and keeps the canonical form. -/
theorem hostWriteBytes_frame : ∀ (bs : List Byte) (s : State) (a : Nat),
    ∃ m r l, hostWriteBytes s a bs = { s with mem := m, race := r, unseen := { s.unseen with left := l } } ∧
      (Memory.wf s.mem → a + bs.length ≤ 2 ^ 64 → Memory.wf m) ∧
      r.startMem = s.race.startMem ∧ (s.status ≠ .busy → r = s.race)
  | [], s, _ => ⟨s.mem, s.race, s.unseen.left, rfl, fun h _ => h, rfl, fun _ => rfl⟩
  | v :: vs, s, a => by
    obtain ⟨m, r, l, he, hm, hs, hq⟩ := hostWriteBytes_frame vs (hostWriteByte s a v) (a + 1)
    have h1 := hostWriteByte_eq (s := s) (fun _ => rfl) (fun _ => rfl) a v
    generalize (runningInstr s).any (inDest · s a) = d at h1
    refine ⟨m, r, l, ?_, fun hw hl => hm ?_ (by simp at hl; omega), ?_, fun h => ?_⟩
    · rw [hostWriteBytes, he, h1]
      cases d <;> rfl
    · rw [h1]
      cases d
      · exact Memory.write_wf hw (by simp at hl; omega)
      · exact hw
    · rw [hs, h1]
    · rw [hq (by rw [h1]; exact h)]
      unfold hostWriteByte runningInstr
      rw [if_neg h]
      rfl

/-! ## What the host has not seen (R85) -/

/-- An address has values beside memory's exactly where a cell of it waits to be seen. -/
theorem mem_values {u : Unseen} {a : Nat} {v : Byte} : v ∈ u.values a ↔ (a, v) ∈ u.cells := by
  simp only [Unseen.values, valuesAt, List.mem_map, List.mem_filter, decide_eq_true_eq]
  constructor
  · rintro ⟨⟨b, w⟩, ⟨h, rfl⟩, rfl⟩
    exact h
  · exact fun h => ⟨(a, v), ⟨h, rfl⟩, rfl⟩

theorem mem_cells {u : Unseen} {c : Host.Cell} : c ∈ u.cells ↔ c ∈ u.last ∨ c ∈ u.earlier ∨ c ∈ u.left := by
  simp only [Unseen.cells, List.mem_append, or_assoc]

/-- An engine write of an address may still come exactly where a cell of it is of an engine write. -/
theorem coming_iff {u : Unseen} {a : Nat} : u.coming a = true ↔ ∃ v, (a, v) ∈ u.last ∨ (a, v) ∈ u.earlier := by
  simp only [Unseen.coming, List.any_eq_true, List.mem_append, decide_eq_true_eq]
  constructor
  · rintro ⟨⟨b, w⟩, h, rfl⟩
    exact ⟨w, h⟩
  · exact fun ⟨v, h⟩ => ⟨(a, v), h, rfl⟩

/-- What a host write does to what is unseen: elsewhere nothing; at its address, where no engine write may still come, nothing stays
unseen, and where one may, all stays and the value before joins it. -/
theorem written_values (u : Unseen) (a : Nat) (w : Byte) :
    (∀ b, b ≠ a → (u.written a w).values b = u.values b) ∧ (u.coming a = false → (u.written a w).values a = []) ∧
      (u.coming a = true → w ∈ (u.written a w).values a ∧ ∀ x ∈ u.values a, x ∈ (u.written a w).values a) := by
  refine ⟨fun b hb => ?_, fun h => ?_, fun h => ?_⟩
  · have h1 : (u.left.filter (fun c => decide (c.1 ≠ a))).filter (fun c => decide (c.1 = b)) =
        u.left.filter (fun c => decide (c.1 = b)) := by
      rw [List.filter_filter]
      refine List.filter_congr fun c _ => ?_
      by_cases e : c.1 = b
      · simp [e, hb]
      · simp [e]
    cases hc : u.coming a
    · simp only [Unseen.values, Unseen.cells, valuesAt, Unseen.written, hc, List.filter_append, h1, Bool.false_eq_true, if_false]
    · simp [Unseen.values, Unseen.cells, valuesAt, Unseen.written, hc, List.filter_append, Ne.symm hb]
  · refine List.eq_nil_iff_forall_not_mem.2 fun x hx => ?_
    rw [mem_values, mem_cells] at hx
    have hn : ¬∃ v, (a, v) ∈ u.last ∨ (a, v) ∈ u.earlier := by rw [← coming_iff, h]; simp
    rcases hx with hx | hx | hx
    · exact hn ⟨x, .inl hx⟩
    · exact hn ⟨x, .inr hx⟩
    · simp [Unseen.written, h] at hx
  · refine ⟨mem_values.2 (mem_cells.2 (.inr (.inr (by simp [Unseen.written, h])))), fun x hx => ?_⟩
    rw [mem_values, mem_cells] at hx ⊢
    simp only [Unseen.written, h, if_true, List.mem_cons]
    tauto

/-- A drawn value is the first one or one of the list. -/
theorem pick_mem (n : Nat) (v : Byte) (vs : List Byte) : pick n v vs ∈ v :: vs := by
  cases vs with
  | nil => simp [pick]
  | cons w ws =>
    have h : Config.drawNat n % (ws.length + 2) < (v :: w :: ws).length := Nat.mod_lt _ (by omega)
    rw [pick, List.getD_eq_getElem _ _ h]
    exact List.getElem_mem h

@[simp] theorem pick_nil (n : Nat) (v : Byte) : pick n v [] = v := rfl

/-- A host read of a stable byte outside a running command's destination is what memory holds or a value that waits to be seen. -/
theorem plainRead_mem {s : State} {a : Nat} (h : isUnstable s.params a = false) (n : Nat) :
    plainRead s a n ∈ Memory.read s.mem a :: s.unseen.values a := by
  unfold plainRead
  rw [if_neg (by simp [h])]
  exact pick_mem _ _ _

/-- After a read of STATUS that returns DONE nothing is unseen at an address but what earlier commands and resets left there. -/
theorem seen_values {u : Unseen} {a : Nat} (h : ∀ v, (a, v) ∉ u.earlier ∧ (a, v) ∉ u.left) : u.seen.values a = [] := by
  refine List.eq_nil_iff_forall_not_mem.2 fun w hw => ?_
  rw [mem_values, mem_cells] at hw
  rcases hw with hw | hw | hw
  · simp at hw
  · exact (h w).1 hw
  · exact (h w).2 hw

/-- What a host memory move answers. -/
theorem hostAccess_next {p : Params} {addr n : Nat} {go t : State} (h : hostAccess p addr n go = .next t) :
    t = go ∧ (0 < n → addr + n ≤ 2 ^ 64) := by
  unfold hostAccess at h
  split at h
  · cases h
  · split at h
    · rename_i hall
      refine ⟨by injection h with h; exact h.symm, fun hn => ?_⟩
      have := admits_lt (List.all_eq_true.1 hall (n - 1) (List.mem_range.2 (by omega)))
      omega
    · cases h

/-- What a step can do. -/
theorem step_cases {s t : State} (h : step s = .next t) :
    (∃ es, (s.events = [] ∧ es = [] ∨ s.events = .engine :: es) ∧ engineTurn { s with events := es } = .next t) ∨
    (∃ m es, s.events = .host m :: es ∧ hostTurn m { s with events := es } = .next t) ∨
    (∃ es, s.events = .reset :: es ∧ t = resetEngine { s with events := es }) := by
  unfold step turn at h
  split at h
  · rename_i he
    refine .inl ⟨[], .inl ⟨he, rfl⟩, ?_⟩
    rw [← h]
    congr 1
    cases s
    simp_all
  · exact .inl ⟨_, .inr ‹_›, h⟩
  · exact .inr (.inl ⟨_, _, ‹_›, h⟩)
  · exact .inr (.inr ⟨_, ‹_›, by injection h with h; exact h.symm⟩)

/-- A run of one step more. -/
theorem run_succ {s t : State} (h : step s = .next t) (k : Nat) : Host.Core.run core (k + 1) s = Host.Core.run core k t := by
  simp only [Host.Core.run, core, h]

/-- While a command runs and no event is pending, a step is the command's `exec`. -/
theorem step_of_running {i : Instr} {s : State} (hr : runningInstr s = some i) (he : s.events = []) : step s = exec i s := by
  simp only [step, turn, he, engineTurn, hr]

/-! ## The regions do not depend on the events still to come -/

@[simp] theorem inDest_events (i : Instr) (s : State) (es : List Event) (a : Nat) :
    inDest i { s with events := es } a = inDest i s a := by
  unfold inDest dstLen; cases kindOf i <;> rfl

@[simp] theorem inSource_events (i : Instr) (s : State) (es : List Event) (a : Nat) :
    inSource i { s with events := es } a = inSource i s a := by
  unfold inSource srcLen; cases kindOf i <;> rfl

@[simp] theorem dstLen_events (i : Instr) (s : State) (es : List Event) : dstLen i { s with events := es } = dstLen i s := by
  unfold dstLen; cases kindOf i <;> rfl

@[simp] theorem startChecks_events (i : Instr) (s : State) (es : List Event) :
    startChecks i { s with events := es } = startChecks i s := by
  unfold startChecks checkRegions srcLen dstLen; cases kindOf i <;> rfl

@[simp] theorem runningInstr_events (s : State) (es : List Event) :
    runningInstr { s with events := es } = runningInstr s := rfl

/-! ## The running command -/

theorem runningInstr_of_running {i : Instr} {s : State} (h : Running i s) : runningInstr s = some i := by
  simp [runningInstr, h.1, h.2]

theorem busy_of_runningInstr {s : State} {i : Instr} (h : runningInstr s = some i) :
    s.status = .busy ∧ decode s.cmd = .ok i := by
  unfold runningInstr at h
  split at h
  · split at h
    · rename_i hd
      exact ⟨‹_›, by rw [hd]; congr 1; injection h⟩
    · cases h
  · cases h

/-- The run of a command whose next tile is always admitted: `Q` is kept by every tile, and the run ends with DONE. -/
theorem run_tiles {i : Instr} (hi : i ≠ .clr) (Q : State → Prop)
    (h1 : ∀ u, Q u → Running i u → u.tc < u.nt → tileAdmitted u.params (nextTile i u) = true)
    (h2 : ∀ u t, Q u → TileReady i u → t.mem = Memory.writes u.mem (nextTile i u).writes → t.tc = u.tc + 1 →
      t.nt = u.nt → sameOperands u t → sameHostSide u t → Q t) :
    ∀ k u, 0 < k → Q u → RaceFree u → u.events = [] → Running i u → u.tc + k = u.nt →
      ∃ t : State, Host.Core.run core k u = .next t ∧ Q t ∧ t.status = .done ∧ t.tc = u.nt
  | 0, u, h0, _, _, _, _, _ => by omega
  | k + 1, u, _, hQ, hf, he, hr, hk => by
    have hready : TileReady i u := ⟨hr, by omega, h1 u hQ hr (by omega)⟩
    obtain ⟨t, hx, hm, -, ⟨htc, hst, hnt, -, -, ho, hh, -, -⟩, hfr⟩ := exec_tileReady hi hready (fun _ => hf)
    have hQt := h2 u t hQ hready hm htc hnt ho hh
    have hs : step u = .next t := by rw [step_of_running (runningInstr_of_running hr) he, hx]
    by_cases h0 : k = 0
    · subst h0
      refine ⟨t, by simp only [Host.Core.run, core, hs], hQt, ?_, by omega⟩
      rw [hst, if_pos (by omega)]
    · have hrt : Running i t := ⟨by rw [hst, if_neg (by omega)], by rw [ho.1]; exact hr.2⟩
      obtain ⟨t', hx', hq', hst', htc'⟩ :=
        run_tiles hi Q h1 h2 k t (by omega) hQt (hfr hf) (by rw [hh.1]; exact he) hrt (by omega)
      refine ⟨t', ?_, hq', hst', by omega⟩
      rw [run_succ hs]
      exact hx'

/-! ## The running command, looked ahead -/

@[simp] theorem nextTile_events (i : Instr) (s : State) (es : List Event) :
    nextTile i { s with events := es } = nextTile i s := by
  unfold nextTile; cases kindOf i <;> rfl

@[simp] theorem isStuck_events (i : Instr) (s : State) (es : List Event) : isStuck i { s with events := es } = isStuck i s := by
  unfold isStuck; rw [nextTile_events]

theorem tilesAhead_events (i : Instr) (es : List Event) : ∀ (n : Nat) (s : State),
    tilesAhead i n { s with events := es } = { tilesAhead i n s with events := es }
  | 0, _ => rfl
  | n + 1, s => by
    unfold tilesAhead takeTile
    rw [nextTile_events]
    by_cases h : tileAdmitted s.params (nextTile i s) = true
    · rw [if_pos h, if_pos h]
      exact tilesAhead_events i es n (afterTile (nextTile i s) s)
    · rw [if_neg h, if_neg h]

@[simp] theorem engineMem_events (i : Instr) (s : State) (es : List Event) :
    engineMem i { s with events := es } = engineMem i s := by
  unfold engineMem; rw [tilesAhead_events]

@[simp] theorem racedByte_events (i : Instr) (s : State) (es : List Event) (a n : Nat) :
    racedByte i { s with events := es } a n = racedByte i s a n := by
  unfold racedByte; rw [isStuck_events, engineMem_events]

/-- A byte of a command that is not stuck and whose source no race has touched is the old one or the engine's. -/
theorem racedByte_untainted {i : Instr} {s : State} (hf : s.race.tainted = false)
    (ha : tileAdmitted s.params (nextTile i s) = true) (a n : Nat) :
    racedByte i s a n = Memory.read s.race.startMem a ∨ racedByte i s a n = Memory.read (engineMem i s) a := by
  unfold racedByte
  rw [if_neg (by simp [isStuck, ha, hf])]
  split
  · exact .inl rfl
  · exact .inr rfl

/-- What an abandoned command leaves in a byte is the raced byte or a value the host wrote there. -/
theorem abandonedByte_cases (i : Instr) (s : State) (a n : Nat) :
    abandonedByte i s a n = racedByte i s a n ∨ (a, abandonedByte i s a n) ∈ s.race.hostWrites := by
  have h := pick_mem n (racedByte i s a n) (valuesAt s.race.hostWrites a)
  rcases List.mem_cons.1 h with h | h
  · exact .inl h
  · simp only [valuesAt, List.mem_map, List.mem_filter, decide_eq_true_eq] at h
    obtain ⟨⟨b, w⟩, ⟨hm, rfl⟩, hw⟩ := h
    refine .inr ?_
    have e : abandonedByte i s b n = w := hw.symm
    rw [e]
    exact hm

@[simp] theorem abandonedByte_events (i : Instr) (s : State) (es : List Event) (a n : Nat) :
    abandonedByte i { s with events := es } a n = abandonedByte i s a n := by
  unfold abandonedByte; rw [racedByte_events]

/-- The source and the destination of a command that passed its checks share no address (R364). -/
theorem source_dest_disjoint {i : Instr} {s : State} (hi : i ≠ .clr) (hc : startChecks i s = none) {a : Nat}
    (h : inSource i s a = true) : inDest i s a = false := by
  have hr : checkRegions i s = none := by
    unfold startChecks at hc
    split at hc
    · rename_i hk; cases i <;> simp [kindOf] at hk hi
    · exact hc
    · split at hc
      · split at hc
        · cases hc
        · exact hc
      · cases hc
  unfold checkRegions at hr
  split at hr
  · cases hr
  · split at hr
    · cases hr
    · rename_i h2
      simp only [inSource, decide_eq_true_eq] at h
      simp only [inDest, decide_eq_false_iff_not]
      omega

/-- A command's source is unstable exactly where it holds an unstable address, if it holds any (R82). -/
theorem sourceUnstable_iff {i : Instr} {s : State} (hl : 0 < srcLen i s) :
    sourceUnstable i s = true ↔ ∃ a, inSource i s a = true ∧ isUnstable s.params a = true := by
  simp only [sourceUnstable, isUnstable, inSource, inRegion, List.any_eq_true, decide_eq_true_eq]
  constructor
  · rintro ⟨r, hr, h⟩
    exact ⟨max r.base (srcAddr s), by omega, r, hr, by omega⟩
  · rintro ⟨a, h1, r, hr, h2⟩
    exact ⟨r, hr, by omega⟩

/-! ## A host write to memory -/

/-- What a host write of one byte does to the hosts' writes of a running command. -/
theorem mem_recordWrite {cs : List Host.Cell} {a : Nat} {v : Byte} {c : Host.Cell} :
    c ∈ recordWrite cs a v ↔ (c ∈ cs ∧ c.1 ≠ a) ∨ c = (a, v) := by
  simp [recordWrite]

/-- Which command runs is a matter of STATUS and CMD. -/
theorem runningInstr_congr {s u : State} (hs : s.status = u.status) (hc : s.cmd = u.cmd) :
    runningInstr s = runningInstr u := by
  unfold runningInstr; rw [hs, hc]

/-- The regions of `hostWriteBytes_spec` where `i` runs. -/
theorem any_running {i : Instr} {s : State} (hr : runningInstr s = some i) (f : Instr → Bool) : (runningInstr s).any f = f i := by
  rw [hr, Option.any_some]

/-- A host write of bytes: what it does to memory, to the race and to what is unseen. `D` is the destination of the running command
and `S` its source, both empty where no command runs. -/
theorem hostWriteBytes_spec {D S : Nat → Bool} : ∀ (bs : List Byte) (s : State) (addr : Nat),
    (∀ a, (runningInstr s).any (inDest · s a) = D a) → (∀ a, (runningInstr s).any (inSource · s a) = S a) →
    Memory.wf s.mem → (∀ k, k < bs.length → addr + k < 2 ^ 64) →
    ∃ m r v, hostWriteBytes s addr bs = { s with mem := m, race := r, unseen := v } ∧
      v.last = s.unseen.last ∧ v.earlier = s.unseen.earlier ∧
      r.startMem = s.race.startMem ∧
      (∀ k b, bs[k]? = some b → D (addr + k) = true →
        Memory.read m (addr + k) = Memory.read s.mem (addr + k) ∧ ∀ x, (addr + k, x) ∈ r.hostWrites ↔ x = b) ∧
      (∀ k b, bs[k]? = some b → D (addr + k) = false → Memory.read m (addr + k) = b ∧
        (s.unseen.coming (addr + k) = false → v.values (addr + k) = []) ∧
        (s.unseen.coming (addr + k) = true →
          Memory.read s.mem (addr + k) ∈ v.values (addr + k) ∧
          ∀ x ∈ s.unseen.values (addr + k), x ∈ v.values (addr + k))) ∧
      (∀ a, ¬(addr ≤ a ∧ a < addr + bs.length) → Memory.read m a = Memory.read s.mem a) ∧
      (∀ c : Host.Cell, D c.1 = false ∨ ¬(addr ≤ c.1 ∧ c.1 < addr + bs.length) →
        (c ∈ r.hostWrites ↔ c ∈ s.race.hostWrites)) ∧
      (r.tainted = true ↔ s.race.tainted = true ∨ ∃ k, k < bs.length ∧ D (addr + k) = false ∧ S (addr + k) = true) ∧
      ∀ a, D a = true ∨ ¬(addr ≤ a ∧ a < addr + bs.length) → v.values a = s.unseen.values a := by
  intro bs
  induction bs with
  | nil =>
    intro s addr hD hS hw hl
    exact ⟨s.mem, s.race, s.unseen, rfl, rfl, rfl, rfl, by simp, by simp, fun _ _ => rfl, fun _ _ => Iff.rfl, by simp, fun _ _ => rfl⟩
  | cons x xs ih =>
    intro s addr hD hS hw hl
    obtain ⟨p1, p2, p3⟩ := written_values s.unseen addr (Memory.read s.mem addr)
    rw [hostWriteBytes, hostWriteByte_eq hD hS]
    generalize hu : ({ s with
        mem := if D addr then s.mem else Memory.write s.mem addr x
        race := ⟨s.race.startMem, s.race.tainted || (!D addr && S addr),
          if D addr then recordWrite s.race.hostWrites addr x else s.race.hostWrites⟩
        unseen := if D addr then s.unseen else s.unseen.written addr (Memory.read s.mem addr) } : State) = u
    have hops : sameOperands s u := by subst hu; simp [sameOperands]
    have hru : runningInstr u = runningInstr s := runningInstr_congr (by subst hu; rfl) (by subst hu; rfl)
    have hDu : ∀ a, (runningInstr u).any (inDest · u a) = D a := fun a => by
      rw [← hD, hru]
      simp only [inDest_congr _ hops]
    have hSu : ∀ a, (runningInstr u).any (inSource · u a) = S a := fun a => by
      rw [← hS, hru]
      simp only [inSource_congr _ hops]
    have ha : addr < 2 ^ 64 := by have := hl 0 (Nat.succ_pos _); rwa [Nat.add_zero] at this
    have hwu : Memory.wf u.mem := by
      subst hu
      dsimp only
      split
      · exact hw
      · exact Memory.write_wf hw ha
    have hother : ∀ a, a ≠ addr → Memory.read u.mem a = Memory.read s.mem a := by
      intro a h
      subst hu
      dsimp only
      split
      · rfl
      · rw [Memory.read_write hw, if_neg h]
    have hcom : ∀ a, u.unseen.coming a = s.unseen.coming a := by
      intro a
      subst hu
      dsimp only
      split <;> rfl
    have hlast : u.unseen.last = s.unseen.last ∧ u.unseen.earlier = s.unseen.earlier := by
      subst hu
      dsimp only
      split <;> exact ⟨rfl, rfl⟩
    have hvals : ∀ a, a ≠ addr ∨ D addr = true → u.unseen.values a = s.unseen.values a := by
      intro a h
      subst hu
      dsimp only
      split
      · rfl
      · rename_i hn
        exact p1 a (h.resolve_right hn)
    have hrec : ∀ c : Host.Cell, c ∈ u.race.hostWrites ↔
        if D addr = true then (c ∈ s.race.hostWrites ∧ c.1 ≠ addr) ∨ c = (addr, x) else c ∈ s.race.hostWrites := by
      intro c
      subst hu
      dsimp only
      cases D addr
      · simp
      · simp only [if_true]
        exact mem_recordWrite
    obtain ⟨m, r, v, he, e1, e2, h0, h1, h2, h3, h4, h5, h6⟩ := ih u (addr + 1) hDu hSu hwu
      (fun k hk => by have := hl (k + 1) (Nat.succ_lt_succ hk); rwa [Nat.add_right_comm, Nat.add_assoc])
    clear hl ha
    refine ⟨m, r, v, ?_, e1.trans hlast.1, e2.trans hlast.2, by rw [h0]; subst hu; rfl, ?_, ?_, ?_, ?_, ?_, ?_⟩
    · rw [he]
      subst hu
      rfl
    · intro k b hb hk
      cases k with
      | zero =>
        simp only [List.getElem?_cons_zero, Option.some.injEq] at hb
        subst hb
        rw [Nat.add_zero] at hk ⊢
        refine ⟨?_, fun w => ?_⟩
        · rw [h3 addr (by omega)]
          subst hu
          simp [hk]
        · rw [h4 _ (.inr (by simp only; omega)), hrec]
          simp [hk]
      | succ k =>
        rw [List.getElem?_cons_succ] at hb
        rw [← Nat.add_assoc, Nat.add_right_comm] at hk ⊢
        obtain ⟨g1, g2⟩ := h1 k b hb hk
        exact ⟨by rw [g1, hother _ (by omega)], g2⟩
    · intro k b hb hk
      cases k with
      | zero =>
        simp only [List.getElem?_cons_zero, Option.some.injEq] at hb
        subst hb
        rw [Nat.add_zero] at hk ⊢
        rw [h3 addr (by omega), h6 addr (.inr (by omega))]
        subst hu
        simp only [hk, Bool.false_eq_true, if_false]
        exact ⟨by rw [Memory.read_write hw, if_pos rfl], p2, p3⟩
      | succ k =>
        rw [List.getElem?_cons_succ] at hb
        rw [← Nat.add_assoc, Nat.add_right_comm] at hk ⊢
        have := h2 k b hb hk
        rwa [hcom, hvals _ (.inl (by omega)), hother _ (by omega)] at this
    · intro a ha
      rw [List.length_cons] at ha
      rw [h3 a (by omega), hother a (by omega)]
    · intro c hc
      rw [List.length_cons] at hc
      rw [h4 c (hc.imp_right fun hc => by omega), hrec]
      split
      · rename_i hk
        have hne : c.1 ≠ addr := by
          rintro rfl
          rcases hc with hc | hc
          · rw [hk] at hc; cases hc
          · omega
        have hne' : c ≠ (addr, x) := by rintro rfl; exact hne rfl
        simp [hne, hne']
      · rfl
    · rw [h5]
      have ht : u.race.tainted = true ↔ s.race.tainted = true ∨ D addr = false ∧ S addr = true := by
        subst hu
        simp
      rw [ht, List.length_cons]
      constructor
      · rintro ((h | h) | ⟨k, hk, h⟩)
        · exact .inl h
        · exact .inr ⟨0, by omega, h⟩
        · exact .inr ⟨k + 1, by omega, by rw [← Nat.add_assoc, Nat.add_right_comm]; exact h⟩
      · rintro (h | ⟨k, hk, h⟩)
        · exact .inl (.inl h)
        · cases k with
          | zero => exact .inl (.inr h)
          | succ k =>
            rw [← Nat.add_assoc, Nat.add_right_comm] at h
            exact .inr ⟨k, by omega, h⟩
    · intro a ha
      rw [List.length_cons] at ha
      rw [h6 a (ha.imp_right fun ha => by omega)]
      refine hvals a ?_
      rcases ha with ha | ha
      · by_cases e : a = addr
        · exact .inr (by rw [← e]; exact ha)
        · exact .inl e
      · exact .inl (by omega)

/-- A host write of bytes while no command runs: they stand in memory, and nothing of the engine changes. -/
theorem hostWriteBytes_idle {bs : List Byte} {s : State} {addr : Nat} (hb : s.status ≠ .busy) (hw : Memory.wf s.mem)
    (hl : ∀ k, k < bs.length → addr + k < 2 ^ 64) :
    ∃ m v, hostWriteBytes s addr bs = { s with mem := m, unseen := v } ∧ BytesAt m addr bs ∧
      (∀ a, ¬(addr ≤ a ∧ a < addr + bs.length) → Memory.read m a = Memory.read s.mem a ∧ v.values a = s.unseen.values a) ∧
      ∀ k, k < bs.length →
        (s.unseen.coming (addr + k) = false → v.values (addr + k) = []) ∧
        (s.unseen.coming (addr + k) = true →
          Memory.read s.mem (addr + k) ∈ v.values (addr + k) ∧ ∀ x ∈ s.unseen.values (addr + k), x ∈ v.values (addr + k)) := by
  have hr : runningInstr s = none := by rw [runningInstr, if_neg hb]
  obtain ⟨m, r, v, he, -, -, -, -, h2, h3, -, -, h6⟩ := hostWriteBytes_spec (D := fun _ => false) (S := fun _ => false) bs s addr
    (fun _ => by rw [hr, Option.any_none]) (fun _ => by rw [hr, Option.any_none]) hw hl
  obtain ⟨m', r', l, he', -, -, hq⟩ := hostWriteBytes_frame bs s addr
  have hrace : r = s.race := by
    rw [he] at he'
    rw [← hq hb]
    injection he'
  rw [hrace] at he
  exact ⟨m, v, he, fun k b hk => (h2 k b hk rfl).1, fun a ha => ⟨h3 a ha, h6 a (.inr ha)⟩,
    fun k hk => (h2 k _ (List.getElem?_eq_getElem hk) rfl).2⟩

/-! ## What a turn leaves alone -/

/-- The engine's turn leaves the command's operands and the host's side alone. -/
theorem engineTurn_frame {s t : State} (h : engineTurn s = .next t) : sameOperands s t ∧ sameHostSide s t := by
  unfold engineTurn at h
  split at h
  · exact exec_frame h
  · injection h with h; subst h; simp [sameOperands, sameHostSide]

/-- The engine's turn always goes on. -/
theorem engineTurn_continues (s : State) : ∃ t, engineTurn s = .next t := by
  unfold engineTurn
  split
  · exact exec_continues _ _
  · exact ⟨_, rfl⟩

/-- While a command runs the host changes neither a register nor STATUS. -/
theorem hostTurn_busy_frame {m : HostMove} {s t : State} (hb : s.status = .busy) (h : hostTurn m s = .next t) :
    sameOperands s t ∧ t.status = s.status ∧ t.tc = s.tc ∧ t.nt = s.nt ∧ t.scratch = s.scratch ∧ t.params = s.params := by
  unfold hostTurn at h
  split at h
  · split at h
    · simp only [commandWrite, hb, if_true] at h
      injection h with h; subst h; simp [sameOperands, hb]
    · injection h with h; subst h; simp [writeReg, hb, sameOperands]
  · injection h with h; subst h; simp [sameOperands]
  · obtain ⟨ht, -⟩ := hostAccess_next h
    obtain ⟨m, r, u, he, -⟩ := hostWriteBytes_frame ‹_› s (‹DWord›).toNat
    subst ht; rw [he]; simp [sameOperands]
  · obtain ⟨ht, -⟩ := hostAccess_next h
    subst ht; simp [sameOperands]
  · injection h with h; subst h
    simp [hostWait, hb, sameOperands]

/-- No host move changes a launch parameter. -/
theorem hostTurn_params {m : HostMove} {s t : State} (h : hostTurn m s = .next t) : t.params = s.params := by
  unfold hostTurn at h
  split at h
  · split at h
    · unfold commandWrite at h
      split at h
      · injection h with h; subst h; rfl
      · split at h
        · rw [(exec_frame h).2.2.2]; exact (storeReg_frame _ _ _).2.2.2.2.2.1
        · injection h with h; subst h; exact (storeReg_frame _ _ _).2.2.2.2.2.1
    · injection h with h; subst h
      unfold writeReg; split
      · rfl
      · exact (storeReg_frame _ _ _).2.2.2.2.2.1
  · injection h with h; subst h; rfl
  · obtain ⟨ht, -⟩ := hostAccess_next h
    obtain ⟨m, r, u, he, -⟩ := hostWriteBytes_frame ‹_› s (‹DWord›).toNat
    subst ht; rw [he]
  · obtain ⟨ht, -⟩ := hostAccess_next h
    subst ht; rfl
  · injection h with h; subst h
    unfold hostWait; dsimp only; split <;> rfl

/-- No step changes a launch parameter: they are arguments of the model (R6). -/
theorem step_params {s t : State} (h : step s = .next t) : t.params = s.params := by
  obtain ⟨es, -, he⟩ | ⟨m, es, -, he⟩ | ⟨es, -, he⟩ := step_cases h
  · exact (engineTurn_frame he).2.2.2
  · exact hostTurn_params (s := { s with events := es }) he
  · subst he; rfl

/-! ## Reset -/

/-- Reset changes no byte outside the destination of a command it abandons. -/
theorem resetMem_read_other {s : State} (hw : Memory.wf s.mem) {a : Nat}
    (ha : ∀ i, runningInstr s = some i → inDest i s a = false) : Memory.read (resetMem s) a = Memory.read s.mem a := by
  unfold resetMem
  cases hr : runningInstr s with
  | none => rfl
  | some i =>
    refine Memory.read_writes_other (fun c hc hca => ?_) hw (fun c hc => engineAdmits_lt (mem_admittedCells.1 hc).2)
    have hc' := (mem_admittedCells.1 hc).1
    simp only [abandonedCells, List.mem_map, List.mem_range] at hc'
    obtain ⟨k, hk, rfl⟩ := hc'
    have := ha i hr
    simp only [inDest, decide_eq_false_iff_not] at this
    simp only at hca
    omega

/-- What reset leaves in an admitted destination byte of the command it abandons: the byte that it draws. -/
theorem resetMem_read_dest {s : State} (hw : Memory.wf s.mem) {i : Instr} (hr : runningInstr s = some i) {k : Nat}
    (hk : k < dstLen i s) (ha : engineAdmits s.params (dstAddr s + k) = true) :
    Memory.read (resetMem s) (dstAddr s + k) = abandonedByte i s (dstAddr s + k) (s.draws + k) := by
  unfold resetMem
  rw [hr]
  have hm : (dstAddr s + k, abandonedByte i s (dstAddr s + k) (s.draws + k)) ∈
      admittedCells s.params (abandonedCells i s) := by
    refine mem_admittedCells.2 ⟨?_, ha⟩
    simp only [abandonedCells, List.mem_map, List.mem_range]
    exact ⟨k, hk, rfl⟩
  refine Memory.read_writes_of_mem ?_ hm hw (fun c hc => engineAdmits_lt (mem_admittedCells.1 hc).2)
  refine List.Pairwise.filter _ (List.pairwise_map.2 (List.Pairwise.imp ?_ List.pairwise_lt_range))
  intro x y hxy
  simp only
  omega

/-- Reset keeps the canonical form. -/
theorem resetMem_wf {s : State} (hw : Memory.wf s.mem) : Memory.wf (resetMem s) := by
  unfold resetMem
  split
  · exact Memory.writes_wf hw (fun c hc => engineAdmits_lt (mem_admittedCells.1 hc).2)
  · exact hw

end Sys2Proof.Machine
end

