-- ==== Sys2Proof/Tests/Slice0.lean ====
section
/-! SUPPORT. The model's own tests. The expected results are the spec's (spec/95_test_vectors.md, spec/30_encoding.md and the
rules each test names), worked by hand there; a witness shows a state and operands that meet a statement's hypotheses. -/

namespace Sys2Proof.Tests

-- One theorem at a time: a thread of its own for each kernel evaluation asks for more memory than the build allows.
set_option Elab.async false

open Sys2Proof Machine

/-! ## Small states -/

/-- Bytes from numbers. -/
def bytesOf (l : List Nat) : List Byte := l.map (BitVec.ofNat 8)

/-- Memory with the bytes at `addr` upward. -/
def memOf (addr : Nat) (l : List Nat) : Memory := Memory.writes [] (cellsAt addr (bytesOf l))

/-- The state after reset with operands: SRC = 0x1000, DST = 0x8000, and the dimensions. -/
def operands (w h d : Nat) (m : Memory) : State :=
  { State.reset with
    srcLo := 0x1000, dstLo := 0x8000, width := BitVec.ofNat 32 w, height := BitVec.ofNat 32 h, depth := BitVec.ofNat 32 d
    mem := m }

/-- `s` with `i` running at its first tile. -/
def running (i : Instr) (s : State) : State :=
  { s with cmd := encode i, status := .busy, nt := tilesOf i s, race := ⟨s.mem, false, []⟩ }

/-- The bytes of the block `GR` (45_block_assembler.md, section 3): 8 red pixels, 8 green ones, alpha 17·i. -/
def grBytes : List Nat :=
  (List.range 16).flatMap (fun i => if i < 8 then [255, 0, 0, 17 * i] else [0, 255, 0, 17 * i])

/-- `i` running on the 4 × 4 × 1 image GR. -/
def onGr (i : Instr) : State := running i (operands 4 4 1 (memOf 0x1000 grBytes))

/-- A PVRTC image of one repeated word, `n` times. -/
def oneWord (n : Nat) (w : List Nat) : Memory := memOf 0x1000 (List.replicate n w).flatten

/-- `DEC.PVRTC2` running on 16 × 8 pixels, its four words all MOD 0x55455555, COL 0x801FFC01 (V-PV2-5). -/
def onPv2 : State := running .decPvrtc2 (operands 16 8 0 (oneWord 4 [0x55, 0x55, 0x45, 0x55, 0x01, 0xFC, 0x1F, 0x80]))

/-- The four distinct words of V-PV4-3 in memory order. -/
def pv43Bytes : List Nat :=
  [0, 0, 0, 0, 0x00, 0xFC, 0x00, 0x80, 0, 0, 0, 0, 0x00, 0x80, 0x00, 0x80,
    0, 0, 0, 0, 0xE0, 0x83, 0x00, 0x80, 0, 0, 0, 0, 0xFE, 0x7F, 0x00, 0x80]

/-- `DEC.PVRTC4` running on the 8 × 8 pixels of V-PV4-3. -/
def onPv4 : State := running .decPvrtc4 (operands 8 8 0 (memOf 0x1000 pv43Bytes))

/-- The state an outcome goes on with; the reset state where it does not. -/
def after (o : Out) : State :=
  match o with
  | .next t => t
  | .fault _ => State.reset
  | .refused _ => State.reset

/-- The `n` bytes at `addr` after a step. -/
def bytesAfter (o : Out) (addr n : Nat) : List Nat := (Memory.readBytes (after o).mem addr n).map (·.toNat)

/-- The step goes on. -/
def goesOn (o : Out) : Bool :=
  match o with
  | .next _ => true
  | .fault _ => false
  | .refused _ => false

/-! ## Well-formed assembler lines: an ill-formed line for each check -/

theorem test_line_with_missing_operand : ¬AsmLine.ArityOk ⟨.encDxt1Fast, [0x2000, 0x1000, 4, 4]⟩ := by decide
theorem test_line_with_wide_address : ¬AsmLine.AddressesOk ⟨.decPvrtc4, [0x2000, 2 ^ 64, 8, 8]⟩ := by decide
theorem test_line_with_wide_dimension : ¬AsmLine.DimensionsOk ⟨.encDxt5Hq, [0x2000, 0x1000, 4, 2 ^ 32, 1]⟩ := by decide
theorem test_line_of_program_p1 : AsmLine.WellFormed ⟨.encDxt1Fast, [0x2000, 0x1000, 4, 4, 1]⟩ := by decide
theorem test_line_expands_as_in_p1 : assemble ⟨.encDxt1Fast, [0x2000, 0x1000, 4, 4, 1]⟩ =
    [.wr 4 0x2000, .wr 5 0, .wr 2 0x1000, .wr 3 0, .wr 6 4, .wr 7 4, .wr 8 1, .wr 0 0x1] := by decide

/-! ## Decoding: each word bit by bit, `RSV` (27 bits), `Q`, `OP` (R100, R101) -/

theorem test_decode_clr : decode 0b000000000000000000000000000_0_0000#32 = .ok .clr := by decide
theorem test_decode_encDxt1Fast : decode 0b000000000000000000000000000_0_0001#32 = .ok .encDxt1Fast := by decide
theorem test_decode_encDxt1Hq : decode 0b000000000000000000000000000_1_0001#32 = .ok .encDxt1Hq := by decide
theorem test_decode_encDxt3Fast : decode 0b000000000000000000000000000_0_0010#32 = .ok .encDxt3Fast := by decide
theorem test_decode_encDxt3Hq : decode 0b000000000000000000000000000_1_0010#32 = .ok .encDxt3Hq := by decide
theorem test_decode_encDxt5Fast : decode 0b000000000000000000000000000_0_0011#32 = .ok .encDxt5Fast := by decide
theorem test_decode_encDxt5Hq : decode 0b000000000000000000000000000_1_0011#32 = .ok .encDxt5Hq := by decide
theorem test_decode_encDxnFast : decode 0b000000000000000000000000000_0_0100#32 = .ok .encDxnFast := by decide
theorem test_decode_encDxnHq : decode 0b000000000000000000000000000_1_0100#32 = .ok .encDxnHq := by decide
theorem test_decode_decPvrtc2 : decode 0b000000000000000000000000000_0_1000#32 = .ok .decPvrtc2 := by decide
theorem test_decode_decPvrtc4 : decode 0b000000000000000000000000000_0_1001#32 = .ok .decPvrtc4 := by decide
theorem test_decode_refuses_by_name : decode 0x05#32 = .illegal .reservedOp ∧ decode 0x21#32 = .illegal .reservedBits ∧
    decode 0x10#32 = .illegal .qualityBit ∧ decode 0x18#32 = .illegal .qualityBit ∧ decode 0x1A#32 = .illegal .reservedOp ∧
    decode 0x80000001#32 = .illegal .reservedBits := by decide
theorem test_decodeTableWord : decodeTableWord 32 0x14 = some .encDxnHq ∧ decodeTableWord 32 0x19 = none := by decide
theorem test_withFetchWord_runs_the_word :
    (after (step (State.reset.withFetchWord 32 0x08))).status = .error .dimNotPow2 ∧
      (after (step (State.reset.withFetchWord 32 0x01))).status = .done := by decide +kernel

/-! ## Single steps -/

/-- V-ERR-17, V-ERR-18. -/
theorem test_clr_from_error : (after (exec .clr { State.reset with status := .error .dimTooSmall })).status = .idle := by decide
/-- R35: dropped while BUSY (V-REG-3). -/
theorem test_clr_while_busy : (after (exec .clr (onGr .encDxt1Fast))).status = .busy := by decide +kernel

/-- V-ENC-1. -/
theorem test_encDxt1Fast : bytesAfter (exec .encDxt1Fast (onGr .encDxt1Fast)) 0x8000 9 =
    [0x80, 0xF7, 0x60, 0x08, 0, 0, 0x55, 0x55, 0] := by decide +kernel
/-- V-ENC-2. -/
theorem test_encDxt1Hq : bytesAfter (exec .encDxt1Hq (onGr .encDxt1Hq)) 0x8000 9 =
    [0x00, 0xF8, 0xE0, 0x07, 0, 0, 0x55, 0x55, 0] := by decide +kernel
/-- V-ENC-3. -/
theorem test_encDxt3Fast : bytesAfter (exec .encDxt3Fast (onGr .encDxt3Fast)) 0x8000 17 =
    [0x10, 0x32, 0x54, 0x76, 0x98, 0xBA, 0xDC, 0xFE, 0x80, 0xF7, 0x60, 0x08, 0, 0, 0x55, 0x55, 0] := by decide +kernel
/-- V-ENC-4. -/
theorem test_encDxt3Hq : bytesAfter (exec .encDxt3Hq (onGr .encDxt3Hq)) 0x8000 17 =
    [0x10, 0x32, 0x54, 0x76, 0x98, 0xBA, 0xDC, 0xFE, 0x00, 0xF8, 0xE0, 0x07, 0, 0, 0x55, 0x55, 0] := by decide +kernel
/-- V-ENC-5. -/
theorem test_encDxt5Fast : bytesAfter (exec .encDxt5Fast (onGr .encDxt5Fast)) 0x8000 17 =
    [0xF8, 0x07, 0xC9, 0x6F, 0xB7, 0xE4, 0x26, 0x01, 0x80, 0xF7, 0x60, 0x08, 0, 0, 0x55, 0x55, 0] := by decide +kernel
/-- V-ENC-6. -/
theorem test_encDxt5Hq : bytesAfter (exec .encDxt5Hq (onGr .encDxt5Hq)) 0x8000 17 =
    [0xF8, 0x07, 0xC9, 0x6F, 0xB7, 0xE4, 0x26, 0x01, 0x00, 0xF8, 0xE0, 0x07, 0, 0, 0x55, 0x55, 0] := by decide +kernel
/-- V-ENC-7. -/
theorem test_encDxnFast : bytesAfter (exec .encDxnFast (onGr .encDxnFast)) 0x8000 17 =
    [0xF8, 0x07, 0, 0, 0, 0x49, 0x92, 0x24, 0xF8, 0x07, 0x49, 0x92, 0x24, 0, 0, 0, 0] := by decide +kernel
/-- V-ENC-8. -/
theorem test_encDxnHq : bytesAfter (exec .encDxnHq (onGr .encDxnHq)) 0x8000 17 =
    [0x07, 0xF8, 0xFF, 0xFF, 0xFF, 0xB6, 0x6D, 0xDB, 0x07, 0xF8, 0xB6, 0x6D, 0xDB, 0xFF, 0xFF, 0xFF, 0] := by decide +kernel
/-- V-PV2-5: the first tile writes the corner pixels; pixel (0, 0) at 0x8000 and pixel (15, 0) before it in the row. -/
theorem test_decPvrtc2 : bytesAfter (exec .decPvrtc2 onPv2) 0x8000 8 = [255, 0, 0, 255, 191, 0, 63, 255] ∧
    bytesAfter (exec .decPvrtc2 onPv2) 0x803C 4 = [191, 0, 63, 255] := by decide +kernel
/-- V-PV2-6 and V-PV2-4 at single pixels of their first tile: pixels (0, 1) and (1, 1). -/
theorem test_decPvrtc2_other_modes :
    bytesAfter (exec .decPvrtc2 (running .decPvrtc2 (operands 16 8 0
      (oneWord 4 [0x54, 0x55, 0x55, 0x55, 0x01, 0xFC, 0x1F, 0x80])))) 0x8040 8 = [191, 0, 63, 255, 159, 0, 95, 255] ∧
    bytesAfter (exec .decPvrtc2 (running .decPvrtc2 (operands 16 8 0
      (oneWord 4 [0x55, 0x55, 0x55, 0x55, 0x01, 0xFC, 0x1F, 0x80])))) 0x8000 8 = [255, 0, 0, 255, 159, 0, 95, 255] := by
  decide +kernel
/-- V-PV4-3: the first tile writes pixels (0, 0), (1, 0), (6, 7) and (7, 7). -/
theorem test_decPvrtc4 : bytesAfter (exec .decPvrtc4 onPv4) 0x8000 8 = [127, 127, 63, 250, 127, 63, 31, 252] ∧
    bytesAfter (exec .decPvrtc4 onPv4) 0x80F8 8 = [191, 255, 191, 242, 159, 191, 143, 245] := by decide +kernel
/-- V-PV4-2: weight 14 is punch-through. -/
theorem test_decPvrtc4_punch_through : bytesAfter (exec .decPvrtc4 (running .decPvrtc4 (operands 8 8 0
    (oneWord 4 [0xAA, 0xAA, 0xAA, 0xAA, 0x01, 0xFC, 0x1F, 0x80])))) 0x8000 4 = [127, 0, 127, 0] := by decide +kernel

/-! ## Datapath vectors -/

/-- V-565-4 to V-565-6. -/
theorem test_565 : pack565 7 3 7 = 0x0000 ∧ pack565 8 4 8 = 0x0821 ∧ pack565 200 100 50 = 0xCB26 ∧
    expand565 0xCB26 = ⟨206, 101, 49⟩ := by decide
/-- V-EP-7 to V-EP-9. -/
theorem test_order : order 0x0000 0xFFFF = (0xFFFF, 0x0000) ∧ order 0x8410 0x8410 = (0x8410, 0x8410) ∧
    order 0xF780 0x0860 = (0xF780, 0x0860) := by decide
/-- R42, V-IQ-2: the record of a flat block's tile has THREE = 1 and no exchange. -/
theorem test_last_tile_flags :
    let e := (after (exec .encDxt1Fast (running .encDxt1Fast (operands 4 4 1 (memOf 0x1000 (List.replicate 64 128)))))).lastTile.enc
    e.three = true ∧ e.swap = false ∧ e.c0 = 0x8410 := by decide +kernel
/-- V-EX-1. -/
theorem test_extract_clamps : (List.range 16).map (fun i => tilePixelAddr (operands 5 3 1 []) 0 1 0 i) =
    [0x1010, 0x1010, 0x1010, 0x1010, 0x1024, 0x1024, 0x1024, 0x1024, 0x1038, 0x1038, 0x1038, 0x1038,
      0x1038, 0x1038, 0x1038, 0x1038] := by decide
/-- V-EP-4, V-EP-3. -/
theorem test_insetRange : insetRange [10, 200, 10] 0 = (200, 10) ∧ insetRange [10, 200, 10] 5 = (15, 195) := by decide
/-- V-IQ-2, V-IQ-4, V-IQ-6. -/
theorem test_palette : palette 0x8410 0x8410 true =
    ⟨⟨132, 130, 132⟩, ⟨132, 130, 132⟩, ⟨132, 130, 132⟩, ⟨0, 0, 0⟩⟩ ∧
    fastIndex (palette 0x8410 0x8410 true) ⟨0, 0, 0, 255⟩ = 3 ∧ cascade 9 0 5 5 = 0 := by decide
/-- V-IQ-8. -/
theorem test_hqIndices : hqIndices (palette 0xF780 0x0860 true) (tileBlock (onGr .encDxt1Hq)) = 0xFFFFAAAA ∧
    hqError (palette 0xF780 0x0860 true) (tileBlock (onGr .encDxt1Hq)) = 563400 := by decide +kernel
/-- V-AL-1, V-AL-2. -/
theorem test_alternating_alpha :
    (rampBytes (hqAlpha (bytesOf ((List.range 16).map (fun i => 255 * (i % 2)))) 5)).map (·.toNat) =
      [0x07, 0xF8, 0xBE, 0xEF, 0xFB, 0xBE, 0xEF, 0xFB] ∧
    (rampBytes (fastAlpha (bytesOf ((List.range 16).map (fun i => 255 * (i % 2)))) 5)).map (·.toNat) =
      [0xF8, 0x07, 0x41, 0x10, 0x04, 0x41, 0x10, 0x04] := by decide +kernel
/-- R236: equal errors (64 each) take orientation (a), the lower error (0 against 784) orientation (b); R235: of the equal levels of a flat
channel the least index. -/
theorem test_hq_alpha_ties :
    (rampBytes (hqAlpha (bytesOf ((List.range 16).map (fun i => 100 + 80 * (i % 2)))) 5)).map (·.toNat) =
      [0xB2, 0x66, 0x41, 0x10, 0x04, 0x41, 0x10, 0x04] ∧
    hqOri (bytesOf ((List.range 16).map (fun i => 100 + 80 * (i % 2)))) 5 = false ∧
    hqOri (bytesOf ((List.range 16).map (fun i => 255 * (i % 2)))) 5 = true ∧
    (rampBytes (hqAlpha (List.replicate 16 9) 5)).map (·.toNat) = [9, 9, 0, 0, 0, 0, 0, 0] := by decide +kernel
/-- V-TW-2, V-TW-3. -/
theorem test_twiddle : (List.range 4).map (fun x => twiddleUV 4 2 x 1) = [1, 3, 5, 7] ∧
    (List.range 4).map (fun y => twiddleUV 2 4 1 y) = [2, 3, 6, 7] := by decide +kernel
/-- V-CA-3, V-CA-7, V-CA-10. -/
theorem test_word_colors : colorA 0x7FFE = pvColor 31 31 31 14 ∧ colorA 0x3A5C = pvColor 21 10 27 6 ∧
    colorB 0x3A5C0000 = pvColor 21 10 25 6 := by decide
/-- V-ERR-3, 6, 7, 8, 9, 10, 11, 12, 13, 14, 15, 16. -/
theorem test_start_checks :
    startChecks .decPvrtc2 (operands 8 8 1 []) = some .dimTooSmall ∧
    startChecks .decPvrtc4 (operands 12 8 1 []) = some .dimNotPow2 ∧
    startChecks .decPvrtc4 (operands 0 8 1 []) = some .dimNotPow2 ∧
    startChecks .decPvrtc2 (operands 12 4 1 []) = some .dimNotPow2 ∧
    startChecks .decPvrtc2 (operands 8 4 1 []) = some .dimTooSmall ∧
    startChecks .decPvrtc4 (operands 4 8 1 []) = some .dimTooSmall ∧
    startChecks .encDxt1Fast { operands 4 4 1 [] with srcLo := 0xFFFFFFF0, srcHi := 0xFFFFFFFF } = some .range ∧
    startChecks .encDxt1Fast { operands 4 4 1 [] with dstLo := 0xFFFFFFF8, dstHi := 0xFFFFFFFF } = none ∧
    startChecks .encDxt1Fast { operands 4 4 1 [] with dstLo := 0x1000 } = some .overlap ∧
    startChecks .decPvrtc4 { operands 8 8 1 [] with dstLo := 0x0FF0 } = some .overlap ∧
    startChecks .decPvrtc4 { operands 8 8 1 [] with dstLo := 0x1020 } = none ∧
    startChecks .encDxt1Fast { operands 0 4 1 [] with dstLo := 0x1000 } = none := by decide +kernel

/-! ## Witnesses: a state and operands that meet each statement's hypotheses -/

/-- `i` running on an image of W × H × D zero bytes. -/
def blank (i : Instr) (w h d : Nat) : State := running i (operands w h d [])

/-- `s` where only the source `[0x1000, 0x1100)` and the first block of the destination hold memory. -/
def onlyTwoRegions (s : State) : State :=
  { s with params := { s.params with admitted := [⟨0x1000, 0x100⟩, ⟨0x8000, 8⟩] } }

/-- `s` where reads of the byte at `a` are not stable. -/
def unstableAt (a : Nat) (s : State) : State := { s with params := { s.params with unstable := [⟨a, 1⟩] } }

theorem not_busy {s : State} (h : s.status = .idle) : s.status ≠ .busy := by rw [h]; decide

/-- `s` with these events. -/
def withEvents (es : List Event) (s : State) : State := { s with events := es }

theorem inv_running (i : Instr) (s : State) (hm : Memory.wf s.mem) (hc : startChecks i s = none) (hn : s.tc < tilesOf i s)
    (hu : s.unseen.last = [] := by rfl) :
    Inv (running i s) where
  memWf := hm
  startWf := hm
  running := fun _ => ⟨i, decode_encode_word i, hc, rfl, hn⟩
  finished := fun h => nomatch h
  quiet := fun h => absurd rfl h
  recorded := fun _ _ _ _ h => nomatch h
  seen := fun _ => hu

theorem inv_onPv2 : Inv onPv2 := inv_running _ _ (by decide +kernel) (by decide +kernel) (by decide +kernel)
theorem inv_onPv4 : Inv onPv4 := inv_running _ _ (by decide +kernel) (by decide +kernel) (by decide +kernel)
theorem inv_onGr : Inv (onGr .encDxt5Hq) := inv_running _ _ (by decide +kernel) (by decide +kernel) (by decide +kernel)

/-- Below the register block of the reset parameters, every address is admitted. -/
theorem admitted_at_reset (a : Nat) (h : a < 0xFFFFFFFF00000000) : engineAdmits Params.atReset a = true := by
  have hr : Params.atReset.regBase.toNat = 0xFFFFFFFF00000000 := by decide
  simp only [engineAdmits, admits, inRegBlock, hr]
  simp [inRegion, Params.atReset]
  omega

theorem regions_admitted (i : Instr) (s : State) (hp : s.params = Params.atReset)
    (hs : srcAddr s + srcLen i s ≤ 0xFFFFFFFF00000000) (hd : dstAddr s + dstLen i s ≤ 0xFFFFFFFF00000000) :
    RegionsAdmitted i s := by
  intro a h
  rw [hp]
  refine admitted_at_reset a ?_
  simp only [inSource, inDest, decide_eq_true_eq] at h
  omega

/-- A running command and an idle machine both meet it; the boundary addresses of the destination 0x8000 to 0x8007 lie outside. -/
theorem witness_ResetClearsRegistersAndKeepsMemory :
    ∃ s es, s.events = .reset :: es ∧ Memory.wf s.mem ∧ runningInstr s = some .encDxt1Fast ∧
      inDest .encDxt1Fast s 0x7FFF = false ∧ inDest .encDxt1Fast s 0x8008 = false :=
  ⟨withEvents [.reset] (onGr .encDxt1Fast), [], by decide +kernel⟩

/-- The first and the last byte of the destination. -/
theorem witness_ResetLeavesOldOrNewDestinationBytes :
    ∃ s es i, s.events = .reset :: es ∧ Running i s ∧ RaceFree s ∧ Memory.wf s.mem ∧
      tileAdmitted s.params (nextTile i s) = true ∧ inDest i s 0x8000 = true ∧ engineAdmits s.params 0x8000 = true ∧
      inDest i s 0x8007 = true ∧ engineAdmits s.params 0x8007 = true :=
  ⟨withEvents [.reset] (onGr .encDxt1Fast), [], .encDxt1Fast, by decide +kernel⟩

/-- R390, R72: a command whose second tile is not admitted is not stuck at its first one, so reset leaves each byte of its first block
old or new, and it keeps the second block, which the engine does not write. -/
theorem test_reset_before_a_stuck_tile :
    let s := onlyTwoRegions (blank .encDxt1Fast 5 3 1)
    isStuck .encDxt1Fast s = false ∧ isStuck .encDxt1Fast (after (exec .encDxt1Fast s)) = true ∧
      Memory.readBytes (engineMem .encDxt1Fast s) 0x8008 8 = Memory.readBytes s.mem 0x8008 8 := by decide +kernel

/-- An idle machine, and a BUSY one that the host polls. -/
theorem witness_HostReadAnswersTheRegisterAndTheStatusWord :
    (∃ (s : State) (es : List Event), s.events = .host (.rd 0) :: es ∧ s.status = .idle) ∧
    (∃ (s : State) (es : List Event), s.events = .host (.rd 1) :: es ∧ s.status = .busy) ∧ ∃ t : Status, stateField t ≠ 3 :=
  ⟨⟨withEvents [.host (.rd 0)] State.reset, [], rfl, rfl⟩,
    ⟨withEvents [.host (.rd 1)] (blank .encDxt1Fast 4 4 1), [], rfl, rfl⟩, .busy, by decide⟩

/-- R34, R360: STATUS reads 1 while BUSY, and `(e << 4) | 3` after each error. -/
theorem test_read_status :
    (after (step (withEvents [.host (.rd 1)] (blank .encDxt1Fast 4 4 1)))).rx = .word 1 ∧
    [ErrCode.unsupported, .dimNotPow2, .dimTooSmall, .range, .overlap].map (fun c =>
      (after (step (withEvents [.host (.rd 1)] { State.reset with status := .error c }))).rx) =
      [.word 0x13, .word 0x23, .word 0x33, .word 0x43, .word 0x53] := by
  decide +kernel

/-- STATUS, the first and the last operand register, and the first and the last reserved offset. -/
theorem witness_OperandRegistersReadBackWhatWasWritten :
    ∀ r ∈ [(1 : Fin 16), 2, 8, 9, 15], ∃ (s : State) (v : Word), s.status ≠ .busy ∧ r ≠ 0 ∧
      s.events = [.host (.wr r v), .host (.rd r)] :=
  fun r hr => ⟨withEvents [.host (.wr r 0xFFFFFFFF), .host (.rd r)] State.reset, 0xFFFFFFFF, not_busy rfl,
    by rintro rfl; exact absurd hr (by decide), rfl⟩

/-- Its three clauses: BUSY; CMD, with a legal word and with an illegal one; the operand registers 2 and 8. -/
theorem witness_RegisterWritesStoreStartOrAreDropped :
    (∃ (s : State) (es : List Event), s.events = .host (.wr 6 16) :: es ∧ s.status = .busy) ∧
    (∃ (s : State) (es : List Event) (i : Instr),
      s.events = .host (.wr 0 0x13) :: es ∧ s.status ≠ .busy ∧ decode 0x13 = .ok i) ∧
    (∃ (s : State) (es : List Event) (e : DecodeError),
      s.events = .host (.wr 0 0x18) :: es ∧ s.status ≠ .busy ∧ decode 0x18 = .illegal e) ∧
    ∀ r ∈ [(2 : Fin 16), 8], ∃ (s : State) (es : List Event), s.events = .host (.wr r 5) :: es ∧ s.status ≠ .busy ∧
      2 ≤ r.val ∧ r.val ≤ 8 :=
  ⟨⟨withEvents [.host (.wr 6 16)] (blank .encDxt1Fast 4 4 1), [], rfl, rfl⟩,
    ⟨withEvents [.host (.wr 0 0x13)] State.reset, [], .encDxt5Hq, rfl, by decide, by decide⟩,
    ⟨withEvents [.host (.wr 0 0x18)] State.reset, [], .qualityBit, rfl, by decide, by decide⟩,
    fun r hr => ⟨withEvents [.host (.wr r 5)] State.reset, [], rfl, not_busy rfl,
      by rcases List.mem_pair.1 hr with rfl | rfl <;> decide⟩⟩

theorem witness_RunningCommandKeepsItsOperands :
    ∃ s t : State, s.status = .busy ∧ (∀ es, s.events ≠ .reset :: es) ∧ step s = .next t :=
  ⟨blank .encDxt1Fast 4 4 1, _, rfl, nofun, rfl⟩

/-- A start, a completion and a reset. -/
theorem witness_StatusChangesOnlyAtStartCompletionClrOrReset :
    ∀ s ∈ [withEvents [.host (.wr 0 0x5)] State.reset, blank .encDxt1Fast 4 4 1,
      withEvents [.reset] (blank .encDxt1Fast 4 4 1)],
      ∃ t, step s = .next t ∧ t.status ≠ s.status := by
  intro s hs
  simp only [List.mem_cons, List.not_mem_nil, or_false] at hs
  obtain rfl | rfl | rfl := hs
  · exact ⟨_, rfl, by decide +kernel⟩
  · exact ⟨_, rfl, by decide +kernel⟩
  · exact ⟨_, rfl, by decide +kernel⟩

/-- No memory move; a move that ends on the first byte of the register block, and one on its last byte; a move over the end of
memory; a move that ends with the last byte of memory. -/
theorem witness_OnlyHostMemoryMovesStopTheMachine :
    ((∀ a bs es, State.reset.events ≠ .host (.mw a bs) :: es) ∧ ∀ a n es, State.reset.events ≠ .host (.mr a n) :: es) ∧
    (let s := withEvents [.host (.mw 0xFFFFFFFEFFFFFFFF [1, 2])] State.reset;
      (∃ bs es, bs.length = 2 ∧ s.events = .host (.mw 0xFFFFFFFEFFFFFFFF bs) :: es) ∧
      ∃ k, k < 2 ∧ inRegBlock s.params (0xFFFFFFFEFFFFFFFF + k) = true) ∧
    (let s := withEvents [.host (.mr 0xFFFFFFFF0000003F 1)] State.reset;
      (∃ es, s.events = .host (.mr 0xFFFFFFFF0000003F 1) :: es) ∧
      ∃ k, k < 1 ∧ inRegBlock s.params (0xFFFFFFFF0000003F + k) = true) ∧
    (let s := withEvents [.host (.mr 0xFFFFFFFFFFFFFFFF 2)] State.reset;
      (∃ es, s.events = .host (.mr 0xFFFFFFFFFFFFFFFF 2) :: es) ∧
      (∀ k, k < 2 → inRegBlock s.params (0xFFFFFFFFFFFFFFFF + k) = false) ∧
      ∃ k, k < 2 ∧ admits s.params (0xFFFFFFFFFFFFFFFF + k) = false) ∧
    (let s := withEvents [.host (.mr 0xFFFFFFFFFFFFFFFE 2)] State.reset;
      (∃ es, s.events = .host (.mr 0xFFFFFFFFFFFFFFFE 2) :: es) ∧
      (∀ k, k < 2 → inRegBlock s.params (0xFFFFFFFFFFFFFFFE + k) = false) ∧
      ∀ k, k < 2 → admits s.params (0xFFFFFFFFFFFFFFFE + k) = true) :=
  ⟨⟨nofun, nofun⟩, ⟨⟨[1, 2], [], rfl, rfl⟩, 1, by decide +kernel⟩, ⟨⟨[], rfl⟩, 0, by decide +kernel⟩,
    ⟨⟨[], rfl⟩, by decide +kernel, 1, by decide +kernel⟩, ⟨[], rfl⟩, by decide +kernel, by decide +kernel⟩

theorem witness_HostMemoryMovesReadBack :
    ∃ (s : State) (addr : DWord) (bs : List Byte), s.status ≠ .busy ∧ Memory.wf s.mem ∧
      (∀ k, k < bs.length → admits s.params (addr.toNat + k) = true ∧ inRegBlock s.params (addr.toNat + k) = false ∧
        isUnstable s.params (addr.toNat + k) = false ∧ s.unseen.coming (addr.toNat + k) = false) ∧
      s.events = [.host (.mw addr bs), .host (.mr addr bs.length)] :=
  ⟨withEvents [.host (.mw 0x2000 [1, 0, 3]), .host (.mr 0x2000 3)] State.reset, 0x2000, [1, 0, 3], by decide +kernel⟩

/-- An MR while BUSY, of the byte after the destination. -/
theorem witness_HostMemoryMovesReadBack_while_busy :
    ∃ (s : State) (es : List Event), s.status = .busy ∧ s.events = .host (.mr 0x8008 1) :: es ∧
      admits s.params 0x8008 = true ∧ inRegBlock s.params 0x8008 = false ∧ isUnstable s.params 0x8008 = false ∧
      ∀ i, runningInstr s = some i → inDest i s 0x8008 = false := by
  refine ⟨withEvents [.host (.mr 0x8008 1)] (onGr .encDxt1Fast), [], rfl, rfl, by decide +kernel, by decide +kernel,
    by decide +kernel, fun i h => ?_⟩
  have e : runningInstr (withEvents [.host (.mr 0x8008 1)] (onGr .encDxt1Fast)) = some .encDxt1Fast := by decide +kernel
  rw [e] at h
  cases h
  decide +kernel

/-- A host write of the last byte of a destination that waits to be seen, and of the byte after it; then an encode command. -/
theorem witness_HostWritesReachTheNextCommand :
    ∃ s : State, s.status ≠ .busy ∧ Memory.wf s.mem ∧ s.events = [.host (.mw 0x8007 [5, 6]), .host (.wr 0 1)] ∧
      (∀ k, k < 2 → admits s.params (0x8007 + k) = true ∧ inRegBlock s.params (0x8007 + k) = false) ∧
      s.unseen.coming 0x8007 = true ∧ s.unseen.coming 0x8008 = false :=
  ⟨withEvents [.host (.mw 0x8007 [5, 6]), .host (.wr 0 1)] (after (exec .encDxt1Fast (onGr .encDxt1Fast))), by decide +kernel⟩

/-- R392: after a reset that abandons a command, a host write to a byte of its destination stands in memory and is the last word. -/
theorem test_host_write_after_reset :
    let s := after (step (withEvents [.reset] (onGr .encDxt1Fast)))
    let t := after (step (withEvents [.host (.mw 0x8007 [5])] { State.reset with unseen := s.unseen }))
    s.status = .idle ∧ s.unseen.values 0x8007 = [0] ∧ Memory.read t.mem 0x8007 = 5 ∧ t.unseen.values 0x8007 = [] ∧
      t.unseen.values 0x8006 = [0] := by decide +kernel

/-- A reserved `OP`, `Q = 1` with CLR, and each end of `RSV`. -/
theorem witness_IllegalWordEndsWithUnsupported :
    ∀ w ∈ [0x05#32, 0x10#32, 0x20#32, 0x80000001#32], ∃ (s : State) (es : List Event), s.status ≠ .busy ∧
      s.events = .host (.wr 0 w) :: es ∧
      w ∉ [0x00#32, 0x01#32, 0x11#32, 0x02#32, 0x12#32, 0x03#32, 0x13#32, 0x04#32, 0x14#32, 0x08#32, 0x09#32] := by
  intro w hw
  refine ⟨withEvents [.host (.wr 0 w)] State.reset, [], not_busy rfl, rfl, ?_⟩
  simp only [List.mem_cons, List.not_mem_nil, or_false] at hw
  rcases hw with rfl | rfl | rfl | rfl <;> decide

/-- A write to CMD; an engine event; no event. -/
theorem witness_StepRunsTheDecodedCommand :
    (∃ (s : State) (i : Instr) (es : List Event) (w : Word), s.status ≠ .busy ∧ s.events = .host (.wr 0 w) :: es ∧
      decode w = .ok i) ∧
    (∃ (s : State) (i : Instr) (es : List Event), s.status = .busy ∧ decode s.cmd = .ok i ∧ s.events = .engine :: es) ∧
    ∃ (s : State) (i : Instr), s.status = .busy ∧ decode s.cmd = .ok i ∧ s.events = [] :=
  ⟨⟨withEvents [.host (.wr 0 0x04)] State.reset, .encDxnFast, [], 0x04, by decide, rfl, by decide⟩,
    ⟨withEvents [.engine] (blank .decPvrtc2 16 8 0), .decPvrtc2, [], rfl, by decide, rfl⟩,
    blank .encDxt3Hq 4 4 1, .encDxt3Hq, rfl, by decide, rfl⟩

theorem witness_ClrReturnsStatusToIdle :
    (∃ (s : State) (es : List Event), s.status = .error .overlap ∧ s.status ≠ .busy ∧ s.events = .host (.wr 0 0) :: es) ∧
    ∃ (s : State) (es : List Event), s.status = .busy ∧ s.events = .host (.wr 0 0) :: es :=
  ⟨⟨withEvents [.host (.wr 0 0)] { State.reset with status := .error .overlap }, [], rfl, by decide, rfl⟩,
    withEvents [.host (.wr 0 0)] (blank .encDxt1Fast 4 4 1), [], rfl, rfl⟩

/-- Both families; each outcome at the boundary of its range stands in `test_start_checks`. -/
theorem witness_StartChecksReportTheFirstFailure :
    (∀ i ∈ [Instr.encDxt1Fast, .encDxt1Hq, .encDxt3Fast, .encDxt3Hq, .encDxt5Fast, .encDxt5Hq, .encDxnFast, .encDxnHq],
      ∃ f q, kindOf i = .enc f q) ∧ ∀ i ∈ [Instr.decPvrtc2, .decPvrtc4], ∃ b, kindOf i = .dec b := by
  constructor
  · intro i hi
    simp only [List.mem_cons, List.not_mem_nil, or_false] at hi
    rcases hi with rfl | rfl | rfl | rfl | rfl | rfl | rfl | rfl <;> exact ⟨_, _, rfl⟩
  · intro i hi
    rcases List.mem_pair.1 hi with rfl | rfl <;> exact ⟨_, rfl⟩

/-- The least and the greatest sizes and addresses that pass or fail the range and the size checks. -/
theorem test_start_check_boundaries :
    startChecks .encDxt1Fast { operands 4 4 1 [] with dstLo := 0xFFFFFFF9, dstHi := 0xFFFFFFFF } = some .range ∧
    startChecks .encDxt1Fast { operands 4 4 1 [] with dstLo := 0x103F } = some .overlap ∧
    startChecks .encDxt1Fast { operands 4 4 1 [] with dstLo := 0x1040 } = none ∧
    startChecks .decPvrtc2 (operands 16 8 0 []) = none ∧ startChecks .decPvrtc4 (operands 8 8 0 []) = none ∧
    startChecks .decPvrtc2 (operands 16 4 0 []) = some .dimTooSmall ∧
    startChecks .decPvrtc4 (operands 8 1 0 []) = some .dimTooSmall := by decide +kernel

/-- Each of the five codes. -/
theorem witness_FailedCheckTakesTheErrorEntry :
    (∃ (s : State) (es : List Event), s.status ≠ .busy ∧ s.events = .host (.wr 0 0x21) :: es ∧
      ∃ e, decode 0x21 = .illegal e) ∧
    ∀ p ∈ [((0x09 : Word), operands 12 8 1 [], ErrCode.dimNotPow2), (0x08, operands 8 8 1 [], .dimTooSmall),
        (0x01, { operands 4 4 1 [] with srcLo := 0xFFFFFFF0, srcHi := 0xFFFFFFFF }, .range),
        (0x01, { operands 4 4 1 [] with dstLo := 0x1000 }, .overlap)],
      ∃ (s : State) (es : List Event) (i : Instr), s.status ≠ .busy ∧ s.events = .host (.wr 0 p.1) :: es ∧
        decode p.1 = .ok i ∧ startChecks i s = some p.2.2 := by
  refine ⟨⟨withEvents [.host (.wr 0 0x21)] State.reset, [], by decide, rfl, .reservedBits, by decide⟩, ?_⟩
  intro p hp
  simp only [List.mem_cons, List.not_mem_nil, or_false] at hp
  rcases hp with rfl | rfl | rfl | rfl
  · exact ⟨withEvents [.host (.wr 0 0x09)] (operands 12 8 1 []), [], .decPvrtc4, by decide, rfl, by decide, by decide +kernel⟩
  · exact ⟨withEvents [.host (.wr 0 0x08)] (operands 8 8 1 []), [], .decPvrtc2, by decide, rfl, by decide, by decide +kernel⟩
  · exact ⟨withEvents [.host (.wr 0 0x01)] { operands 4 4 1 [] with srcLo := 0xFFFFFFF0, srcHi := 0xFFFFFFFF }, [],
      .encDxt1Fast, by decide, rfl, by decide, by decide +kernel⟩
  · exact ⟨withEvents [.host (.wr 0 0x01)] { operands 4 4 1 [] with dstLo := 0x1000 }, [], .encDxt1Fast, by decide, rfl,
      by decide, by decide +kernel⟩

/-- With no tile (V-ENC-12); with one, over a stable source and over an unstable last source byte. -/
theorem witness_EncodeCommandStarts :
    (∀ w ∈ [0, 4], ∃ (i : Instr) (f : Fmt) (q : Quality) (s : State), kindOf i = .enc f q ∧ s.status ≠ .busy ∧
      startChecks i s = none ∧ s.width.toNat = w) ∧
    ∃ s : State, s.status ≠ .busy ∧ startChecks .encDxt1Fast s = none ∧ encTiles s ≠ 0 ∧
      inSource .encDxt1Fast s 0x103F = true ∧ isUnstable s.params 0x103F = true := by
  refine ⟨fun w hw => ?_, unstableAt 0x103F (operands 4 4 1 []), by decide +kernel⟩
  rcases List.mem_pair.1 hw with rfl | rfl
  · exact ⟨.encDxt1Fast, _, _, operands 0 4 1 [], rfl, by decide, by decide +kernel, rfl⟩
  · exact ⟨.encDxt1Fast, _, _, operands 4 4 1 [], rfl, by decide, by decide +kernel, rfl⟩

/-- The least images; and one over an unstable first source byte. -/
theorem witness_DecodeCommandStarts :
    (∃ s : State, kindOf .decPvrtc2 = .dec .two ∧ s.status ≠ .busy ∧ startChecks .decPvrtc2 s = none ∧
      s.width = 16 ∧ s.height = 8) ∧
    (∃ s : State, kindOf .decPvrtc4 = .dec .four ∧ s.status ≠ .busy ∧ startChecks .decPvrtc4 s = none ∧
      s.width = 8 ∧ s.height = 8) ∧
    ∃ s : State, s.status ≠ .busy ∧ startChecks .decPvrtc4 s = none ∧ inSource .decPvrtc4 s 0x1000 = true ∧
      isUnstable s.params 0x1000 = true :=
  ⟨⟨operands 16 8 0 [], rfl, by decide, by decide +kernel, rfl, rfl⟩,
    ⟨operands 8 8 0 [], rfl, by decide, by decide +kernel, rfl, rfl⟩,
    unstableAt 0x1000 (operands 8 8 0 []), by decide +kernel⟩

/-- What the hypotheses of the eight tile statements ask, at a tile that is the last one and at one that is not. -/
def tileWitness (i : Instr) : Prop :=
  (∃ s, TileReady i s ∧ (s.tc + 1 = s.nt → RaceFree s) ∧ Memory.wf s.mem ∧ s.tc + 1 = s.nt) ∧
    ∃ s, TileReady i s ∧ (s.tc + 1 = s.nt → RaceFree s) ∧ Memory.wf s.mem ∧ s.tc + 1 < s.nt

theorem witness_EncDxt1FastTileWritesItsBlock : tileWitness .encDxt1Fast :=
  ⟨⟨blank .encDxt1Fast 1 1 1, by decide +kernel⟩, blank .encDxt1Fast 5 3 1, by decide +kernel⟩
theorem witness_EncDxt1HqTileWritesItsBlock : tileWitness .encDxt1Hq :=
  ⟨⟨blank .encDxt1Hq 1 1 1, by decide +kernel⟩, blank .encDxt1Hq 5 3 1, by decide +kernel⟩
theorem witness_EncDxt3FastTileWritesItsBlock : tileWitness .encDxt3Fast :=
  ⟨⟨blank .encDxt3Fast 1 1 1, by decide +kernel⟩, blank .encDxt3Fast 5 3 1, by decide +kernel⟩
theorem witness_EncDxt3HqTileWritesItsBlock : tileWitness .encDxt3Hq :=
  ⟨⟨blank .encDxt3Hq 1 1 1, by decide +kernel⟩, blank .encDxt3Hq 5 3 1, by decide +kernel⟩
theorem witness_EncDxt5FastTileWritesItsBlock : tileWitness .encDxt5Fast :=
  ⟨⟨blank .encDxt5Fast 1 1 1, by decide +kernel⟩, blank .encDxt5Fast 5 3 1, by decide +kernel⟩
theorem witness_EncDxt5HqTileWritesItsBlock : tileWitness .encDxt5Hq :=
  ⟨⟨blank .encDxt5Hq 1 1 1, by decide +kernel⟩, blank .encDxt5Hq 5 3 1, by decide +kernel⟩
theorem witness_EncDxnFastTileWritesItsBlock : tileWitness .encDxnFast :=
  ⟨⟨blank .encDxnFast 1 1 1, by decide +kernel⟩, blank .encDxnFast 5 3 1, by decide +kernel⟩
theorem witness_EncDxnHqTileWritesItsBlock : tileWitness .encDxnHq :=
  ⟨⟨blank .encDxnHq 1 1 1, by decide +kernel⟩, blank .encDxnHq 5 3 1, by decide +kernel⟩

theorem witness_DecPvrtc2TileWritesItsPixels :
    ∃ s, Inv s ∧ TileReady .decPvrtc2 s ∧ (s.tc + 1 = s.nt → RaceFree s) := ⟨onPv2, inv_onPv2, by decide +kernel⟩
theorem witness_DecPvrtc4TileWritesItsPixels :
    ∃ s, Inv s ∧ TileReady .decPvrtc4 s ∧ (s.tc + 1 = s.nt → RaceFree s) := ⟨onPv4, inv_onPv4, by decide +kernel⟩

theorem witness_EveryStepKeepsTheInvariant : ∃ s t : State, Inv s ∧ step s = .next t ∧ s.status = .busy :=
  ⟨onPv2, _, inv_onPv2, rfl, rfl⟩

/-- `s` where only `[base, base + size)` holds memory. -/
def onlyMemory (base size : Nat) (s : State) : State :=
  { s with params := { s.params with admitted := [⟨base, size⟩] } }

/-- V-ERR-19: an unadmitted source byte; and an unadmitted destination byte. -/
theorem witness_UnadmittedByteLeavesTheEngineStuck :
    (∃ s, Instr.encDxt1Fast ≠ .clr ∧ Running .encDxt1Fast s ∧
      ∃ a ∈ (nextTile .encDxt1Fast s).reads, engineAdmits s.params a = false) ∧
    ∃ s, Instr.encDxt1Fast ≠ .clr ∧ Running .encDxt1Fast s ∧
      ∃ c ∈ (nextTile .encDxt1Fast s).writes, engineAdmits s.params c.1 = false :=
  ⟨⟨onlyMemory 0x8000 8 (blank .encDxt1Fast 4 4 1), by decide, by decide, by decide +kernel⟩,
    onlyMemory 0x1000 64 (blank .encDxt1Fast 4 4 1), by decide, by decide, by decide +kernel⟩

/-- A decode command; an encode command. -/
theorem witness_TileStaysInItsRegions :
    (∃ (i : Instr) (s : State), Inv s ∧ Running i s ∧ ∃ b, kindOf i = .dec b) ∧
    ∃ (i : Instr) (s : State), Inv s ∧ Running i s ∧ ∃ f q, kindOf i = .enc f q :=
  ⟨⟨.decPvrtc4, onPv4, inv_onPv4, by decide, _, rfl⟩, .encDxt5Hq, onGr .encDxt5Hq, inv_onGr, by decide, _, _, rfl⟩

/-- With no tile and with two. -/
theorem witness_EncodeCommandWritesEveryBlock :
    ∀ w ∈ [0, 5], ∃ (i : Instr) (f : Fmt) (q : Quality) (s : State), kindOf i = .enc f q ∧ s.status ≠ .busy ∧
      s.events = [.host (.wr 0 (encode i))] ∧ Memory.wf s.mem ∧ startChecks i s = none ∧ RegionsAdmitted i s ∧
      sourceUnstable i s = false ∧ s.width.toNat = w := by
  intro w hw
  rcases List.mem_pair.1 hw with rfl | rfl
  · exact ⟨.encDxt5Hq, _, _, withEvents [.host (.wr 0 0x13)] (operands 0 3 1 []), rfl, by decide, rfl, by decide, by decide +kernel,
      regions_admitted _ _ rfl (by decide +kernel) (by decide +kernel), by decide +kernel, rfl⟩
  · exact ⟨.encDxt5Hq, _, _, withEvents [.host (.wr 0 0x13)] (operands 5 3 1 []), rfl, by decide, rfl, by decide, by decide +kernel,
      regions_admitted _ _ rfl (by decide +kernel) (by decide +kernel), by decide +kernel, rfl⟩

theorem witness_DecodeCommandWritesEveryPixel :
    ∃ (i : Instr) (b : Bpp) (s : State), kindOf i = .dec b ∧ s.status ≠ .busy ∧
      s.events = [.host (.wr 0 (encode i))] ∧ Memory.wf s.mem ∧ startChecks i s = none ∧ RegionsAdmitted i s ∧
      sourceUnstable i s = false :=
  ⟨.decPvrtc2, _, withEvents [.host (.wr 0 0x08)] (operands 16 8 0 []), rfl, by decide, rfl, by decide, by decide +kernel,
    regions_admitted _ _ rfl (by decide +kernel) (by decide +kernel), by decide +kernel⟩

/-- The first and the last pixel. -/
theorem witness_EveryPixelBelongsToOneTile :
    ∃ (i : Instr) (b : Bpp) (s : State), kindOf i = .dec b ∧ startChecks i s = none ∧ 0 < opW s ∧ 0 < opH s ∧
      15 < opW s ∧ 7 < opH s :=
  ⟨.decPvrtc2, _, operands 16 8 0 [], rfl, by decide +kernel⟩

/-- The first and the last byte of the destination. -/
theorem witness_RacedReadReturnsOldOrNewByte :
    ∀ addr ∈ [(0x8000 : DWord), 0x8007], ∃ (s : State) (i : Instr) (es : List Event),
      s.events = .host (.mr addr 1) :: es ∧ Running i s ∧ RaceFree s ∧ tileAdmitted s.params (nextTile i s) = true ∧
      inDest i s addr.toNat = true ∧ engineAdmits s.params addr.toNat = true := by
  intro addr ha
  refine ⟨withEvents [.host (.mr addr 1)] (onGr .encDxt1Fast), .encDxt1Fast, [], rfl, ⟨rfl, rfl⟩, ⟨rfl, rfl⟩, ?_, ?_, ?_⟩ <;>
    (rcases List.mem_pair.1 ha with rfl | rfl <;> decide +kernel)

/-- A command that reaches DONE; and one whose second tile is not admitted. -/
theorem witness_EngineMemIsWhatTheStepsLeave :
    (∃ (i : Instr) (s : State), Inv s ∧ Running i s ∧ RaceFree s ∧ s.events = [] ∧ RegionsAdmitted i s) ∧
    ∃ (i : Instr) (s : State), Inv s ∧ Running i s ∧ RaceFree s ∧ s.events = [] ∧
      isStuck i s = false ∧ isStuck i (after (step s)) = true :=
  ⟨⟨.encDxt5Hq, onGr .encDxt5Hq, inv_onGr, by decide, by decide, rfl,
      regions_admitted _ _ rfl (by decide +kernel) (by decide +kernel)⟩,
    .encDxt1Fast, onlyTwoRegions (blank .encDxt1Fast 5 3 1),
    inv_running .encDxt1Fast (onlyTwoRegions (operands 5 3 1 [])) (by decide) (by decide +kernel) (by decide +kernel),
    by decide +kernel⟩

/-- Bytes of the destination (its last one and the one after it) and of the source (the one before it and its first one). -/
theorem witness_HostWriteWhileBusyIsRecorded :
    ∀ addr ∈ [(0x800F : DWord), 0x0FFF], ∃ (i : Instr) (s : State) (bs : List Byte) (es : List Event), Inv s ∧ Running i s ∧
      s.events = .host (.mw addr bs) :: es ∧ bs.length = 2 ∧
      (∀ k, k < bs.length → admits s.params (addr.toNat + k) = true ∧ inRegBlock s.params (addr.toNat + k) = false) ∧
      (inDest i s addr.toNat = true ∧ inDest i s (addr.toNat + 1) = false ∨
        inSource i s addr.toNat = false ∧ inSource i s (addr.toNat + 1) = true) := by
  intro addr ha
  refine ⟨.encDxt5Hq, withEvents [.host (.mw addr [5, 6])] (onGr .encDxt5Hq), [5, 6], [],
    inv_running .encDxt5Hq (withEvents [.host (.mw addr [5, 6])] (operands 4 4 1 (memOf 0x1000 grBytes))) ?_ ?_ ?_,
    ⟨rfl, rfl⟩, rfl, rfl, ?_, ?_⟩ <;> (rcases List.mem_pair.1 ha with rfl | rfl <;> decide +kernel)

/-- R86: a destination byte waits for DONE, and a source byte taints the command. -/
theorem test_host_write_while_busy :
    let s := after (step (withEvents [.host (.mw 0x800F [5, 6])] (onGr .encDxt5Hq)))
    let t := after (step (withEvents [.host (.mw 0x0FFF [5, 6])] (onGr .encDxt5Hq)))
    s.race.hostWrites = [(0x800F, 5)] ∧ s.race.tainted = false ∧ Memory.readBytes s.mem 0x800F 2 = [0, 6] ∧
      t.race.hostWrites = [] ∧ t.race.tainted = true ∧ Memory.readBytes t.mem 0x0FFF 2 = [5, 6] := by decide +kernel

/-- With the source untouched, with a host write to the destination, and with a tainted source, the last byte of the destination
admitted. -/
theorem witness_CompletionSettlesTheRaces :
    ∀ r ∈ [Race.none, ⟨[], false, [(0x8003, 7)]⟩, ⟨[], true, []⟩], ∃ (i : Instr) (s : State), i ≠ .clr ∧ TileReady i s ∧
      s.tc + 1 = s.nt ∧ Memory.wf s.mem ∧ s.race = r ∧ 7 < dstLen i s ∧ engineAdmits s.params (dstAddr s + 7) = true := by
  intro r hr
  refine ⟨.encDxt1Fast, { blank .encDxt1Fast 4 4 1 with race := r }, by decide, ?_, ?_, ?_, rfl, ?_, ?_⟩ <;>
    (simp only [List.mem_cons, List.not_mem_nil, or_false] at hr; obtain rfl | rfl | rfl := hr <;> decide +kernel)

/-- The invariant with a tainted command at its last tile, and with a recorded host write; the address is the one after the
destination. -/
theorem witness_CompletionSettlesTheRaces_outside :
    ∀ r ∈ [(⟨[], true, []⟩ : Race), ⟨[], false, [(0x8003, 7)]⟩], ∃ s : State, TileReady .encDxt1Fast s ∧ s.tc + 1 = s.nt ∧
      Inv s ∧ s.race = r ∧ inDest .encDxt1Fast s 0x8008 = false ∧ inDest .encDxt1Fast s 0x8007 = true := by
  intro r hr
  have hi : Inv (blank .encDxt1Fast 4 4 1) :=
    inv_running _ (operands 4 4 1 []) (by decide) (by decide +kernel) (by decide +kernel)
  refine ⟨{ blank .encDxt1Fast 4 4 1 with race := r }, ?_, ?_,
    ⟨hi.memWf, ?_, hi.running, hi.finished, fun h => absurd rfl h, fun _ i hd => ?_, fun _ => rfl⟩, rfl, ?_, ?_⟩
  case refine_4 =>
    have e : i = .encDxt1Fast := by
      have h : decode (encode .encDxt1Fast) = .ok i := hd
      rw [decode_encode_word] at h
      cases h
      rfl
    subst e
    rcases List.mem_pair.1 hr with rfl | rfl <;> decide +kernel
  all_goals (rcases List.mem_pair.1 hr with rfl | rfl) <;> decide +kernel

/-- A command that is DONE, unpolled, and the first and the last byte of its destination. -/
theorem witness_StatusReadOfDoneMakesTheWritesVisible :
    ∃ s : State, s.status = .done ∧ s.events = [.host (.rd 1), .host (.mr 0x8000 8)] ∧
      (∀ k, k < 8 → admits s.params (0x8000 + k) = true ∧ inRegBlock s.params (0x8000 + k) = false ∧
        isUnstable s.params (0x8000 + k) = false) ∧ s.unseen.earlier = [] ∧ s.unseen.left = [] ∧
      ∀ k, k < 8 → ((0x8000 + k, 0) : Host.Cell) ∈ s.unseen.last :=
  ⟨withEvents [.host (.rd 1), .host (.mr 0x8000 8)] (after (exec .encDxt1Fast (onGr .encDxt1Fast))), by decide +kernel⟩

/-- R85: the destination waits to be seen from DONE on; a read of STATUS makes it visible, CLR before it does not, and after the start
of another command nothing will. -/
theorem test_status_read_of_done :
    let s := after (exec .encDxt1Fast (onGr .encDxt1Fast))
    let t := after (step (withEvents [.host (.rd 1)] s))
    let u := after (step (withEvents [.host (.wr 0 0)] s))
    s.unseen = ⟨(List.range 8).map (fun k => (0x8000 + k, 0)), [], []⟩ ∧ t.rx = .word 2 ∧ t.unseen = Unseen.none ∧
      u.status = .idle ∧ u.unseen = s.unseen ∧ (after (exec .encDxt1Fast u)).unseen = ⟨[], s.unseen.last, []⟩ ∧
      (after (step (withEvents [.host (.rd 0)] s))).unseen = s.unseen := by decide +kernel

/-- A host write while BUSY of a byte of an earlier command that was never polled. -/
theorem witness_HostWriteWhileBusyIsRecorded_unseen :
    ∃ s : State, Inv s ∧ Running .encDxt5Hq s ∧ s.events = [.host (.mw 0x9000 [5])] ∧
      inDest .encDxt5Hq s 0x9000 = false ∧ s.unseen.coming 0x9000 = true :=
  ⟨running .encDxt5Hq { operands 4 4 1 [] with events := [.host (.mw 0x9000 [5])], unseen := ⟨[], [(0x9000, 1)], []⟩ },
    inv_running _ { operands 4 4 1 [] with events := [.host (.mw 0x9000 [5])], unseen := ⟨[], [(0x9000, 1)], []⟩ }
      (by decide) (by decide +kernel) (by decide +kernel), by decide +kernel⟩

theorem witness_InsetRangeStaysOrderedInsideTheValues : ∃ (vals : List Byte) (k : Nat), vals ≠ [] ∧ 1 ≤ k :=
  ⟨[255, 0], 1, by decide⟩

/-- One color; two colors. -/
theorem witness_HqEndpointsObeyTheirLaws :
    (∃ (blk : Vector Pixel 16) (c : Rgb), ∀ p ∈ blk.toList, rgbOf p = c) ∧
    (∃ (blk : Vector Pixel 16) (c d : Rgb), c ≠ d ∧ (∀ p ∈ blk.toList, rgbOf p = c ∨ rgbOf p = d) ∧
      (∃ p ∈ blk.toList, rgbOf p = c) ∧ ∃ p ∈ blk.toList, rgbOf p = d) ∧
    ∃ blk blk' : Vector Pixel 16, blk.toList.map rgbOf = blk'.toList.map rgbOf ∧ blk ≠ blk' :=
  ⟨⟨Vector.replicate 16 ⟨1, 2, 3, 4⟩, ⟨1, 2, 3⟩, by decide +kernel⟩,
    ⟨tileBlock (onGr .encDxt1Hq), ⟨255, 0, 0⟩, ⟨0, 255, 0⟩, by decide +kernel⟩,
    Vector.replicate 16 ⟨1, 2, 3, 4⟩, Vector.replicate 16 ⟨1, 2, 3, 5⟩, by decide +kernel⟩

theorem witness_CascadeCornersAndFlatBlocks : ∃ (e : EncScratch) (c : Rgb), ∀ p ∈ e.blk.toList, rgbOf p = c :=
  ⟨Scratch.zero.enc, ⟨0, 0, 0⟩, by decide +kernel⟩

/-- The corners of the range: `v = mx`, `v = mn`, and `mn = mx`; sixteen values with the least inset, and the first and the last of
them. -/
theorem witness_FastAlphaIndexesByItsThresholds :
    (∃ (mn mx : Nat) (v : Byte), mn < mx ∧ mx ≤ v.toNat) ∧ (∃ (mn mx : Nat) (v : Byte), mn ≤ mx ∧ v.toNat ≤ mn) ∧
    ∀ i ∈ [0, 15], ∃ (vals : List Byte) (k : Nat) (v : Byte), vals.length = 16 ∧ 1 ≤ k ∧ vals[i]? = some v :=
  ⟨⟨7, 248, 248, by decide⟩, ⟨200, 200, 200, by decide⟩, fun i hi =>
    ⟨bytesOf (List.range 16), 1, BitVec.ofNat 8 i, by decide, by decide, by rcases List.mem_pair.1 hi with rfl | rfl <;> decide⟩⟩

theorem test_fast_alpha_corners : fastRampIndex (rampThresholds 7 248) 248 = 0 ∧ fastRampIndex (rampThresholds 7 248) 7 = 1 ∧
    fastRampIndex (rampThresholds 200 200) 200 = 1 := by decide

/-- Both orientations, with the first and the last value. -/
theorem witness_HqAlphaDecodesWithTheLowerError :
    (∃ vals : List Byte, vals.length = 16 ∧ (vals[0]? = some 0 ∧ vals[15]? = some 255) ∧
      rampFitErr vals (alphaRange vals 5).1 (alphaRange vals 5).2 < rampFitErr vals (alphaRange vals 5).2 (alphaRange vals 5).1) ∧
    ∃ vals : List Byte, vals.length = 16 ∧ (vals[0]? = some 100 ∧ vals[15]? = some 180) ∧
      rampFitErr vals (alphaRange vals 5).2 (alphaRange vals 5).1 ≤ rampFitErr vals (alphaRange vals 5).1 (alphaRange vals 5).2 :=
  ⟨⟨bytesOf ((List.range 16).map (fun i => 255 * (i % 2))), by decide +kernel⟩,
    bytesOf ((List.range 16).map (fun i => 100 + 80 * (i % 2))), by decide +kernel⟩

theorem witness_ExtremeAlphaDecodesExactly :
    ∃ (vals : List Byte) (k : Nat), vals.length = 16 ∧ (∀ v ∈ vals, v = 0 ∨ v = 255) ∧ 0 ∈ vals ∧ 255 ∈ vals ∧ 1 ≤ k :=
  ⟨0 :: List.replicate 15 255, 1, by decide⟩

/-- The first and the last value. -/
theorem witness_ExplicitAlphaKeepsTheHighNibbles :
    ∀ i ∈ [0, 15], ∃ (vals : List Byte) (v : Byte), vals.length = 16 ∧ vals[i]? = some v := by
  intro i hi
  rcases List.mem_pair.1 hi with rfl | rfl
  · exact ⟨List.replicate 16 0xAB, 0xAB, by decide, by decide⟩
  · exact ⟨List.replicate 16 0xAB, 0xAB, by decide, by decide⟩

/-- Blocks that differ in alpha only; blocks that differ in blue and alpha only. -/
theorem witness_BlockBytesDependOnTheirChannelsAlone :
    (∃ b b' : Vector Pixel 16, b.toList.map rgbOf = b'.toList.map rgbOf ∧ b ≠ b') ∧
    ∃ b b' : Vector Pixel 16, channel b 0 = channel b' 0 ∧ channel b 1 = channel b' 1 ∧ b ≠ b' :=
  ⟨⟨Vector.replicate 16 ⟨1, 2, 3, 4⟩, Vector.replicate 16 ⟨1, 2, 3, 5⟩, by decide +kernel⟩,
    Vector.replicate 16 ⟨1, 2, 3, 4⟩, Vector.replicate 16 ⟨1, 2, 9, 5⟩, by decide +kernel⟩

/-- A direct mode and an interpolated one, at an unstored position. -/
theorem witness_WeightsReadOnlyStoredValues :
    (∃ (ws : FourWords) (c r : Nat), c < 8 ∧ r < 4 ∧ modmAt .two (modmGrid .two ws) (c + 4) (r + 2) = 0) ∧
    (∃ (ws : FourWords) (c r : Nat), c < 8 ∧ r < 4 ∧ modmAt .two (modmGrid .two ws) (c + 4) (r + 2) ≠ 0 ∧ (c + r) % 2 ≠ 0) ∧
    ∃ c r : Nat, c < 4 ∧ r < 4 :=
  ⟨⟨⟨⟨0, 0⟩, ⟨0, 0⟩, ⟨0, 0⟩, ⟨0, 0⟩⟩, 7, 3, by decide +kernel⟩,
    ⟨⟨⟨0, 1⟩, ⟨0, 1⟩, ⟨0, 1⟩, ⟨0, 1⟩⟩, 7, 2, by decide +kernel⟩, 3, 3, by decide⟩

theorem witness_EqualWordsGiveConstantColors : ∃ (b : Bpp) (c r : Nat), c < ww b ∧ r < wh b := ⟨.two, 7, 3, by decide⟩

theorem witness_BlendEndsPunchThroughAndColorModes : ∃ w : Nat, 10 < w := ⟨11, by decide⟩

theorem witness_TwiddleIsABijection : ∃ m n x y x' y' : Nat, x < 2 ^ m ∧ y < 2 ^ n ∧ x' < 2 ^ m ∧ y' < 2 ^ n ∧
    twiddleUV (2 ^ m) (2 ^ n) x y = twiddleUV (2 ^ m) (2 ^ n) x' y' := ⟨2, 1, 3, 1, 3, 1, by decide +kernel⟩

/-- The ideal endpoints of a flat block exist: its covariance is 0, so the axis is (1,1,1)/√3 and both projections are 0. -/
theorem witness_IdealEndpointsOfAFlatBlock :
    ∃ (plane : Matrix (Fin 3) (Fin 3) ℚ → Fin 3 → ℝ) (c : Rgb) (pa pb : Half),
      IsIdealEndpoints plane (List.replicate 16 c) pa pb := by
  obtain ⟨cs, hcs⟩ : ∃ cs : List Rgb, cs = List.replicate 16 ⟨0, 0, 0⟩ := ⟨_, rfl⟩
  have hpt : ∀ k, idealPoint ⟨0, 0, 0⟩ k = 0 := by
    intro k
    fin_cases k <;> simp [idealPoint, rgbChan]
  have hcen : ∀ k, idealCentroid cs k = 0 := by
    intro k
    rw [hcs]
    simp only [idealCentroid, List.map_replicate, List.sum_replicate, hpt, smul_zero, zero_div]
  have hcov : idealCovariance cs = 0 := by
    funext j k
    simp only [idealCovariance, hcen]
    rw [hcs]
    simp only [List.map_replicate, List.sum_replicate, hpt, sub_zero, mul_zero, smul_zero, zero_div, Matrix.zero_apply]
  have hproj : ∀ v t, (∃ c ∈ cs, IsProjection cs v c t) ↔ t = 0 := by
    intro v t
    have hz : ∀ c ∈ cs, IsProjection cs v c t ↔ t = 0 := by
      intro c hc
      rw [hcs] at hc
      rw [(List.mem_replicate.1 hc).2]
      simp only [IsProjection, hcen, hpt, sub_zero, Rat.cast_zero, zero_mul, Finset.sum_const_zero]
    constructor
    · rintro ⟨c, hc, h⟩
      exact (hz c hc).1 h
    · intro h
      have hm : (⟨0, 0, 0⟩ : Rgb) ∈ cs := by rw [hcs]; exact List.mem_replicate.2 ⟨by decide, rfl⟩
      exact ⟨_, hm, (hz _ hm).2 h⟩
  obtain ⟨plane, hplane⟩ := exists_planeChoice
  refine ⟨plane, ⟨0, 0, 0⟩, 0, 0, fun _ => 1 / Real.sqrt 3, 0, 0, ?_, ?_, ?_, ?_, ?_⟩
  · refine ⟨hplane, 0, 0, 0, ⟨le_refl _, le_refl _, ?_⟩, fun _ _ => rfl, fun h => absurd rfl h, fun h => absurd rfl h⟩
    intro x
    rw [← hcs, hcov]
    simp [realMatrix, Matrix.det_fin_three]
  · rw [← hcs]
    exact ⟨(hproj _ _).2 rfl, fun t ht => le_of_eq ((hproj _ _).1 ht)⟩
  · rw [← hcs]
    exact ⟨(hproj _ _).2 rfl, fun t ht => le_of_eq ((hproj _ _).1 ht).symm⟩
  · rw [← hcs]
    refine ⟨0, 0, 0, ?_, ?_, ?_, rfl⟩ <;> simp [IsQuantLevel, hcen] <;> norm_num
  · rw [← hcs]
    refine ⟨0, 0, 0, ?_, ?_, ?_, rfl⟩ <;> simp [IsQuantLevel, hcen] <;> norm_num

/-- Sixteen colors: four of each of the four. -/
def fourEach (a b c d : Rgb) : List Rgb :=
  List.replicate 4 a ++ List.replicate 4 b ++ List.replicate 4 c ++ List.replicate 4 d

/-- Half black and half white: R175's example, with covariance `J/4`. -/
def blackAndWhite : List Rgb := fourEach ⟨0, 0, 0⟩ ⟨0, 0, 0⟩ ⟨255, 255, 255⟩ ⟨255, 255, 255⟩

theorem test_covariance_of_black_and_white :
    idealCovariance blackAndWhite = !![1 / 4, 1 / 4, 1 / 4; 1 / 4, 1 / 4, 1 / 4; 1 / 4, 1 / 4, 1 / 4] := by decide +kernel

theorem roots_of_diagonal {c : Matrix (Fin 3) (Fin 3) ℚ} {a b d : ℚ} (h : c = !![a, 0, 0; 0, b, 0; 0, 0, d]) (hab : b ≤ a)
    (hbd : d ≤ b) : IsRootTriple c a b d := by
  refine ⟨by exact_mod_cast hab, by exact_mod_cast hbd, fun x => ?_⟩
  rw [h]
  simp [realMatrix, Matrix.det_fin_three]

theorem roots_of_black_and_white : IsRootTriple (idealCovariance blackAndWhite) (3 / 4) 0 0 := by
  refine ⟨by norm_num, le_refl _, fun x => ?_⟩
  rw [test_covariance_of_black_and_white]
  simp [realMatrix, Matrix.det_fin_three]
  ring

/-- One root: a flat block. A simple dominant root: with `p1 = 0` (black and red) and with `p1 ≠ 0` (black and white). A repeated
one: black, red, green and yellow. The closed form has a root and an axis for each. -/
theorem witness_ClosedFormGivesTheIdealAxis :
    ∃ plane, IsPlaneChoice plane ∧
      (∀ cs, (∃ l, IsClosedFormRoot (idealCovariance cs) l) ∧ ∃ v, IsClosedFormAxis cs v) ∧
      (∃ cs l1 l2 l3, IsRootTriple (idealCovariance cs) l1 l2 l3 ∧ l1 = l3) ∧
      (∃ cs l1 l2 l3, IsRootTriple (idealCovariance cs) l1 l2 l3 ∧ l1 ≠ l2 ∧ closedP1 (idealCovariance cs) = 0) ∧
      (∃ cs l1 l2 l3, IsRootTriple (idealCovariance cs) l1 l2 l3 ∧ l1 ≠ l2 ∧ closedP1 (idealCovariance cs) ≠ 0) ∧
      ∃ cs l1 l2 l3, IsRootTriple (idealCovariance cs) l1 l2 l3 ∧ l1 = l2 ∧ l1 ≠ l3 := by
  obtain ⟨plane, hplane⟩ := exists_planeChoice
  refine ⟨plane, hplane, fun cs => ⟨exists_closedFormRoot _, exists_closedFormAxis cs⟩, ?_, ?_, ?_, ?_⟩
  · exact ⟨fourEach ⟨9, 8, 7⟩ ⟨9, 8, 7⟩ ⟨9, 8, 7⟩ ⟨9, 8, 7⟩, _, _, _,
      roots_of_diagonal (a := 0) (b := 0) (d := 0) (by decide +kernel) (le_refl _) (le_refl _), rfl⟩
  · exact ⟨fourEach ⟨0, 0, 0⟩ ⟨0, 0, 0⟩ ⟨255, 0, 0⟩ ⟨255, 0, 0⟩, _, _, _,
      roots_of_diagonal (a := 1 / 4) (b := 0) (d := 0) (by decide +kernel) (by norm_num) (le_refl _), by norm_num,
      by decide +kernel⟩
  · exact ⟨blackAndWhite, _, _, _, roots_of_black_and_white, by norm_num, by decide +kernel⟩
  · exact ⟨fourEach ⟨0, 0, 0⟩ ⟨255, 0, 0⟩ ⟨0, 255, 0⟩ ⟨255, 255, 0⟩, _, _, _,
      roots_of_diagonal (a := 1 / 4) (b := 1 / 4) (d := 0) (by decide +kernel) (le_refl _) (by norm_num), rfl, by norm_num⟩

end Sys2Proof.Tests
end

/-! # The machine as a whole: the rule of each event, the register block, the invariant, and what a step may change

Every step keeps `Inv`. A state in which no command runs meets it by `Inv.of_not_busy`; a move that leaves the command where it is keeps
it by `Inv.of_same_command`; what is left are a command's start and its tiles. -/

namespace Sys2Proof.Machine

/-! ## One rule per event -/

theorem step_host {s : State} {m : HostMove} {es : List Event} (h : s.events = .host m :: es) :
    step s = hostTurn m { s with events := es } := by simp only [step, turn, h]

theorem step_reset {s : State} {es : List Event} (h : s.events = .reset :: es) :
    step s = .next (resetEngine { s with events := es }) := by simp only [step, turn, h]

/-- An engine step, and a step with no event pending (log 13). -/
theorem step_engine {s : State} {es : List Event} (h : s.events = .engine :: es ∨ s.events = [] ∧ es = []) :
    step s = engineTurn { s with events := es } := by
  obtain h | ⟨h, rfl⟩ := h
  · simp only [step, turn, h]
  · rw [show { s with events := [] } = s by rw [← h]]
    simp only [step, turn, h]

theorem runningInstr_of_busy {s : State} {i : Instr} (hb : s.status = .busy) (hd : decode s.cmd = .ok i) :
    runningInstr s = some i := by simp only [runningInstr, hb, hd, if_true]

theorem hostTurn_wr_of_busy (r : Fin 16) (v : Word) {s : State} (hb : s.status = .busy) : hostTurn (.wr r v) s = .next s := by
  simp [hostTurn, commandWrite, writeReg, hb]

/-- A legal word written to CMD is latched and its command runs (R35). -/
theorem hostTurn_wr_cmd_of_legal {w : Word} {i : Instr} {s : State} (hb : s.status ≠ .busy) (hd : decode w = .ok i) :
    hostTurn (.wr 0 w) s = exec i { s with cmd := w } := by
  simp only [hostTurn, commandWrite, hb, hd, if_true, if_false]
  rfl

/-- An illegal word written to CMD is latched and ends in its error (R102). -/
theorem hostTurn_wr_cmd_of_illegal {w : Word} {e : DecodeError} {s : State} (hb : s.status ≠ .busy)
    (hd : decode w = .illegal e) :
    hostTurn (.wr 0 w) s = .next { s with cmd := w, status := .error .unsupported } := by
  simp only [hostTurn, commandWrite, hb, hd, if_true, if_false]
  rfl

theorem hostTurn_wr_operand {r : Fin 16} (hr : r ≠ 0) (v : Word) {s : State} (hb : s.status ≠ .busy) :
    hostTurn (.wr r v) s = .next (storeReg r v s) := by
  simp only [hostTurn, writeReg, hr, hb, if_false]

/-! ## The register block (R32) -/

/-- The registers in the order of their offsets; a reserved offset reads 0. -/
theorem readReg_eq_getD (r : Fin 16) (s : State) : readReg r s =
    [s.cmd, statusWord s.status, s.srcLo, s.srcHi, s.dstLo, s.dstHi, s.width, s.height, s.depth].getD r.val 0 := by
  fin_cases r <;> rfl

theorem readReg_reserved {r : Fin 16} (hr : 9 ≤ r.val) (s : State) : readReg r s = 0 := by
  rw [readReg_eq_getD]
  exact List.getD_eq_default _ _ hr

theorem readReg_storeReg_same {r : Fin 16} (h2 : 2 ≤ r.val) (h8 : r.val ≤ 8) (v : Word) (s : State) :
    readReg r (storeReg r v s) = v := by
  obtain ⟨r, hr⟩ := r
  dsimp only at h2 h8
  interval_cases r <;> rfl

/-- A write to a register changes no other one, whichever register it stores into. -/
theorem readReg_storeReg_other {q r : Fin 16} (h : q ≠ r) (v : Word) (s : State) : readReg q (storeReg r v s) = readReg q s := by
  have hv : q.val ≠ r.val := fun e => h (Fin.ext e)
  unfold storeReg
  split <;> simp only [readReg] <;> split <;> grind

/-- STATUS and the reserved offsets ignore a write. -/
theorem storeReg_ignored {r : Fin 16} (hr : r = 1 ∨ 9 ≤ r.val) (v : Word) (s : State) : storeReg r v s = s := by
  obtain rfl | hr := hr
  · rfl
  · obtain ⟨r, hlt⟩ := r
    dsimp only at hr
    interval_cases r <;> rfl

/-- What a register other than CMD reads after a write to it. -/
theorem readReg_storeReg {r : Fin 16} (h0 : r ≠ 0) (v : Word) (s : State) : readReg r (storeReg r v s) =
    if 2 ≤ r.val ∧ r.val ≤ 8 then v else if r = 1 then statusWord s.status else 0 := by
  split
  · rename_i h
    exact readReg_storeReg_same h.1 h.2 v s
  · split
    · subst r
      rfl
    · have h9 : 9 ≤ r.val := by omega
      rw [storeReg_ignored (.inr h9), readReg_reserved h9]

theorem readReg_resetEngine (r : Fin 16) (s : State) : readReg r (resetEngine s) = 0 := by
  fin_cases r <;> rfl

/-! ## The STATUS word (R34) -/

theorem stateField_lt (t : Status) : stateField t < 4 := by cases t <;> simp [stateField]

theorem errField_lt (t : Status) : errField t < 16 := by
  cases t with
  | error c => cases c <;> simp [errField, errNumber]
  | _ => simp [errField]

theorem errField_of_not_error {t : Status} (h : stateField t ≠ 3) : errField t = 0 := by
  cases t with
  | error c => exact absurd rfl h
  | _ => rfl

theorem statusWord_toNat (t : Status) : (statusWord t).toNat = 16 * errField t + stateField t := by
  have := stateField_lt t
  have := errField_lt t
  rw [statusWord, BitVec.toNat_ofNat]
  omega

/-- STATE in bits 1:0, ERR in bits 7:4, and 0 elsewhere. -/
theorem statusWord_fields (t : Status) :
    bits (statusWord t).toNat 1 0 = stateField t ∧ bits (statusWord t).toNat 7 4 = errField t ∧
      bits (statusWord t).toNat 3 2 = 0 ∧ bits (statusWord t).toNat 31 8 = 0 := by
  have := stateField_lt t
  have := errField_lt t
  rw [statusWord_toNat]
  simp only [bits_eq]
  omega

/-! ## Which turns change STATUS (R42) -/

/-- While a command runs, `exec` changes STATUS with the last tile only. -/
theorem exec_status_of_busy {i : Instr} {s t : State} (hb : s.status = .busy) (h : exec i s = .next t) :
    t.status = s.status ∨ t.status = .done ∧ t.tc = t.nt ∧ t.tc = s.tc + 1 := by
  obtain ⟨hn, -, -⟩ | ⟨hn, -, -⟩ | ⟨-, -, rfl⟩ | ⟨-, rfl⟩ := exec_cases h
  · exact absurd hb hn
  · exact absurd hb hn
  · obtain ⟨he, -⟩ | ⟨-, -, -, he⟩ | ⟨-, -, hl, he⟩ := engineStep_cases i (nextTile i s) s
    · exact .inl (by rw [he])
    · exact .inl (by rw [he, afterTile_status])
    · exact .inr (by rw [he]; exact ⟨rfl, hl, rfl⟩)
  · exact .inl rfl

theorem engineTurn_status {s t : State} (h : engineTurn s = .next t) :
    t.status = s.status ∨ s.status = .busy ∧ t.status = .done ∧ t.tc = t.nt ∧ t.tc = s.tc + 1 := by
  unfold engineTurn at h
  split at h
  · rename_i i hr
    have hb := (busy_of_runningInstr hr).1
    exact (exec_status_of_busy hb h).imp_right fun h => ⟨hb, h⟩
  · injection h with h
    exact .inl (by rw [h])

/-- Of the host's moves only a write to CMD while no command runs may change STATUS. -/
theorem hostTurn_status {m : HostMove} {s t : State} (h : hostTurn m s = .next t) :
    t.status = s.status ∨ s.status ≠ .busy ∧ ∃ w, m = .wr 0 w := by
  by_cases hb : s.status = .busy
  · exact .inl (hostTurn_busy_frame hb h).2.1
  cases m with
  | wr r v =>
    by_cases hr : r = 0
    · exact .inr ⟨hb, v, by rw [hr]⟩
    · rw [hostTurn_wr_operand hr v hb] at h
      injection h with h
      exact .inl (by rw [← h]; exact (storeReg_frame r v s).1)
  | rd r =>
    injection h with h
    exact .inl (by rw [← h, hostReadReg_status])
  | mw addr bs =>
    obtain ⟨rfl, -⟩ := hostAccess_next h
    obtain ⟨m, r, l, he, -⟩ := hostWriteBytes_frame bs s addr.toNat
    exact .inl (by rw [he])
  | mr addr n =>
    obtain ⟨rfl, -⟩ := hostAccess_next h
    exact .inl rfl
  | wait =>
    injection h with h
    exact .inl (by rw [← h]; simp [hostWait, hb])

/-! ## When a turn stops the machine -/

/-- A register move always goes on. -/
theorem hostTurn_continues {m : HostMove} (hw : ∀ a bs, m ≠ .mw a bs) (hr : ∀ a n, m ≠ .mr a n) (s : State) :
    ∃ t, hostTurn m s = .next t := by
  cases m with
  | wr r v =>
    by_cases hb : s.status = .busy
    · exact ⟨_, hostTurn_wr_of_busy r v hb⟩
    by_cases h0 : r = 0
    · subst h0
      cases hd : decode v with
      | ok i => rw [hostTurn_wr_cmd_of_legal hb hd]; exact exec_continues _ _
      | illegal e => exact ⟨_, hostTurn_wr_cmd_of_illegal hb hd⟩
    · exact ⟨_, hostTurn_wr_operand h0 v hb⟩
  | rd r => exact ⟨_, rfl⟩
  | mw addr bs => exact absurd rfl (hw addr bs)
  | mr addr n => exact absurd rfl (hr addr n)
  | wait => exact ⟨_, rfl⟩

theorem hostAccess_refused {p : Params} {addr n : Nat} (h : ∃ k, k < n ∧ inRegBlock p (addr + k) = true) (go : State) :
    hostAccess p addr n go = .refused .registerBlockBytes := by
  obtain ⟨k, hk, hr⟩ := h
  exact if_pos (List.any_eq_true.2 ⟨k, List.mem_range.2 hk, hr⟩)

theorem hostAccess_of_outside_regBlock {p : Params} {addr n : Nat} (h : ∀ k, k < n → inRegBlock p (addr + k) = false) (go : State) :
    hostAccess p addr n go = if (List.range n).all (fun k => admits p (addr + k)) then .next go else .fault .hostUnmapped :=
  if_neg (by simpa using h)

theorem hostAccess_fault {p : Params} {addr n : Nat} (h : ∀ k, k < n → inRegBlock p (addr + k) = false)
    (ha : ∃ k, k < n ∧ admits p (addr + k) = false) (go : State) : hostAccess p addr n go = .fault .hostUnmapped := by
  rw [hostAccess_of_outside_regBlock h]
  exact if_neg (by simpa using ha)

theorem hostAccess_continues {p : Params} {addr n : Nat} (h : ∀ k, k < n → inRegBlock p (addr + k) = false)
    (ha : ∀ k, k < n → admits p (addr + k) = true) (go : State) : hostAccess p addr n go = .next go := by
  rw [hostAccess_of_outside_regBlock h]
  exact if_pos (by simpa using ha)

/-- `MW` and `MR` of `n` bytes pass the same check. -/
theorem step_memory_move {s : State} {a : DWord} {n : Nat} {es : List Event}
    (h : (∃ bs, bs.length = n ∧ s.events = .host (.mw a bs) :: es) ∨ s.events = .host (.mr a n) :: es) :
    ∃ go, step s = hostAccess s.params a.toNat n go := by
  obtain ⟨bs, rfl, h⟩ | h := h
  · exact ⟨_, step_host h⟩
  · exact ⟨_, step_host h⟩

/-! ## Two ways to meet the invariant -/

/-- While no command runs, all but the canonical form, `TC = NT` at DONE and the empty race is vacuous. -/
theorem Inv.of_not_busy {t : State} (hm : Memory.wf t.mem) (hb : t.status ≠ .busy) (hd : t.status = .done → t.tc = t.nt)
    (hr : t.race = Race.none) : Inv t where
  memWf := hm
  startWf := by rw [hr]; exact Memory.wf_nil
  running h := absurd h hb
  finished := hd
  quiet _ := hr
  recorded h := absurd h hb
  seen h := absurd h hb

/-- A move that leaves the operands, STATUS, TC and NT alone: what it does to memory and to the races is to be shown. -/
theorem Inv.of_same_command {s t : State} (h : Inv s) (ho : sameOperands s t) (hst : t.status = s.status) (htc : t.tc = s.tc)
    (hnt : t.nt = s.nt) (hm : Memory.wf t.mem) (hs : t.race.startMem = s.race.startMem)
    (hq : s.status ≠ .busy → t.race = s.race)
    (hrec : ∀ i, runningInstr s = some i → ∀ c ∈ t.race.hostWrites, c ∈ s.race.hostWrites ∨ inDest i s c.1 = true)
    (hl : s.unseen.last = [] → t.unseen.last = []) : Inv t where
  memWf := hm
  startWf := by rw [hs]; exact h.startWf
  running hb := by
    obtain ⟨i, hd, hc, hn, hlt⟩ := h.running (hst ▸ hb)
    exact ⟨i, by rw [ho.1, hd], by rw [startChecks_congr i ho, hc], by rw [hnt, hn, tilesOf_congr i ho], by rw [htc, hnt]; exact hlt⟩
  finished hd := by rw [htc, hnt]; exact h.finished (hst ▸ hd)
  quiet hb := by
    rw [hst] at hb
    rw [hq hb, h.quiet hb]
  recorded hb i hd c hc := by
    rw [hst] at hb
    rw [ho.1] at hd
    rw [inDest_congr i ho]
    exact (hrec i (runningInstr_of_busy hb hd) c hc).elim (h.recorded hb i hd c) id
  seen hb := hl (h.seen (hst ▸ hb))

/-- The events still to come are no part of the invariant. -/
theorem Inv.with_events {s : State} (h : Inv s) (es : List Event) : Inv { s with events := es } :=
  h.of_same_command (by simp [sameOperands]) rfl rfl rfl h.memWf rfl (fun _ => rfl) (fun _ _ _ => .inl) id

/-! ## A command's start and its tiles -/

/-- The start of the command in CMD keeps the invariant: it ends in its error, is DONE with no tile, or is BUSY with its checks passed and
its first tile ahead. -/
theorem commandStart_keeps_inv {i : Instr} {s : State} (h : Inv s) (hb : s.status ≠ .busy) (hd : decode s.cmd = .ok i) :
    Inv (commandStart i s) := by
  obtain ⟨c, -, he⟩ | ⟨-, -, he⟩ | ⟨hc, ht, he⟩ := commandStart_cases i s
  · rw [he]
    exact .of_not_busy h.memWf (by simp) (by simp) (h.quiet hb)
  · rw [he]
    exact .of_not_busy h.memWf (by simp) (by simp) rfl
  · have ho := (commandStart_frame i s).1
    rw [he] at ho ⊢
    exact {
      memWf := h.memWf
      startWf := h.memWf
      running := fun _ => ⟨i, hd, by rw [startChecks_congr i ho, hc], by rw [tilesOf_congr i ho]; rfl, Nat.pos_of_ne_zero ht⟩
      finished := fun hs => nomatch hs
      quiet := fun hs => absurd rfl hs
      recorded := fun _ _ _ _ hc => nomatch hc
      seen := fun _ => rfl }

/-- An engine step of a running command keeps the invariant, whatever its tile writes. -/
theorem engineStep_keeps_inv (i : Instr) (e : TileEffect) {s : State} (h : Inv s) (hb : s.status = .busy) : Inv (engineStep i e s) := by
  have hw := engineStep_wf i e h.memWf
  have ho := (engineStep_frame i e s).1
  obtain ⟨he, -⟩ | ⟨hlt, -, hl, he⟩ | ⟨-, -, hl, he⟩ := engineStep_cases i e s
  · rw [he]
    exact h
  · rw [he] at hw ho ⊢
    obtain ⟨j, hd, hc, hn, -⟩ := h.running hb
    exact {
      memWf := hw
      startWf := h.startWf
      running := fun _ =>
        ⟨j, hd, by rw [startChecks_congr j ho, hc], by rw [tilesOf_congr j ho]; exact hn, Nat.lt_of_le_of_ne hlt hl⟩
      finished := fun hs => by rw [afterTile_status, hb] at hs; cases hs
      quiet := fun hs => absurd hb hs
      recorded := fun _ k hk c hc => by rw [inDest_congr k ho]; exact h.recorded hb k hk c hc
      seen := fun _ => h.seen hb }
  · rw [he] at hw ⊢
    exact .of_not_busy hw (by simp) (fun _ => hl) rfl

/-- `exec` of the command in CMD keeps the invariant. -/
theorem exec_keeps_inv {i : Instr} {s t : State} (h : Inv s) (hd : decode s.cmd = .ok i) (he : exec i s = .next t) : Inv t := by
  obtain ⟨hb, -, rfl⟩ | ⟨hb, -, rfl⟩ | ⟨⟨hb, -⟩, -, rfl⟩ | ⟨-, rfl⟩ := exec_cases he
  · exact .of_not_busy h.memWf (by simp) (by simp) (h.quiet hb)
  · exact commandStart_keeps_inv h hb hd
  · exact engineStep_keeps_inv i _ h hb
  · exact h

/-! ## The turns -/

theorem engineTurn_keeps_inv {s t : State} (h : Inv s) (he : engineTurn s = .next t) : Inv t := by
  unfold engineTurn at he
  split at he
  · rename_i i hr
    exact exec_keeps_inv h (busy_of_runningInstr hr).2 he
  · injection he with he
    exact he ▸ h

/-- A register write while no command runs. -/
theorem storeReg_keeps_inv {s : State} (h : Inv s) (hb : s.status ≠ .busy) (r : Fin 16) (v : Word) : Inv (storeReg r v s) := by
  obtain ⟨hst, htc, hnt, -, hm, -, -, -, hr, -⟩ := storeReg_frame r v s
  exact .of_not_busy (by rw [hm]; exact h.memWf) (by rwa [hst]) (fun hd => by rw [htc, hnt]; exact h.finished (hst ▸ hd))
    (by rw [hr]; exact h.quiet hb)

theorem commandWrite_keeps_inv {w : Word} {s t : State} (h : Inv s) (he : commandWrite w s = .next t) : Inv t := by
  unfold commandWrite at he
  split at he
  · injection he with he
    exact he ▸ h
  · rename_i hb
    have hs := storeReg_keeps_inv h hb 0 w
    split at he
    · exact exec_keeps_inv hs ‹_› he
    · injection he with he
      subst he
      exact .of_not_busy hs.memWf (by simp) (by simp) (h.quiet hb)

theorem writeReg_keeps_inv {s : State} (h : Inv s) (r : Fin 16) (v : Word) : Inv (writeReg r v s) := by
  unfold writeReg
  split
  · exact h
  · exact storeReg_keeps_inv h ‹_› r v

/-- A taint of a running command's source says nothing of what is recorded of its destination. -/
theorem Inv.with_taint {s : State} (h : Inv s) (hb : s.status = .busy) : Inv { s with race := { s.race with tainted := true } } :=
  h.of_same_command (by simp [sameOperands]) rfl rfl rfl h.memWf rfl (fun hn => absurd hb hn) (fun _ _ _ => .inl) id

theorem plainWrite_keeps_inv {s : State} (h : Inv s) {a : Nat} (ha : a < 2 ^ 64) (v : Byte) : Inv (plainWrite s a v) :=
  h.of_same_command (by simp [sameOperands]) rfl rfl rfl (Memory.write_wf h.memWf ha) rfl (fun _ => rfl) (fun _ _ _ => .inl) id

/-- A host write of one byte: what it records of a running command lies in its destination (R86). -/
theorem hostWriteByte_keeps_inv {s : State} (h : Inv s) {a : Nat} (ha : a < 2 ^ 64) (v : Byte) : Inv (hostWriteByte s a v) := by
  unfold hostWriteByte
  split
  · rename_i i hr
    have hb := (busy_of_runningInstr hr).1
    split
    · rename_i hin
      refine h.of_same_command (by simp [sameOperands]) rfl rfl rfl h.memWf rfl (fun hn => absurd hb hn) (fun j hj c hc => ?_) id
      obtain rfl : i = j := by simpa [hr] using hj
      rcases mem_recordWrite.1 hc with ⟨hc, -⟩ | rfl
      · exact .inl hc
      · exact .inr hin
    · split
      · exact (plainWrite_keeps_inv h ha v).with_taint hb
      · exact plainWrite_keeps_inv h ha v
  · exact plainWrite_keeps_inv h ha v

theorem hostWriteBytes_keeps_inv {bs : List Byte} : ∀ {s : State} {addr : Nat}, Inv s →
    (0 < bs.length → addr + bs.length ≤ 2 ^ 64) → Inv (hostWriteBytes s addr bs) := by
  induction bs with
  | nil => exact fun h _ => h
  | cons v vs ih =>
    intro s addr h hl
    rw [List.length_cons] at hl
    exact ih (hostWriteByte_keeps_inv h (by omega) v) (by omega)

theorem hostReadReg_keeps_inv {s : State} (h : Inv s) (r : Fin 16) : Inv (hostReadReg r s) := by
  refine h.of_same_command (by simp [sameOperands]) rfl rfl rfl h.memWf rfl (fun _ => rfl) (fun _ _ _ => .inl) fun hl => ?_
  rw [hostReadReg_unseen]
  split
  · exact seen_last _
  · exact hl

theorem hostWait_keeps_inv {s : State} (h : Inv s) : Inv (hostWait s) := by
  unfold hostWait
  dsimp only
  split
  · exact (hostReadReg_keeps_inv h 1).with_events _
  · exact hostReadReg_keeps_inv h 1

theorem hostTurn_keeps_inv {m : HostMove} {s t : State} (h : Inv s) (he : hostTurn m s = .next t) : Inv t := by
  cases m with
  | wr r v =>
    simp only [hostTurn] at he
    split at he
    · exact commandWrite_keeps_inv h he
    · injection he with he
      exact he ▸ writeReg_keeps_inv h r v
  | rd r =>
    injection he with he
    exact he ▸ hostReadReg_keeps_inv h r
  | mw addr bs =>
    obtain ⟨rfl, hl⟩ := hostAccess_next he
    exact hostWriteBytes_keeps_inv h hl
  | mr addr n =>
    obtain ⟨rfl, -⟩ := hostAccess_next he
    exact h.of_same_command (by simp [sameOperands]) rfl rfl rfl h.memWf rfl (fun _ => rfl) (fun _ _ _ => .inl) id
  | wait =>
    injection he with he
    exact he ▸ hostWait_keeps_inv h

/-- Reset leaves no command running and nothing of a race (R390). -/
theorem resetEngine_keeps_inv {s : State} (h : Inv s) : Inv (resetEngine s) :=
  .of_not_busy (resetMem_wf h.memWf) (by simp) (by simp) rfl

/-! ## The statements -/

/-- Settles O32, by what each event's turn keeps. -/
theorem everyStepKeepsTheInvariant : Obligations.EveryStepKeepsTheInvariant := by
  intro s t h hs
  obtain ⟨es, -, he⟩ | ⟨m, es, -, he⟩ | ⟨es, -, rfl⟩ := step_cases hs
  · exact engineTurn_keeps_inv (h.with_events es) he
  · exact hostTurn_keeps_inv (h.with_events es) he
  · exact resetEngine_keeps_inv (h.with_events es)

/-- Settles O1, by what reset does to memory. -/
theorem resetClearsRegistersAndKeepsMemory : Obligations.ResetClearsRegistersAndKeepsMemory := by
  intro s es h hw
  exact ⟨_, step_reset h, fun r => readReg_resetEngine r _, rfl, rfl, rfl, rfl, rfl,
    fun a ha => resetMem_read_other (s := { s with events := es }) hw (by simpa using ha)⟩

/-- Settles O6: BUSY, a word to CMD, a value to an operand register. -/
theorem registerWritesStoreStartOrAreDropped : Obligations.RegisterWritesStoreStartOrAreDropped := by
  intro s r v es h
  rw [step_host h]
  refine ⟨fun hb => hostTurn_wr_of_busy r v hb, fun hb h0 => ?_, fun hb h2 h8 => ?_⟩
  · subst h0
    cases hd : decode v with
    | ok i =>
      obtain ⟨t, ht⟩ := exec_continues i { s with events := es, cmd := v }
      refine ⟨t, (hostTurn_wr_cmd_of_legal (s := { s with events := es }) hb hd).trans ht, (exec_frame ht).1.1, fun j hj => ?_, nofun⟩
      injection hj with hj
      exact hj ▸ ht
    | illegal e => exact ⟨_, hostTurn_wr_cmd_of_illegal hb hd, rfl, nofun, fun _ _ => rfl⟩
  · obtain ⟨hst, htc, hnt, hsc, hm, -, he, -⟩ := storeReg_frame r v { s with events := es }
    have h0 : r ≠ 0 := by rintro rfl; simp at h2
    exact ⟨_, hostTurn_wr_operand h0 v hb, readReg_storeReg_same h2 h8 v _, fun q hq => readReg_storeReg_other hq v _, hst, htc, hnt,
      hsc, hm, he⟩

/-- Settles O7: the engine never writes an operand register, and the host's writes are dropped. -/
theorem runningCommandKeepsItsOperands : Obligations.RunningCommandKeepsItsOperands := by
  intro s t hb hr h
  obtain ⟨es, -, he⟩ | ⟨m, es, -, he⟩ | ⟨es, hes, -⟩ := step_cases h
  · exact (engineTurn_frame he).1
  · exact (hostTurn_busy_frame (s := { s with events := es }) hb he).1
  · exact absurd hes (hr es)

/-- Settles O8, by which turns change STATUS. -/
theorem statusChangesOnlyAtStartCompletionClrOrReset : Obligations.StatusChangesOnlyAtStartCompletionClrOrReset := by
  intro s t h hne
  obtain ⟨es, -, he⟩ | ⟨m, es, hes, he⟩ | ⟨es, hes, -⟩ := step_cases h
  · exact .inr (.inl ((engineTurn_status he).resolve_left hne))
  · obtain ⟨hb, w, rfl⟩ := (hostTurn_status he).resolve_left hne
    exact .inl ⟨hb, w, es, hes⟩
  · exact .inr (.inr ⟨es, hes⟩)

/-- Settles O9: every turn but a memory move goes on, and a memory move is what `hostAccess` answers. -/
theorem onlyHostMemoryMovesStopTheMachine : Obligations.OnlyHostMemoryMovesStopTheMachine := by
  refine fun s => ⟨fun hw hr => ?_, fun a n es h => ?_⟩
  · cases h : s.events with
    | nil => rw [step_engine (.inr ⟨h, rfl⟩)]; exact engineTurn_continues _
    | cons e es =>
      cases e with
      | engine => rw [step_engine (.inl h)]; exact engineTurn_continues _
      | reset => exact ⟨_, step_reset h⟩
      | host m =>
        rw [step_host h]
        exact hostTurn_continues (fun a bs e => hw a bs es (e ▸ h)) (fun a n e => hr a n es (e ▸ h)) _
  · obtain ⟨go, hgo⟩ := step_memory_move h
    rw [hgo]
    exact ⟨fun h => hostAccess_refused h go,
      fun h => ⟨fun ha => hostAccess_fault h ha go, fun ha => ⟨go, hostAccess_continues h ha go⟩⟩⟩

/-- Settles O4, by the register block and the fields of the STATUS word. -/
theorem hostReadAnswersTheRegisterAndTheStatusWord : Obligations.HostReadAnswersTheRegisterAndTheStatusWord := by
  refine ⟨fun s r es h => ?_, fun t => ?_⟩
  · rw [step_host h, ← readReg_eq_getD]
    rfl
  · obtain ⟨hstate, herr, hlow, hhigh⟩ := statusWord_fields t
    exact ⟨hstate, herr, hlow, hhigh, fun h => by rw [herr, errField_of_not_error h], rfl, rfl, rfl, fun _ => rfl⟩

/-- Settles O5: the write stores into one register or into none, and the read answers it. -/
theorem operandRegistersReadBackWhatWasWritten : Obligations.OperandRegistersReadBackWhatWasWritten := by
  intro s r v hb h0 h
  have hwrite := (step_host h).trans (hostTurn_wr_operand h0 v hb)
  obtain ⟨hst, htc, hnt, hsc, hm, -, he, -⟩ := storeReg_frame r v { s with events := [.host (.rd r)] }
  have hread := step_host he
  refine ⟨_, (run_succ hwrite 1).trans (run_succ hread 0), congrArg HostRx.word (readReg_storeReg h0 v _), hm, hst, htc, hnt,
    readReg_storeReg_other h0.symm v _, hsc, fun hr => ?_⟩
  rw [storeReg_ignored hr]
  simp [sameOperands]

/-- Settles O15, by the rule of each event. -/
theorem stepRunsTheDecodedCommand : Obligations.StepRunsTheDecodedCommand := by
  refine fun s i es => ⟨fun w hb h hd => ?_, fun hb hd h => ?_⟩
  · exact (step_host h).trans (hostTurn_wr_cmd_of_legal hb hd)
  · rw [step_engine h]
    simp only [engineTurn, runningInstr_events, runningInstr_of_busy hb hd]

end Sys2Proof.Machine

/-! # Host memory moves: what a read answers, what a write leaves, and what a running command does to both (R85, R86) -/

namespace Sys2Proof.Machine

/-! ## One rule per memory move -/

/-- What the host receives for an `MR` in state `s`. -/
def hostReadBytes (s : State) (addr n : Nat) : List Byte :=
  (List.range n).map (fun k => hostReadByte s (addr + k) (s.draws + k))

/-- An `MR` of admitted bytes outside the register block. -/
theorem step_mr {s : State} {addr : DWord} {n : Nat} {es : List Event} (h : s.events = .host (.mr addr n) :: es)
    (ha : ∀ k, k < n → admits s.params (addr.toNat + k) = true) (hr : ∀ k, k < n → inRegBlock s.params (addr.toNat + k) = false) :
    step s = .next { s with
      events := es, rx := .bytes (hostReadBytes { s with events := es } addr.toNat n), draws := s.draws + n } := by
  rw [step_host h]
  exact hostAccess_continues hr ha _

/-- An `MW` of admitted bytes outside the register block. -/
theorem step_mw {s : State} {addr : DWord} {bs : List Byte} {es : List Event} (h : s.events = .host (.mw addr bs) :: es)
    (ha : ∀ k, k < bs.length → admits s.params (addr.toNat + k) = true)
    (hr : ∀ k, k < bs.length → inRegBlock s.params (addr.toNat + k) = false) :
    step s = .next (hostWriteBytes { s with events := es } addr.toNat bs) := by
  rw [step_host h]
  exact hostAccess_continues hr ha _

@[simp] theorem hostReadBytes_length (s : State) (addr n : Nat) : (hostReadBytes s addr n).length = n := by simp [hostReadBytes]

theorem hostReadBytes_getElem? {s : State} {addr n k : Nat} (hk : k < n) :
    (hostReadBytes s addr n)[k]? = some (hostReadByte s (addr + k) (s.draws + k)) := by
  simp [hostReadBytes, hk]

/-! ## One byte of a read -/

/-- A byte of a running command's destination is a raced one. -/
theorem hostReadByte_dest {i : Instr} {s : State} (hr : runningInstr s = some i) {a : Nat} (h : inDest i s a = true) (n : Nat) :
    hostReadByte s a n = racedByte i s a n := by
  simp only [hostReadByte, hr, h, if_true]

/-- Any other byte is a plain one. -/
theorem hostReadByte_plain {s : State} {a : Nat} (h : ∀ i, runningInstr s = some i → inDest i s a = false) (n : Nat) :
    hostReadByte s a n = plainRead s a n := by
  unfold hostReadByte
  split
  · rw [h _ ‹_›]
    rfl
  · rfl

theorem hostReadByte_of_not_busy {s : State} (hb : s.status ≠ .busy) (a n : Nat) : hostReadByte s a n = plainRead s a n :=
  hostReadByte_plain (fun _ hr => absurd (busy_of_runningInstr hr).1 hb) n

/-- A stable byte with nothing unseen reads as memory holds it. -/
theorem plainRead_of_seen {s : State} {a : Nat} (hu : isUnstable s.params a = false) (hv : s.unseen.values a = []) (n : Nat) :
    plainRead s a n = Memory.read s.mem a := by
  simpa [hv] using plainRead_mem hu n

/-- While no command runs, stable bytes with nothing unseen read as memory holds them. -/
theorem hostReadBytes_of_seen {s : State} {addr n : Nat} (hb : s.status ≠ .busy)
    (hu : ∀ k, k < n → isUnstable s.params (addr + k) = false) (hv : ∀ k, k < n → s.unseen.values (addr + k) = []) :
    hostReadBytes s addr n = Memory.readBytes s.mem addr n := by
  refine List.map_congr_left fun k hk => ?_
  have hk := List.mem_range.1 hk
  rw [hostReadByte_of_not_busy hb, plainRead_of_seen (hu k hk) (hv k hk)]

/-- Bytes that stand in memory are what is read there. -/
theorem readBytes_of_bytesAt {m : Memory} {addr : Nat} {bs : List Byte} (h : BytesAt m addr bs) :
    Memory.readBytes m addr bs.length = bs := by
  refine List.ext_getElem (by simp [Memory.readBytes]) fun k _ hk => ?_
  simpa [Memory.readBytes] using h k _ (List.getElem?_eq_getElem hk)

theorem engineAdmits_iff {p : Params} {a : Nat} : engineAdmits p a = true ↔ admits p a = true ∧ inRegBlock p a = false := by
  simp [engineAdmits]

/-! ## The running command under the invariant -/

/-- What the invariant says of the running command. -/
theorem Inv.of_running {i : Instr} {s : State} (h : Inv s) (hr : Running i s) :
    startChecks i s = none ∧ s.nt = tilesOf i s ∧ s.tc < s.nt := by
  obtain ⟨j, hd, hc, hn, hlt⟩ := h.running hr.1
  rw [hr.2, decode_encode_word] at hd
  cases hd
  exact ⟨hc, hn, hlt⟩

/-- The running command is no CLR: it has a tile left. -/
theorem Inv.running_ne_clr {i : Instr} {s : State} (h : Inv s) (hr : Running i s) : i ≠ .clr := by
  rintro rfl
  obtain ⟨-, hn, hlt⟩ := h.of_running hr
  rw [hn] at hlt
  exact absurd hlt (Nat.not_lt_zero _)

/-! ## The statements of host memory moves -/

/-- Settles O10: the bytes stand in memory with nothing unseen, so the read answers them; and what a read answers in any state. -/
theorem hostMemoryMovesReadBack : Obligations.HostMemoryMovesReadBack := by
  refine ⟨fun s addr bs hb hw ha he => ?_, fun s addr n es he ha => ?_⟩
  · simp only [imp_and, forall_and] at ha
    obtain ⟨hadm, hreg, hstable, hcoming⟩ := ha
    have hwrite := step_mw he hadm hreg
    obtain ⟨m, v, hm, hbytes, hother, hseen⟩ := hostWriteBytes_idle
      (s := { s with events := [.host (.mr addr bs.length)] }) (bs := bs) hb hw (fun k hk => admits_lt (hadm k hk))
    rw [hm] at hwrite
    have hread := step_mr (s := { s with events := [.host (.mr addr bs.length)], mem := m, unseen := v }) rfl
      hadm hreg
    refine ⟨_, (run_succ hwrite 1).trans (run_succ hread 0), congrArg HostRx.bytes ?_, rfl, fun a h => (hother a h).1,
      by simp [sameOperands], rfl, rfl, rfl, rfl⟩
    refine (hostReadBytes_of_seen ?_ ?_ ?_).trans (readBytes_of_bytesAt hbytes)
    · exact hb
    · exact hstable
    · exact fun k hk => (hseen k hk).1 (hcoming k hk)
  · simp only [imp_and, forall_and] at ha
    obtain ⟨hadm, hreg⟩ := ha
    refine ⟨_, step_mr he hadm hreg, hostReadBytes_length _ _ _, fun k hk hu hd => ⟨_, hostReadBytes_getElem? hk, ?_⟩⟩
    rw [hostReadByte_plain (by simpa using hd)]
    exact List.mem_cons.1 (plainRead_mem (s := { s with events := es }) hu _)

/-- Settles O38: the read draws between the two values of R86. -/
theorem racedReadReturnsOldOrNewByte : Obligations.RacedReadReturnsOldOrNewByte := by
  intro s i addr es he hr ht ha hd hadm
  obtain ⟨hmem, hreg⟩ := engineAdmits_iff.1 hadm
  have hzero : ∀ {k}, k < 1 → addr.toNat + k = addr.toNat := fun hk => by omega
  refine ⟨_, racedByte i s addr.toNat s.draws,
    step_mr he (fun k hk => by rwa [hzero hk]) (fun k hk => by rwa [hzero hk]), congrArg HostRx.bytes ?_, rfl, rfl,
    racedByte_untainted ht ha _ _⟩
  have hbyte := hostReadByte_dest (s := { s with events := es }) (runningInstr_of_running hr) (by simpa using hd) s.draws
  rw [racedByte_events] at hbyte
  exact congrArg (fun b => [b]) hbyte

/-- Settles O42: after the read of STATUS nothing is unseen at these bytes. -/
theorem statusReadOfDoneMakesTheWritesVisible : Obligations.StatusReadOfDoneMakesTheWritesVisible := by
  intro s addr n es hd he ha
  simp only [imp_and, forall_and] at ha
  obtain ⟨hadm, hreg, hstable, hearlier, hleft⟩ := ha
  have hstatus := step_host he
  have hread := step_mr (s := hostReadReg 1 { s with events := .host (.mr addr n) :: es }) rfl hadm hreg
  have hseen : (hostReadReg 1 s).unseen = s.unseen.seen := if_pos ⟨rfl, hd⟩
  refine ⟨_, _, hstatus, ?_, hread, congrArg HostRx.bytes ?_, rfl, hseen⟩
  · exact congrArg (fun t => HostRx.word (statusWord t)) hd
  · exact hostReadBytes_of_seen (by simp [hd]) hstable
      (fun k hk => (congrArg (Unseen.values · _) hseen).trans (seen_values fun v => ⟨hearlier k hk v, hleft k hk v⟩))

/-- Settles O40, by what a host write of bytes does to memory, to the race and to what is unseen. -/
theorem hostWriteWhileBusyIsRecorded : Obligations.HostWriteWhileBusyIsRecorded := by
  intro i s addr bs es hinv hr he ha
  simp only [imp_and, forall_and] at ha
  obtain ⟨hadm, hreg⟩ := ha
  have hrun : runningInstr { s with events := es } = some i := runningInstr_of_running hr
  obtain ⟨m, r, v, hm, -, -, hstart, hdest, hother, hframe, hrec, htaint, hvals⟩ :=
    hostWriteBytes_spec (D := inDest i s) (S := inSource i s) bs { s with events := es } addr.toNat
      (fun a => by rw [any_running hrun, inDest_events]) (fun a => by rw [any_running hrun, inSource_events]) hinv.memWf
      (fun k hk => admits_lt (hadm k hk))
  have hsource : ∀ a, (inDest i s a = false ∧ inSource i s a = true) ↔ inSource i s a = true := fun a =>
    ⟨And.right, fun h => ⟨source_dest_disjoint (hinv.running_ne_clr hr) (hinv.of_running hr).1 h, h⟩⟩
  simp only [hsource] at htaint
  refine ⟨_, step_mw he hadm hreg, ?_⟩
  rw [hm]
  exact ⟨hdest, hother, hvals, hframe, hrec, htaint, hstart, rfl, rfl, rfl, rfl, rfl, rfl, rfl, rfl, by simp [sameOperands]⟩

end Sys2Proof.Machine

/-! # The regions of a tile (R71): where a tile reads and writes, and its place among the tiles of its command -/

namespace Sys2Proof.Machine

/-- A row and a column of a grid make a place in it. -/
theorem row_mul_add_lt {r c rows cols : Nat} (hr : r < rows) (hc : c < cols) : r * cols + c < rows * cols := by
  calc r * cols + c < r * cols + cols := by omega
    _ = (r + 1) * cols := by ring
    _ ≤ rows * cols := Nat.mul_le_mul_right _ hr

/-! ## The place of an encode tile (R41) -/

theorem tileZ_eq (s : State) : tileZ s = s.tc / blocksW s / blocksH s := (Nat.div_div_eq_div_mul _ _ _).symm

theorem tileBy_eq (s : State) : tileBy s = s.tc / blocksW s % blocksH s := Nat.mod_mul_right_div_self _ _ _

/-- TC counts the tiles row by row and slice by slice. -/
theorem tc_eq_tile_place (s : State) : s.tc = (tileZ s * blocksH s + tileBy s) * blocksW s + tileBx s := by
  rw [tileZ_eq, tileBy_eq, Nat.div_add_mod', tileBx, Nat.div_add_mod']

/-- A tile of the command lies in the grid of its blocks. -/
theorem tile_place_lt {s : State} (h : s.tc < encTiles s) : tileZ s < opD s ∧ tileBy s < blocksH s ∧ tileBx s < blocksW s := by
  have hpos : 0 < blocksW s * blocksH s := Nat.pos_of_mul_pos_right (Nat.zero_lt_of_lt h)
  rw [tileBy_eq]
  exact ⟨Nat.div_lt_of_lt_mul h, Nat.mod_lt _ (Nat.pos_of_mul_pos_left hpos), Nat.mod_lt _ (Nat.pos_of_mul_pos_right hpos)⟩

/-- The tile at a place in the grid of blocks is the one that TC numbers so. -/
theorem tile_place_unique {s : State} {z bx by_ : Nat} (hx : bx < blocksW s) (hy : by_ < blocksH s)
    (h : s.tc = (z * blocksH s + by_) * blocksW s + bx) : tileZ s = z ∧ tileBy s = by_ ∧ tileBx s = bx := by
  have hdiv : s.tc / blocksW s = z * blocksH s + by_ := by
    rw [h, Nat.mul_comm, Nat.mul_add_div (by omega), Nat.div_eq_of_lt hx, Nat.add_zero]
  refine ⟨?_, ?_, ?_⟩
  · rw [tileZ_eq, hdiv, Nat.mul_comm, Nat.mul_add_div (by omega), Nat.div_eq_of_lt hy, Nat.add_zero]
  · rw [tileBy_eq, hdiv, Nat.mul_add_mod_self_right, Nat.mod_eq_of_lt hy]
  · rw [tileBx, h, Nat.mul_add_mod_self_right, Nat.mod_eq_of_lt hx]

/-! ## What an encode tile reads and writes -/

/-- A pixel of the source image lies in the source region. -/
theorem sourcePixelAddr_lt {s : State} {z sy sx k : Nat} (hz : z < opD s) (hy : sy < opH s) (hx : sx < opW s) (hk : k < 4) :
    srcAddr s ≤ sourcePixelAddr s z sy sx + k ∧
      sourcePixelAddr s z sy sx + k < srcAddr s + 4 * opW s * opH s * opD s := by
  have h := row_mul_add_lt (row_mul_add_lt hz hy) hx
  have hlen : 4 * opW s * opH s * opD s = 4 * (opD s * opH s * opW s) := by ring
  unfold sourcePixelAddr
  omega

theorem mem_extractReads {s : State} {z bx by_ a : Nat} :
    a ∈ extractReads s z bx by_ ↔ ∃ p k, p < 16 ∧ k < 4 ∧ a = tilePixelAddr s z bx by_ p + k := by
  simp only [extractReads, List.mem_flatMap, List.mem_map, List.mem_range]
  exact ⟨fun ⟨p, hp, k, hk, h⟩ => ⟨p, k, hp, hk, h.symm⟩, fun ⟨p, k, hp, hk, h⟩ => ⟨p, hp, k, hk, h.symm⟩⟩

theorem inSource_enc {i : Instr} {f : Fmt} {q : Quality} (hk : kindOf i = .enc f q) {s : State} {a : Nat} :
    inSource i s a = true ↔ srcAddr s ≤ a ∧ a < srcAddr s + 4 * opW s * opH s * opD s := by
  simp [inSource, srcLen, hk]

theorem inDest_enc {i : Instr} {f : Fmt} {q : Quality} (hk : kindOf i = .enc f q) {s : State} {a : Nat} :
    inDest i s a = true ↔ dstAddr s ≤ a ∧ a < dstAddr s + blockSize f * encTiles s := by
  simp [inDest, dstLen, hk, encTiles, Nat.mul_assoc]

theorem encodeTile_reads_inSource {i : Instr} {f : Fmt} {q : Quality} (hk : kindOf i = .enc f q) {s : State}
    (ht : s.tc < encTiles s) : ∀ a ∈ (encodeTile f q s).reads, inSource i s a = true := by
  intro a ha
  obtain ⟨p, k, -, hk4, rfl⟩ := mem_extractReads.1 ha
  obtain ⟨hz, hy, hx⟩ := tile_place_lt ht
  have hW : 0 < opW s := by unfold blocksW ceilDiv at hx; omega
  have hH : 0 < opH s := by unfold blocksH ceilDiv at hy; omega
  exact (inSource_enc hk).2 (sourcePixelAddr_lt hz (by unfold clampY; omega) (by unfold clampX; omega) hk4)

/-- The cells of an encode tile are the bytes of its block. -/
theorem mem_encodeTile_writes {f : Fmt} {q : Quality} {s : State} {c : Host.Cell} (hc : c ∈ (encodeTile f q s).writes) :
    blockAddr f s ≤ c.1 ∧ c.1 < blockAddr f s + blockSize f ∧
      (encodedScratch f q s).outb[c.1 - blockAddr f s]? = some c.2 := by
  have h := mem_cellsAt hc
  rwa [encodedScratch, encodeBlock_outb_length] at h

theorem encodeTile_writes_inDest {i : Instr} {f : Fmt} {q : Quality} (hk : kindOf i = .enc f q) {s : State}
    (ht : s.tc < encTiles s) : ∀ c ∈ (encodeTile f q s).writes, inDest i s c.1 = true := by
  intro c hc
  obtain ⟨hlo, hhi, -⟩ := mem_encodeTile_writes hc
  have hend : blockSize f * (s.tc + 1) ≤ blockSize f * encTiles s := Nat.mul_le_mul_left _ ht
  rw [Nat.mul_succ] at hend
  refine (inDest_enc hk).2 ?_
  unfold blockAddr at hlo hhi
  omega

/-! ## The words of a decode command (R303) -/

/-- The loop of `TwiddleUV` interleaves the bits of the smaller dimension, two for each. -/
theorem twiddleLoop_pow2 (m x y : Nat) : ∀ fuel n t, n ≤ m → m ≤ n + fuel → t < 2 ^ (2 * n) →
    (twiddleLoop (2 ^ m) x y fuel n t).1 = m ∧ (twiddleLoop (2 ^ m) x y fuel n t).2 < 2 ^ (2 * m)
  | 0, n, t, hn, hf, ht => by
    obtain rfl : n = m := by omega
    exact ⟨rfl, ht⟩
  | fuel + 1, n, t, hn, hf, ht => by
    unfold twiddleLoop
    by_cases h : n < m
    · rw [if_pos (Nat.pow_lt_pow_right (by decide) h)]
      refine twiddleLoop_pow2 m x y fuel (n + 1) _ h (by omega) ?_
      have hy := Nat.mul_le_mul_right (2 ^ (2 * n)) (Nat.le_of_lt_succ (bit_lt y n))
      have hx := Nat.mul_le_mul_right (2 ^ (2 * n + 1)) (Nat.le_of_lt_succ (bit_lt x n))
      rw [show 2 * (n + 1) = 2 * n + 1 + 1 by ring]
      simp only [Nat.pow_succ] at hx ⊢
      omega
    · obtain rfl : n = m := by omega
      rw [if_neg (lt_irrefl _)]
      exact ⟨rfl, ht⟩

/-- Twiddling stays in the grid: `2^m` interleaved places for each of the `2^k` blocks along the longer side. -/
theorem twiddle_block_lt {m k t v : Nat} (ht : t < 2 ^ (2 * m)) (hv : v < 2 ^ (m + k)) :
    t + v / 2 ^ m * 2 ^ (2 * m) < 2 ^ (m + k) * 2 ^ m := by
  have hdiv : v / 2 ^ m < 2 ^ k := Nat.div_lt_of_lt_mul (by rwa [← Nat.pow_add])
  calc t + v / 2 ^ m * 2 ^ (2 * m) = v / 2 ^ m * 2 ^ (2 * m) + t := Nat.add_comm _ _
    _ < 2 ^ k * 2 ^ (2 * m) := row_mul_add_lt hdiv ht
    _ = 2 ^ (m + k) * 2 ^ m := by rw [← Nat.pow_add, ← Nat.pow_add]; congr 1; ring

theorem twiddleUV_lt {dimX dimY x y : Nat} (hX : ∃ k, dimX = 2 ^ k) (hY : ∃ k, dimY = 2 ^ k) (hx : x < dimX) (hy : y < dimY) :
    twiddleUV dimX dimY x y < dimX * dimY := by
  obtain ⟨j, rfl⟩ := hX
  obtain ⟨k, rfl⟩ := hY
  have loop : ∀ m, (twiddleLoop (2 ^ m) x y (2 ^ m) 0 0).1 = m ∧ (twiddleLoop (2 ^ m) x y (2 ^ m) 0 0).2 < 2 ^ (2 * m) := fun m =>
    twiddleLoop_pow2 m x y _ 0 0 (Nat.zero_le _) (by have := @Nat.lt_two_pow_self m; omega) (by positivity)
  unfold twiddleUV
  dsimp only
  by_cases h : 2 ^ k < 2 ^ j
  · obtain ⟨d, rfl⟩ := Nat.exists_eq_add_of_lt ((Nat.pow_lt_pow_iff_right (by decide)).1 h)
    rw [if_pos h, if_pos h, (loop k).1]
    exact twiddle_block_lt (k := d + 1) (loop k).2 hx
  · obtain ⟨d, rfl⟩ := Nat.exists_eq_add_of_le ((Nat.pow_le_pow_iff_right (by decide)).1 (Nat.le_of_not_lt h))
    rw [if_neg h, if_neg h, (loop j).1, Nat.mul_comm (2 ^ j) (2 ^ (j + d))]
    exact twiddle_block_lt (loop j).2 hy

theorem wrap_lt {n : Nat} (h : 0 < n) (i : Int) : wrap n i < n := by
  have h1 := Int.emod_nonneg (n + i) (show (n : Int) ≠ 0 by omega)
  have h2 := Int.emod_lt_of_pos (n + i) (show (0 : Int) < n by omega)
  unfold wrap
  omega

/-! ## What a decode tile reads and writes -/

/-- What passed checks say of a decode command's grid of words (R78, R364). -/
theorem wordGrid_of_startChecks {i : Instr} {b : Bpp} {s : State} (hk : kindOf i = .dec b) (hc : startChecks i s = none) :
    (∃ k, wordsX b s = 2 ^ k) ∧ (∃ k, wordsY b s = 2 ^ k) ∧ opW s = wordsX b s * ww b ∧ opH s = wordsY b s * wh b ∧
      0 < wordsX b s ∧ 0 < wordsY b s := by
  obtain ⟨hW, hH, hminW, hminH, -⟩ := startChecks_dec_none hk hc
  obtain ⟨hX, hWX, hX2⟩ := wordsX_pow2 hW hminW
  obtain ⟨hY, hHY, hY2⟩ := wordsY_pow2 hH hminH
  exact ⟨hX, hY, hWX, hHY, by omega, by omega⟩

theorem image_pos_of_startChecks {i : Instr} {b : Bpp} {s : State} (hk : kindOf i = .dec b) (hc : startChecks i s = none) :
    0 < opW s ∧ 0 < opH s := by
  obtain ⟨-, -, hW, hH, -⟩ := startChecks_dec_none hk hc
  have hmin : 0 < minW b ∧ 0 < minH b := by cases b <;> decide
  exact ⟨hmin.1.trans_le hW, hmin.2.trans_le hH⟩

/-- The source of a decode command holds 8 bytes for each word. -/
theorem srcLen_dec {i : Instr} {b : Bpp} {s : State} (hk : kindOf i = .dec b) (hc : startChecks i s = none) :
    srcLen i s = 8 * (wordsX b s * wordsY b s) := by
  obtain ⟨-, -, hW, hH, -, -⟩ := wordGrid_of_startChecks hk hc
  have hword : ww b * wh b * bppOf b = 64 := by cases b <;> rfl
  have hbits : opW s * opH s * bppOf b = 8 * (wordsX b s * wordsY b s) * 8 := by
    rw [hW, hH]
    calc wordsX b s * ww b * (wordsY b s * wh b) * bppOf b
        = wordsX b s * wordsY b s * (ww b * wh b * bppOf b) := by ring
      _ = 8 * (wordsX b s * wordsY b s) * 8 := by rw [hword]; ring
  simp only [srcLen, hk, hbits]
  exact Nat.mul_div_cancel _ (by decide)

theorem wordReads_inSource {i : Instr} {b : Bpp} {s : State} (hk : kindOf i = .dec b) (hc : startChecks i s = none) {x y : Nat}
    (hx : x < wordsX b s) (hy : y < wordsY b s) : ∀ a ∈ wordReads b s x y, inSource i s a = true := by
  obtain ⟨hX, hY, -, -, -, -⟩ := wordGrid_of_startChecks hk hc
  have hlt := twiddleUV_lt hX hY hx hy
  intro a ha
  obtain ⟨k, hk8, rfl⟩ := List.mem_map.1 ha
  have hk8 := List.mem_range.1 hk8
  simp only [inSource, srcLen_dec hk hc, wordAddr, decide_eq_true_eq]
  omega

theorem decodeTile_reads_inSource {i : Instr} {b : Bpp} {s : State} (hk : kindOf i = .dec b) (hc : startChecks i s = none) :
    ∀ a ∈ (decodeTile b s).reads, inSource i s a = true := by
  obtain ⟨-, -, -, -, hX, hY⟩ := wordGrid_of_startChecks hk hc
  intro a ha
  simp only [decodeTile, decodeReads, List.mem_append] at ha
  rcases ha with ((ha | ha) | ha) | ha <;> exact wordReads_inSource hk hc (wrap_lt hX _) (wrap_lt hY _) a ha

theorem decodeTile_writes_inDest {i : Instr} {b : Bpp} {s : State} (hk : kindOf i = .dec b) (hc : startChecks i s = none) :
    ∀ c ∈ (decodeTile b s).writes, inDest i s c.1 = true := by
  obtain ⟨hW0, hH0⟩ := image_pos_of_startChecks hk hc
  intro x hx
  obtain ⟨c, r, -, -, hcell⟩ := mem_decodeWrites.1 hx
  obtain ⟨hlo, hhi, -⟩ := mem_cellsAt hcell
  obtain ⟨k, hxk⟩ := Nat.exists_eq_add_of_le hlo
  rw [pixelBytes_length] at hhi
  have hlt := outPixelAddr_lt (s := s) (k := k) (outX_lt (b := b) hW0 c) (outY_lt (b := b) hH0 r) (by omega)
  simpa only [inDest, dstLen, hk, decide_eq_true_eq, hxk] using hlt

/-! ## The tile of any command -/

/-- R71: a tile of a command that passed its checks reads its source region. -/
theorem nextTile_reads_inSource {i : Instr} {s : State} (hc : startChecks i s = none) (ht : s.tc < tilesOf i s) :
    ∀ a ∈ (nextTile i s).reads, inSource i s a = true := by
  cases hk : kindOf i with
  | clear => simp [tilesOf, hk] at ht
  | enc f q =>
    rw [nextTile_enc hk]
    exact encodeTile_reads_inSource hk (by simpa [tilesOf, hk] using ht)
  | dec b =>
    rw [nextTile_dec hk]
    exact decodeTile_reads_inSource hk hc

/-- R71: it writes its destination region. -/
theorem nextTile_writes_inDest {i : Instr} {s : State} (hc : startChecks i s = none) (ht : s.tc < tilesOf i s) :
    ∀ c ∈ (nextTile i s).writes, inDest i s c.1 = true := by
  cases hk : kindOf i with
  | clear => simp [tilesOf, hk] at ht
  | enc f q =>
    rw [nextTile_enc hk]
    exact encodeTile_writes_inDest hk (by simpa [tilesOf, hk] using ht)
  | dec b =>
    rw [nextTile_dec hk]
    exact decodeTile_writes_inDest hk hc

/-- Settles O34, by the regions of a tile and the place of an encode tile. -/
theorem tileStaysInItsRegions : Obligations.TileStaysInItsRegions := by
  intro i s hinv hr
  obtain ⟨hc, hn, ht⟩ := hinv.of_running hr
  rw [hn] at ht
  refine ⟨nextTile_reads_inSource hc ht, nextTile_writes_inDest hc ht, fun f q hk => ?_⟩
  obtain ⟨hz, hy, hx⟩ := tile_place_lt (s := s) (by simpa [tilesOf, hk] using ht)
  exact ⟨by rw [blockAddr, ← tc_eq_tile_place], hx, hy, hz⟩

end Sys2Proof.Machine

/-! # The end of a command: what completion settles (R86), and the engine looked ahead to it -/

namespace Sys2Proof.Machine

/-! ## What completion settles (R82, R86) -/

/-- Of a command whose source no race has touched only the host's own writes are settled. -/
theorem settleCells_untainted {i : Instr} {s : State} (h : s.race.tainted = false) : settleCells i s ⊆ s.race.hostWrites := by
  intro c hc
  simp only [settleCells, h, Bool.false_eq_true, if_false, List.mem_filterMap] at hc
  obtain ⟨⟨d, n⟩, hd, hdc⟩ := hc
  split at hdc
  · injection hdc with hdc
    exact hdc ▸ List.fst_mem_of_mem_zipIdx hd
  · cases hdc

/-- Of a tainted one every destination byte is drawn. -/
theorem settleCells_tainted {i : Instr} {s : State} (h : s.race.tainted = true) :
    settleCells i s = (List.range (dstLen i s)).map (fun k => (dstAddr s + k, Config.drawByte (s.draws + k))) := if_pos h

/-- Completion settles destination bytes only. -/
theorem settleCells_inDest {i : Instr} {s : State} (h : ∀ c ∈ s.race.hostWrites, inDest i s c.1 = true) :
    ∀ c ∈ settleCells i s, inDest i s c.1 = true := by
  intro c hc
  cases ht : s.race.tainted with
  | false => exact h c (settleCells_untainted ht hc)
  | true =>
    rw [settleCells_tainted ht] at hc
    obtain ⟨k, hk, rfl⟩ := List.mem_map.1 hc
    have := List.mem_range.1 hk
    simp only [inDest, decide_eq_true_eq]
    omega

/-- Every admitted cell lies in the address space. -/
theorem admittedCells_lt (p : Params) (cs : List Host.Cell) : ∀ c ∈ admittedCells p cs, c.1 < 2 ^ 64 :=
  fun _ hc => engineAdmits_lt (mem_admittedCells.1 hc).2

/-- Where the source was not touched, a byte is the engine's or one the host wrote. -/
theorem complete_read_untainted {i : Instr} {s : State} (hw : Memory.wf s.mem) (h : s.race.tainted = false) (a : Nat) :
    Memory.read (complete i s).mem a = Memory.read s.mem a ∨ (a, Memory.read (complete i s).mem a) ∈ s.race.hostWrites := by
  rw [complete_mem]
  by_cases hex : ∃ c ∈ admittedCells s.params (settleCells i s), c.1 = a
  · obtain ⟨c, hc, rfl, hv⟩ := Memory.read_writes_some hw (admittedCells_lt _ _) hex
    rw [hv]
    exact .inr (settleCells_untainted h (mem_admittedCells.1 hc).1)
  · exact .inl (Memory.read_writes_other (fun c hc hca => hex ⟨c, hc, hca⟩) hw (admittedCells_lt _ _))

/-- Where it was, an admitted destination byte is the one drawn for it. -/
theorem complete_read_tainted {i : Instr} {s : State} (hw : Memory.wf s.mem) (h : s.race.tainted = true) {k : Nat}
    (hk : k < dstLen i s) (ha : engineAdmits s.params (dstAddr s + k) = true) :
    Memory.read (complete i s).mem (dstAddr s + k) = Config.drawByte (s.draws + k) := by
  rw [complete_mem, settleCells_tainted h]
  refine Memory.read_writes_of_mem (c := (dstAddr s + k, Config.drawByte (s.draws + k))) ?_ ?_ hw (admittedCells_lt _ _)
  · refine List.Pairwise.filter _ (List.pairwise_map.2 (List.pairwise_lt_range.imp fun {x y} hxy => ?_))
    dsimp only
    omega
  · exact mem_admittedCells.2 ⟨List.mem_map.2 ⟨k, List.mem_range.2 hk, rfl⟩, ha⟩

/-- No byte outside the destination changes. -/
theorem complete_read_outside {i : Instr} {s : State} (hw : Memory.wf s.mem) (h : ∀ c ∈ s.race.hostWrites, inDest i s c.1 = true)
    {a : Nat} (ha : inDest i s a = false) : Memory.read (complete i s).mem a = Memory.read s.mem a := by
  rw [complete_mem]
  refine Memory.read_writes_other (fun c hc hca => ?_) hw (admittedCells_lt _ _)
  subst hca
  rw [settleCells_inDest h c (mem_admittedCells.1 hc).1] at ha
  cases ha

/-! ## What is unseen at DONE (R85) -/

/-- A destination byte may still read as it was at the command's start. -/
theorem startMem_mem_completeUnseen {i : Instr} {s : State} {a : Nat} (h : inDest i s a = true) :
    (a, Memory.read s.race.startMem a) ∈ (completeUnseen i s).last := by
  simp only [inDest, decide_eq_true_eq] at h
  obtain ⟨k, rfl⟩ := Nat.exists_eq_add_of_le h.1
  exact List.mem_append_left _ (List.mem_append_left _ (List.mem_map.2 ⟨k, List.mem_range.2 (by omega), rfl⟩))

/-- Only destination bytes wait for the read of STATUS. -/
theorem completeUnseen_last_inDest {i : Instr} {s : State} (h : ∀ c ∈ s.race.hostWrites, inDest i s c.1 = true) :
    ∀ c ∈ (completeUnseen i s).last, inDest i s c.1 = true := by
  intro c hc
  simp only [completeUnseen, unseenCells, List.mem_append, List.mem_map, List.mem_range, List.mem_flatMap, List.mem_filter] at hc
  obtain (⟨k, hk, rfl⟩ | ⟨d, hd, hc⟩) | ⟨-, hc⟩ := hc
  · simp only [inDest, decide_eq_true_eq]
    omega
  · have hcd : c.1 = d.1 := by
      simp only [List.mem_cons, List.not_mem_nil, or_false] at hc
      rcases hc with rfl | rfl <;> rfl
    rw [hcd]
    exact h d hd
  · exact hc

/-- What earlier commands and resets left stays outside the destination only. -/
theorem mem_completeUnseen_earlier {i : Instr} {s : State} {c : Host.Cell} :
    c ∈ (completeUnseen i s).earlier ↔ c ∈ s.unseen.earlier ∧ inDest i s c.1 = false := by
  simp [completeUnseen]

theorem mem_completeUnseen_left {i : Instr} {s : State} {c : Host.Cell} :
    c ∈ (completeUnseen i s).left ↔ c ∈ s.unseen.left ∧ inDest i s c.1 = false := by
  simp [completeUnseen]

/-! ## The last tile -/

theorem afterTile_sameOperands (e : TileEffect) (s : State) : sameOperands s (afterTile e s) := by simp [sameOperands]

/-- A ready command whose tile is not its last one takes it. -/
theorem exec_of_tile {i : Instr} (hi : i ≠ .clr) {s : State} (h : TileReady i s) (hl : s.tc + 1 ≠ s.nt) :
    exec i s = .next (afterTile (nextTile i s) s) := by
  obtain ⟨hr, ht, ha⟩ := h
  rw [exec_running hi hr]
  obtain ⟨-, hn | hn⟩ | ⟨-, -, -, he⟩ | ⟨-, -, hl', -⟩ := engineStep_cases i (nextTile i s) s
  · omega
  · rw [ha] at hn
    cases hn
  · rw [he]
  · exact absurd hl' hl

/-- With its last tile it completes. -/
theorem exec_of_lastTile {i : Instr} (hi : i ≠ .clr) {s : State} (h : TileReady i s) (hl : s.tc + 1 = s.nt) :
    exec i s = .next (complete i (afterTile (nextTile i s) s)) := by
  obtain ⟨hr, ht, ha⟩ := h
  rw [exec_running hi hr]
  obtain ⟨-, hn | hn⟩ | ⟨-, -, hl', -⟩ | ⟨-, -, -, he⟩ := engineStep_cases i (nextTile i s) s
  · omega
  · rw [ha] at hn
    cases hn
  · exact absurd hl hl'
  · rw [he]

/-- A command whose next tile is not admitted is stuck (R362). -/
theorem exec_of_stuck {i : Instr} (hi : i ≠ .clr) {s : State} (hr : Running i s)
    (ha : tileAdmitted s.params (nextTile i s) = false) : exec i s = .next s := by
  rw [exec_running hi hr]
  obtain ⟨he, -⟩ | ⟨-, hn, -⟩ | ⟨-, hn, -⟩ := engineStep_cases i (nextTile i s) s
  · rw [he]
  all_goals rw [ha] at hn; cases hn

/-- Settles O41, by what completion does after the last tile. -/
theorem completionSettlesTheRaces : Obligations.CompletionSettlesTheRaces := by
  intro i s hi hready hl hw
  have ⟨hr, _, hadm⟩ := hready
  have htile := tileAdmitted_writes_lt hadm
  have ho := afterTile_sameOperands (nextTile i s) s
  have hdest := inDest_congr i ho
  have hwu : Memory.wf (afterTile (nextTile i s) s).mem := Memory.writes_wf hw htile
  have hrec : Inv s → ∀ c ∈ (afterTile (nextTile i s) s).race.hostWrites, inDest i (afterTile (nextTile i s) s) c.1 = true := by
    intro hinv c hc
    rw [hdest]
    exact hinv.recorded hr.1 i (by rw [hr.2, decode_encode_word]) c hc
  refine ⟨_, exec_of_lastTile hi hready hl, rfl, rfl, hl, rfl, ho, by simp [sameHostSide], complete_read_untainted hwu,
    fun ht k hk ha => complete_read_tainted hwu ht (by rwa [dstLen_congr i ho]) ha, fun hinv a ha => ?_, fun c => ?_, fun a ha => ?_,
    fun hinv c hc => ?_⟩
  · obtain ⟨hc, hn, ht⟩ := hinv.of_running hr
    rw [complete_read_outside hwu (hrec hinv) (by rwa [hdest])]
    refine Memory.read_writes_other (fun c hcell hca => ?_) hw htile
    rw [← hca, nextTile_writes_inDest hc (hn ▸ ht) c hcell] at ha
    cases ha
  · rw [← hdest]
    exact ⟨mem_completeUnseen_earlier, mem_completeUnseen_left⟩
  · exact startMem_mem_completeUnseen (s := afterTile (nextTile i s) s) (by rwa [hdest])
  · rw [← hdest]
    exact completeUnseen_last_inDest (hrec hinv) c hc

/-! ## The engine looked ahead -/

/-- The memory of `tilesAhead` is what the machine's own steps leave. -/
theorem run_tilesAhead {i : Instr} : ∀ (n : Nat) (s : State), Inv s → Running i s → RaceFree s → s.events = [] → s.nt - s.tc = n →
    ∃ (k : Nat) (t : State), k ≤ n ∧ Host.Core.run core k s = .next t ∧ t.mem = (tilesAhead i n s).mem ∧ t.tc = s.tc + k ∧
      sameOperands s t ∧
      (t.status = .done ∧ k = n ∨
        t.status = .busy ∧ k < n ∧ tileAdmitted t.params (nextTile i t) = false ∧ step t = .next t)
  | 0, s, hinv, hr, _, _, hn => by
    obtain ⟨-, -, hlt⟩ := hinv.of_running hr
    omega
  | n + 1, s, hinv, hr, hf, he, hn => by
    have hi := hinv.running_ne_clr hr
    obtain ⟨-, -, hlt⟩ := hinv.of_running hr
    have hstep := step_of_running (runningInstr_of_running hr) he
    unfold tilesAhead takeTile
    cases ha : tileAdmitted s.params (nextTile i s) with
    | false =>
      exact ⟨0, s, Nat.zero_le _, rfl, rfl, rfl, by simp [sameOperands],
        .inr ⟨hr.1, by omega, ha, hstep.trans (exec_of_stuck hi hr ha)⟩⟩
    | true =>
      have hready : TileReady i s := ⟨hr, hlt, ha⟩
      by_cases hl : s.tc + 1 = s.nt
      · obtain rfl : n = 0 := by omega
        refine ⟨1, _, le_rfl, run_succ (hstep.trans (exec_of_lastTile hi hready hl)) 0, ?_, rfl,
          afterTile_sameOperands (nextTile i s) s, .inl ⟨rfl, rfl⟩⟩
        rw [complete_mem, settleCells_raceFree i (s := afterTile (nextTile i s) s) hf]
        rfl
      · have hs := hstep.trans (exec_of_tile hi hready hl)
        obtain ⟨k, t, hk, hrun, hmem, htc, ho, hend⟩ := run_tilesAhead n (afterTile (nextTile i s) s)
          (everyStepKeepsTheInvariant _ _ hinv hs) hr hf he (by simp only [afterTile_nt, afterTile_tc]; omega)
        refine ⟨k + 1, t, by omega, (run_succ hs k).trans hrun, hmem, by rw [htc, afterTile_tc]; omega, ho, ?_⟩
        exact hend.imp (And.imp_right (congrArg (· + 1))) (And.imp_right (And.imp_left Nat.succ_lt_succ))

/-- Settles O39, by induction on the tiles left. -/
theorem engineMemIsWhatTheStepsLeave : Obligations.EngineMemIsWhatTheStepsLeave :=
  fun _ s hinv hr hf he => run_tilesAhead (s.nt - s.tc) s hinv hr hf he rfl

end Sys2Proof.Machine

/-! # A whole command: each of its tiles writes cells of its own, and the run keeps them (R93, R261, R301) -/

namespace Sys2Proof.Machine

/-! ## Tile `n` of a command, as it is on the memory the command starts from -/

/-- The effect of tile `n` of a command on the memory of `s`. -/
def tileAt (i : Instr) (s : State) (n : Nat) : TileEffect := nextTile i { s with tc := n }

theorem sameOperands_with_tc (s : State) (n : Nat) : sameOperands s { s with tc := n } := by simp [sameOperands]

theorem tileAt_reads_inSource {i : Instr} {s : State} (hc : startChecks i s = none) {n : Nat} (hn : n < tilesOf i s) :
    ∀ a ∈ (tileAt i s n).reads, inSource i s a = true := by
  have ho := sameOperands_with_tc s n
  intro a ha
  rw [← inSource_congr i ho]
  exact nextTile_reads_inSource (by rwa [startChecks_congr i ho]) (by rwa [tilesOf_congr i ho]) a ha

theorem tileAt_writes_inDest {i : Instr} {s : State} (hc : startChecks i s = none) {n : Nat} (hn : n < tilesOf i s) :
    ∀ c ∈ (tileAt i s n).writes, inDest i s c.1 = true := by
  have ho := sameOperands_with_tc s n
  intro c hcell
  rw [← inDest_congr i ho]
  exact nextTile_writes_inDest (by rwa [startChecks_congr i ho]) (by rwa [tilesOf_congr i ho]) c hcell

/-! ## What a tile writes depends on the operands and on the bytes it reads alone -/

/-- No byte of a block depends on the scratch before it (R45). -/
theorem encodeBlock_outb_congr (f : Fmt) (q : Quality) (k : Nat) (b : Vector Pixel 16) (e e' : EncScratch) :
    (encodeBlock f q k b e).outb = (encodeBlock f q k b e').outb := by cases f <;> cases q <;> rfl

theorem readPixel_congr {m m' : Memory} {addr : Nat} (h : ∀ k, k < 4 → Memory.read m (addr + k) = Memory.read m' (addr + k)) :
    Memory.readPixel m addr = Memory.readPixel m' addr := by
  simp only [Memory.readPixel, Pixel.mk.injEq]
  exact ⟨h 0 (by decide), h 1 (by decide), h 2 (by decide), h 3 (by decide)⟩

theorem extract_congr {s : State} {m : Memory} {z bx by_ : Nat}
    (h : ∀ a ∈ extractReads s z bx by_, Memory.read m a = Memory.read s.mem a) :
    extract { s with mem := m } z bx by_ = extract s z bx by_ := by
  unfold extract
  congr 1
  funext p
  exact readPixel_congr fun k hk => h _ (mem_extractReads.2 ⟨p, k, p.isLt, hk, rfl⟩)

theorem read32_congr {m m' : Memory} {addr : Nat} (h : ∀ k, k < 4 → Memory.read m (addr + k) = Memory.read m' (addr + k)) :
    Memory.read32 m addr = Memory.read32 m' addr :=
  congrArg (fun bs => BitVec.ofNat 32 (leValue bs)) (List.map_congr_left fun k hk => h k (List.mem_range.1 hk))

theorem fetchWord_congr {b : Bpp} {s : State} {m : Memory} {x y : Nat}
    (h : ∀ a ∈ wordReads b s x y, Memory.read m a = Memory.read s.mem a) :
    fetchWord b { s with mem := m } x y = fetchWord b s x y := by
  have hread : ∀ k, k < 8 → Memory.read m (wordAddr b s x y + k) = Memory.read s.mem (wordAddr b s x y + k) :=
    fun k hk => h _ (List.mem_map.2 ⟨k, List.mem_range.2 hk, rfl⟩)
  simp only [fetchWord, PvWord.mk.injEq]
  exact ⟨read32_congr fun k hk => hread k (by omega),
    read32_congr fun k hk => (Nat.add_assoc _ 4 k).symm ▸ hread (4 + k) (by omega)⟩

theorem fetchTile_congr {b : Bpp} {s : State} {m : Memory}
    (h : ∀ a ∈ decodeReads b s, Memory.read m a = Memory.read s.mem a) :
    fetchTile b { s with mem := m } = fetchTile b s := by
  simp only [decodeReads, List.mem_append] at h
  simp only [fetchTile, FourWords.mk.injEq]
  exact ⟨fetchWord_congr fun a ha => h a (.inl (.inl (.inl ha))), fetchWord_congr fun a ha => h a (.inl (.inl (.inr ha))),
    fetchWord_congr fun a ha => h a (.inl (.inr ha)), fetchWord_congr fun a ha => h a (.inr ha)⟩

/-- Of its state a tile's cells depend on the operands, the launch parameters, TC and memory. -/
theorem nextTile_writes_of_sameOperands {i : Instr} {s u : State} (ho : sameOperands s u) (hp : u.params = s.params) :
    (nextTile i u).writes = (nextTile i { s with tc := u.tc, mem := u.mem }).writes := by
  cases s
  cases u
  dsimp only [sameOperands] at ho hp
  obtain ⟨rfl, rfl, rfl, rfl, rfl, rfl, rfl, rfl⟩ := ho
  subst hp
  unfold nextTile
  cases kindOf i with
  | clear => rfl
  | enc f q => exact congrArg (cellsAt _) (encodeBlock_outb_congr f q _ _ _ _)
  | dec b => rfl

/-- Of memory they depend on the bytes that the tile reads. -/
theorem nextTile_writes_of_reads {i : Instr} {s : State} {m : Memory}
    (h : ∀ a ∈ (nextTile i s).reads, Memory.read m a = Memory.read s.mem a) :
    (nextTile i { s with mem := m }).writes = (nextTile i s).writes := by
  cases hk : kindOf i with
  | clear => simp [nextTile, hk]
  | enc f q =>
    rw [nextTile_enc hk] at h ⊢
    rw [nextTile_enc hk]
    have hb : extract { s with mem := m } (tileZ s) (tileBx s) (tileBy s) = extract s (tileZ s) (tileBx s) (tileBy s) :=
      extract_congr h
    exact congrArg (fun blk => cellsAt (blockAddr f s) (encodeBlock f q s.params.normalInsetShift.val blk s.scratch.enc).outb) hb
  | dec b =>
    rw [nextTile_dec hk] at h ⊢
    rw [nextTile_dec hk]
    exact congrArg (decodeWrites b s) (fetchTile_congr h)

/-! ## No byte belongs to two tiles -/

/-- The cells of encode tile `n` are the bytes of its block at `DST + BS·n` (R261). -/
theorem mem_tileAt_enc {i : Instr} {f : Fmt} {q : Quality} (hk : kindOf i = .enc f q) {s : State} {n : Nat} {c : Host.Cell}
    (hc : c ∈ (tileAt i s n).writes) : ∃ k, k < blockSize f ∧ c.1 = dstAddr s + (n * blockSize f + k) ∧
      (encodedScratch f q { s with tc := n }).outb[k]? = some c.2 := by
  unfold tileAt at hc
  rw [nextTile_enc hk] at hc
  obtain ⟨hlo, hhi, hb⟩ := mem_encodeTile_writes hc
  have haddr : blockAddr f { s with tc := n } = dstAddr s + n * blockSize f := congrArg (dstAddr s + ·) (Nat.mul_comm _ _)
  rw [haddr] at hlo hhi hb
  exact ⟨_, by omega, by omega, hb⟩

/-- Tile `n` of a command begins `n` words of its row on, a half word after the corner of the image, and wraps (R326). -/
theorem outX_tileAt (b : Bpp) (s : State) (n c : Nat) :
    outX b { s with tc := n } c =
      ((((ww b / 2 : Nat) - (ww b : Nat) : Int) + (n % wordsX b s * ww b + c : Nat)) % (opW s : Int)).toNat := by
  have h : (((n % wordsX b s : Nat) : Int) - 1) * ww b + (ww b / 2 : Nat) + c =
      ((ww b / 2 : Nat) - (ww b : Nat) : Int) + (n % wordsX b s * ww b + c : Nat) := by push_cast; ring
  rw [← h]
  rfl

theorem outY_tileAt (b : Bpp) (s : State) (n r : Nat) :
    outY b { s with tc := n } r =
      ((((wh b / 2 : Nat) - (wh b : Nat) : Int) + (n / wordsX b s * wh b + r : Nat)) % (opH s : Int)).toNat := by
  have h : (((n / wordsX b s : Nat) : Int) - 1) * wh b + (wh b / 2 : Nat) + r =
      ((wh b / 2 : Nat) - (wh b : Nat) : Int) + (n / wordsX b s * wh b + r : Nat) := by push_cast; ring
  rw [← h]
  rfl

/-- The row and the column of a place in a grid are its own. -/
theorem row_mul_add_inj {r r' c c' cols : Nat} (hc : c < cols) (hc' : c' < cols) (h : r * cols + c = r' * cols + c') :
    r = r' ∧ c = c' := by
  have hdiv := congrArg (· / cols) h
  simp only [Nat.mul_comm _ cols, Nat.mul_add_div (Nat.zero_lt_of_lt hc), Nat.div_eq_of_lt hc, Nat.div_eq_of_lt hc',
    Nat.add_zero] at hdiv
  subst hdiv
  exact ⟨rfl, by omega⟩

/-- No pixel of the image belongs to two tiles, nor to two positions of one (R326). -/
theorem tile_pixel_inj {i : Instr} {b : Bpp} {s : State} (hk : kindOf i = .dec b) (hc : startChecks i s = none)
    {n n' c c' r r' : Nat} (hn : n < decTiles b s) (hn' : n' < decTiles b s) (hcw : c < ww b) (hcw' : c' < ww b) (hrh : r < wh b)
    (hrh' : r' < wh b) (hx : outX b { s with tc := n } c = outX b { s with tc := n' } c')
    (hy : outY b { s with tc := n } r = outY b { s with tc := n' } r') : n = n' ∧ c = c' ∧ r = r' := by
  obtain ⟨-, -, hW, hH, hX, -⟩ := wordGrid_of_startChecks hk hc
  have col : ∀ m d, d < ww b → m % wordsX b s * ww b + d < opW s := fun m d hd => by
    rw [hW]
    exact row_mul_add_lt (Nat.mod_lt _ hX) hd
  have row : ∀ m d, m < decTiles b s → d < wh b → m / wordsX b s * wh b + d < opH s := fun m d hm hd => by
    rw [hH]
    exact row_mul_add_lt (Nat.div_lt_of_lt_mul hm) hd
  rw [outX_tileAt, outX_tileAt] at hx
  rw [outY_tileAt, outY_tileAt] at hy
  obtain ⟨hmod, rfl⟩ :=
    row_mul_add_inj hcw hcw' (emod_inj (Nat.zero_lt_of_lt (col n c hcw)) (col n c hcw) (col n' c' hcw') hx)
  obtain ⟨hdiv, rfl⟩ :=
    row_mul_add_inj hrh hrh' (emod_inj (Nat.zero_lt_of_lt (row n r hn hrh)) (row n r hn hrh) (row n' r' hn' hrh') hy)
  exact ⟨by rw [← Nat.div_add_mod n (wordsX b s), hdiv, hmod, Nat.div_add_mod], rfl, rfl⟩

/-- The cells of decode tile `n` are the bytes of its pixels in their places (R326). -/
theorem mem_tileAt_dec {i : Instr} {b : Bpp} (hk : kindOf i = .dec b) {s : State} {n : Nat} {x : Host.Cell}
    (hx : x ∈ (tileAt i s n).writes) : ∃ c r k, c < ww b ∧ r < wh b ∧ k < 4 ∧
      x.1 = outPixelAddr s (outX b { s with tc := n } c) (outY b { s with tc := n } r) + k ∧
      (pixelBytes (tilePixel b (fetchTile b { s with tc := n }) (modvGrid b (fetchTile b { s with tc := n }))
        (modmGrid b (fetchTile b { s with tc := n })) c r))[k]? = some x.2 := by
  unfold tileAt at hx
  rw [nextTile_dec hk] at hx
  obtain ⟨c, r, hc, hr, hcell⟩ := mem_decodeWrites.1 hx
  obtain ⟨hlo, hhi, hb⟩ := mem_cellsAt hcell
  rw [pixelBytes_length] at hhi
  exact ⟨c, r, _, hc, hr, by omega, (Nat.add_sub_of_le hlo).symm, hb⟩

/-- Two cells of the same address, of one tile or of two, are one cell. -/
theorem tileAt_cell_unique {i : Instr} {s : State} (hc : startChecks i s = none) {n n' : Nat} (hn : n < tilesOf i s)
    (hn' : n' < tilesOf i s) {x y : Host.Cell} (hx : x ∈ (tileAt i s n).writes) (hy : y ∈ (tileAt i s n').writes)
    (h : x.1 = y.1) : x = y := by
  refine Prod.ext h (Option.some.inj ?_)
  cases hk : kindOf i with
  | clear => simp [tilesOf, hk] at hn
  | enc f q =>
    obtain ⟨k, hkb, hxa, hxb⟩ := mem_tileAt_enc hk hx
    obtain ⟨k', hkb', hya, hyb⟩ := mem_tileAt_enc hk hy
    obtain ⟨rfl, rfl⟩ := row_mul_add_inj hkb hkb' (Nat.add_left_cancel (hxa.symm.trans (h.trans hya)))
    exact hxb.symm.trans hyb
  | dec b =>
    obtain ⟨hW0, -⟩ := image_pos_of_startChecks hk hc
    simp only [tilesOf, hk] at hn hn'
    obtain ⟨c, r, k, hcw, hrh, hk4, hxa, hxb⟩ := mem_tileAt_dec hk hx
    obtain ⟨c', r', k', hcw', hrh', hk4', hya, hyb⟩ := mem_tileAt_dec hk hy
    obtain ⟨hox, hoy, rfl⟩ := outPixelAddr_inj (s := s) (outX_lt (s := { s with tc := n }) hW0 c)
      (outX_lt (s := { s with tc := n' }) hW0 c') hk4 hk4' (hxa.symm.trans (h.trans hya))
    obtain ⟨rfl, rfl, rfl⟩ := tile_pixel_inj hk hc hn hn' hcw hcw' hrh hrh' hox hoy
    exact hxb.symm.trans hyb

end Sys2Proof.Machine

/-! # Whole commands: from the CMD write to DONE -/

namespace Sys2Proof.Machine

/-! ## The state with a command's word in CMD -/

/-- The state after the host's write of `w` to CMD is latched, with the events `es` still to come. -/
def withCommand (w : Word) (es : List Event) (s : State) : State := { s with events := es, cmd := w }

@[simp] theorem inDest_withCommand (i : Instr) (w : Word) (es : List Event) (s : State) (a : Nat) :
    inDest i (withCommand w es s) a = inDest i s a := by unfold inDest dstLen; cases kindOf i <;> rfl

@[simp] theorem inSource_withCommand (i : Instr) (w : Word) (es : List Event) (s : State) (a : Nat) :
    inSource i (withCommand w es s) a = inSource i s a := by unfold inSource srcLen; cases kindOf i <;> rfl

@[simp] theorem tilesOf_withCommand (i : Instr) (w : Word) (es : List Event) (s : State) :
    tilesOf i (withCommand w es s) = tilesOf i s := by unfold tilesOf; cases kindOf i <;> rfl

@[simp] theorem startChecks_withCommand (i : Instr) (w : Word) (es : List Event) (s : State) :
    startChecks i (withCommand w es s) = startChecks i s := by
  unfold startChecks checkRegions srcLen dstLen; cases kindOf i <;> rfl

@[simp] theorem sourceUnstable_withCommand (i : Instr) (w : Word) (es : List Event) (s : State) :
    sourceUnstable i (withCommand w es s) = sourceUnstable i s := by unfold sourceUnstable srcLen; cases kindOf i <;> rfl

@[simp] theorem tileAt_withCommand (i : Instr) (w : Word) (es : List Event) (s : State) (n : Nat) :
    tileAt i (withCommand w es s) n = tileAt i s n := by unfold tileAt nextTile; cases kindOf i <;> rfl

/-- The host's write of a command's word while no command runs starts the command. -/
theorem step_command_write {i : Instr} (hi : i ≠ .clr) {s : State} {es : List Event} (hb : s.status ≠ .busy)
    (he : s.events = .host (.wr 0 (encode i)) :: es) : step s = .next (commandStart i (withCommand (encode i) es s)) := by
  rw [step_host he]
  exact (hostTurn_wr_cmd_of_legal (s := { s with events := es }) hb (decode_encode_word i)).trans (exec_start hi hb)

/-! ## The tiles of a run -/

/-- What a command that started from `s` has done once it has come to `u`: the cells of the tiles before TC stand in memory, and no
byte outside its destination has changed. -/
structure TilesDone (i : Instr) (s u : State) : Prop where
  operands : sameOperands s u
  params : u.params = s.params
  tiles : u.nt = tilesOf i s
  memWf : Memory.wf u.mem
  cells : ∀ n, n < u.tc → ∀ c ∈ (tileAt i s n).writes, Memory.read u.mem c.1 = c.2
  outside : ∀ a, inDest i s a = false → Memory.read u.mem a = Memory.read s.mem a

/-- The next tile writes what it would have written on the memory at the start: its source has not changed. -/
theorem TilesDone.nextTile_writes {i : Instr} {s u : State} (h : TilesDone i s u) (hi : i ≠ .clr) (hc : startChecks i s = none)
    (ht : u.tc < u.nt) : (nextTile i u).writes = (tileAt i s u.tc).writes := by
  rw [nextTile_writes_of_sameOperands h.operands h.params]
  refine nextTile_writes_of_reads (s := { s with tc := u.tc }) fun a ha => h.outside a (source_dest_disjoint hi hc ?_)
  exact tileAt_reads_inSource hc (h.tiles ▸ ht) a ha

theorem TilesDone.startChecks_eq {i : Instr} {s u : State} (h : TilesDone i s u) (hc : startChecks i s = none) :
    startChecks i u = none := by rwa [startChecks_congr i h.operands]

theorem TilesDone.tc_lt_tilesOf {i : Instr} {s u : State} (h : TilesDone i s u) (ht : u.tc < u.nt) : u.tc < tilesOf i u := by
  rwa [tilesOf_congr i h.operands, ← h.tiles]

/-- Over admitted regions the next tile is admitted. -/
theorem TilesDone.admitted {i : Instr} {s u : State} (h : TilesDone i s u) (hc : startChecks i s = none)
    (ha : RegionsAdmitted i s) (ht : u.tc < u.nt) : tileAdmitted u.params (nextTile i u) = true := by
  have hcu := h.startChecks_eq hc
  have htu := h.tc_lt_tilesOf ht
  simp only [tileAdmitted, Bool.and_eq_true, List.all_eq_true, h.params]
  refine ⟨fun a hread => ha a (.inl ?_), fun c hcell => ha c.1 (.inr ?_)⟩
  · rw [← inSource_congr i h.operands]
    exact nextTile_reads_inSource hcu htu a hread
  · rw [← inDest_congr i h.operands]
    exact nextTile_writes_inDest hcu htu c hcell

/-- One tile more. -/
theorem TilesDone.next {i : Instr} {s u t : State} (h : TilesDone i s u) (hi : i ≠ .clr) (hc : startChecks i s = none)
    (hready : TileReady i u) (hm : t.mem = Memory.writes u.mem (nextTile i u).writes) (htc : t.tc = u.tc + 1) (hnt : t.nt = u.nt)
    (ho : sameOperands u t) (hp : t.params = u.params) : TilesDone i s t := by
  obtain ⟨-, ht, hadm⟩ := hready
  have hlt := tileAdmitted_writes_lt hadm
  have hn : u.tc < tilesOf i s := h.tiles ▸ ht
  rw [h.nextTile_writes hi hc ht] at hm hlt
  refine ⟨?_, hp.trans h.params, hnt.trans h.tiles, hm ▸ Memory.writes_wf h.memWf hlt, fun n hnt c hcell => ?_, fun a ha => ?_⟩
  · have hou := h.operands
    simp only [sameOperands] at ho hou ⊢
    simp only [ho, hou, and_self]
  · rw [hm]
    by_cases hex : ∃ d ∈ (tileAt i s u.tc).writes, d.1 = c.1
    · obtain ⟨d, hd, hda, hv⟩ := Memory.read_writes_some h.memWf hlt hex
      rw [hv, tileAt_cell_unique hc hn (by omega) hd hcell hda]
    · rw [Memory.read_writes_other (fun d hd hda => hex ⟨d, hd, hda⟩) h.memWf hlt]
      refine h.cells n (lt_of_le_of_ne (by omega) ?_) c hcell
      rintro rfl
      exact hex ⟨c, hcell, rfl⟩
  · rw [hm, ← h.outside a ha]
    refine Memory.read_writes_other (fun d hd hda => ?_) h.memWf hlt
    rw [← hda, tileAt_writes_inDest hc hn d hd] at ha
    cases ha

/-- The start of a command with tiles: none of them is taken. -/
theorem TilesDone.startTiles {i : Instr} {s : State} (hw : Memory.wf s.mem) : TilesDone i s (startTiles i s) :=
  ⟨by simp [sameOperands], rfl, rfl, hw, fun _ hn => absurd hn (Nat.not_lt_zero _), fun _ _ => rfl⟩

/-- A command over admitted regions and a stable source is DONE after its start and its tiles, the cells of every tile stand in memory
as its memory at the start gives them, and no byte outside its destination has changed. -/
theorem run_whole_command {i : Instr} (hi : i ≠ .clr) {s : State} (hb : s.status ≠ .busy)
    (he : s.events = [.host (.wr 0 (encode i))]) (hw : Memory.wf s.mem) (hc : startChecks i s = none) (ha : RegionsAdmitted i s)
    (hu : sourceUnstable i s = false) :
    ∃ t : State, Host.Core.run core (tilesOf i s + 1) s = .next t ∧ t.status = .done ∧ t.tc = tilesOf i s ∧
      (∀ n, n < tilesOf i s → ∀ c ∈ (tileAt i s n).writes, Memory.read t.mem c.1 = c.2) ∧
      ∀ a, inDest i s a = false → Memory.read t.mem a = Memory.read s.mem a := by
  have hstep := step_command_write hi hb he
  have hc' : startChecks i (withCommand (encode i) [] s) = none := by rwa [startChecks_withCommand]
  obtain ⟨c, hcs, -⟩ | ⟨-, h0, hstart⟩ | ⟨-, h0, hstart⟩ := commandStart_cases i (withCommand (encode i) [] s)
  · rw [hc'] at hcs
    cases hcs
  · rw [tilesOf_withCommand] at h0
    rw [hstart] at hstep
    rw [h0]
    exact ⟨_, run_succ hstep 0, rfl, rfl, fun n hn => absurd hn (Nat.not_lt_zero n), fun _ _ => rfl⟩
  · rw [tilesOf_withCommand] at h0
    rw [hstart] at hstep
    have hadm : RegionsAdmitted i (withCommand (encode i) [] s) := fun a h => ha a (by simpa using h)
    obtain ⟨t, hrun, hdone, hst, htc⟩ := run_tiles hi (TilesDone i (withCommand (encode i) [] s))
      (fun u h _ ht => h.admitted hc' hadm ht)
      (fun u t h hready hm htc hnt ho hh => h.next hi hc' hready hm htc hnt ho hh.2.2)
      (tilesOf i s) (startTiles i (withCommand (encode i) [] s)) (Nat.pos_of_ne_zero h0) (.startTiles hw)
      ⟨by rw [startTiles_race, sourceUnstable_withCommand]; exact hu, rfl⟩ rfl ⟨rfl, rfl⟩ (by simp)
    rw [startTiles_nt, tilesOf_withCommand] at htc
    refine ⟨t, (run_succ hstep _).trans hrun, hst, htc, fun n hn c hcell => hdone.cells n (htc ▸ hn) c ?_, fun a hd => ?_⟩
    · rwa [tileAt_withCommand]
    · exact hdone.outside a (by rwa [inDest_withCommand])

/-! ## The statements -/

/-- Settles O35, by the run of the command and the place of its blocks. -/
theorem encodeCommandWritesEveryBlock : Obligations.EncodeCommandWritesEveryBlock := by
  intro i f q s hk hb he hw hc ha hu
  have hi : i ≠ .clr := by rintro rfl; cases hk
  have htiles : tilesOf i s = encTiles s := by simp only [tilesOf, hk]
  obtain ⟨t, hrun, hst, htc, hcells, hout⟩ := run_whole_command hi hb he hw hc ha hu
  rw [htiles] at hrun htc hcells
  refine ⟨t, hrun, hst, htc, fun z bx by_ hz hx hy k v hv => ?_, hout⟩
  have hn : (z * blocksH s + by_) * blocksW s + bx < encTiles s := by
    rw [encTiles, Nat.mul_comm _ (opD s), Nat.mul_comm (blocksW s), ← Nat.mul_assoc]
    exact row_mul_add_lt (row_mul_add_lt hz hy) hx
  obtain ⟨ez, ey, ex⟩ := tile_place_unique (s := { s with tc := (z * blocksH s + by_) * blocksW s + bx }) hx hy rfl
  refine hcells _ hn (_, v) ?_
  unfold tileAt
  rw [nextTile_enc hk]
  refine cellsAt_mem ?_
  rw [encodedScratch, ez, ey, ex]
  exact hv

/-- Settles O36, by the run of the command. -/
theorem decodeCommandWritesEveryPixel : Obligations.DecodeCommandWritesEveryPixel := by
  intro i b s hk hb he hw hc ha hu
  have hi : i ≠ .clr := by rintro rfl; cases hk
  have htiles : tilesOf i s = decTiles b s := by simp only [tilesOf, hk]
  obtain ⟨t, hrun, hst, htc, hcells, hout⟩ := run_whole_command hi hb he hw hc ha hu
  rw [htiles] at hrun htc hcells
  refine ⟨t, hrun, hst, htc, fun n c r hn hcw hrh k v hv => ?_, hout⟩
  refine hcells n hn (_, v) ?_
  unfold tileAt
  rw [nextTile_dec hk]
  exact mem_decodeWrites.2 ⟨c, r, hcw, hrh, cellsAt_mem hv⟩

end Sys2Proof.Machine

/-! # The encodings: a command word and its fields (R100 to R102), a serialized block and its fields (R112 to R115, R268) -/

namespace Sys2Proof.Machine

/-! ## The command word -/

/-- The three fields of R100 are the whole word. -/
theorem word_toNat_eq_fields (w : Word) : w.toNat = 32 * fieldRsv w + 16 * fieldQ w + fieldOp w := by
  simp only [fieldRsv, fieldQ, fieldOp]
  omega

/-- Each row of the table is selected by its own `OP` and `Q` alone (R101). -/
theorem fields_of_selectCommand {op q : Nat} {i : Instr} (h : selectCommand op q = .ok i) : op = opOf i ∧ q = qOf i := by
  unfold selectCommand at h
  split at h <;> cases h <;> exact ⟨rfl, rfl⟩

theorem fields_of_decode {w : Word} {i : Instr} (h : decode w = .ok i) : fieldRsv w = 0 ∧ fieldQ w = qOf i ∧ fieldOp w = opOf i := by
  unfold decode at h
  split at h
  next hr =>
    obtain ⟨hop, hq⟩ := fields_of_selectCommand h
    exact ⟨hr, hq, hop⟩
  next => cases h

/-- No two words decode to one command: the fields that the command fixes are the whole word. -/
theorem eq_encode_of_decode {w : Word} {i : Instr} (h : decode w = .ok i) : w = encode i := by
  obtain ⟨hr, hq, hop⟩ := fields_of_decode h
  have hw : w.toNat = 16 * qOf i + opOf i := by rw [word_toNat_eq_fields, hr, hq, hop]; omega
  rw [encode, ← hw, BitVec.ofNat_toNat, BitVec.setWidth_eq]

/-- The encoder answers the words of R101 only. -/
theorem encode_mem_table (i : Instr) : encode i ∈
    [0x00#32, 0x01#32, 0x11#32, 0x02#32, 0x12#32, 0x03#32, 0x13#32, 0x04#32, 0x14#32, 0x08#32, 0x09#32] := by
  cases i <;> decide

/-! ## The bytes of a block -/

/-- A value of `n` bytes is read back whole. -/
theorem leValue_leBytes_of_lt {n v : Nat} (h : v < 256 ^ n) : leValue (leBytes n v) = v := by
  rw [leValue_leBytes, Nat.mod_eq_of_lt h]

/-- The layout of a color block (R112). -/
theorem leValue_colorBytes (e : EncScratch) :
    leValue (colorBytes e) = e.c0.toNat + e.c1.toNat * 2 ^ 16 + e.idx.toNat * 2 ^ 32 := by
  simp only [colorBytes, leValue_append, List.length_append, leBytes_length, leValue_leBytes_of_lt (n := 2) e.c0.isLt,
    leValue_leBytes_of_lt (n := 2) e.c1.isLt, leValue_leBytes_of_lt (n := 4) e.idx.isLt]
  ring

/-- The layout of an explicit alpha field (R114). -/
theorem leValue_explicitBytes (e : EncScratch) : leValue (explicitBytes e) = e.exa.toNat :=
  leValue_leBytes_of_lt (n := 8) e.exa.isLt

/-- The layout of a ramp (R113). -/
theorem leValue_rampBytes (r : RampBlock) :
    leValue (rampBytes r) = r.a0.toNat + r.a1.toNat * 2 ^ 8 + r.aidx.toNat * 2 ^ 16 := by
  simp only [rampBytes, List.cons_append, List.nil_append, leValue, leValue_leBytes_of_lt (n := 6) r.aidx.isLt]
  ring

/-- Every format but DXN ends in its color block (R115, R268). -/
theorem serialize_drop_eq_colorBytes {f : Fmt} (hf : f ≠ .dxn) (e : EncScratch) :
    (serialize f e).drop (blockSize f - 8) = colorBytes e := by
  cases f with
  | dxt1 => rfl
  | dxt3 => exact List.drop_left' (explicitBytes_length e)
  | dxt5 => exact List.drop_left' (rampBytes_length e.ramp)
  | dxn => exact absurd rfl hf

/-- DXT5 and DXN begin with their first ramp (R115, R268). -/
theorem serialize_take_eq_rampBytes {f : Fmt} (hf : f = .dxt5 ∨ f = .dxn) (e : EncScratch) :
    (serialize f e).take 8 = rampBytes e.ramp := by
  obtain rfl | rfl := hf <;> exact List.take_left' (rampBytes_length e.ramp)

/-! ## The statements -/

/-- Settles O12: one direction is the round trip of each command, the other that the fields are the whole word. -/
theorem decodeAgreesWithEncode : Obligations.DecodeAgreesWithEncode :=
  fun _ i => ⟨eq_encode_of_decode, fun h => h ▸ decode_encode_word i⟩

/-- Settles O13: each word is what the encoder gives its row's command. -/
theorem tableWordsDecodeToTheirCommands : Obligations.TableWordsDecodeToTheirCommands :=
  ⟨decode_encode_word .clr, decode_encode_word .encDxt1Fast, decode_encode_word .encDxt1Hq, decode_encode_word .encDxt3Fast,
    decode_encode_word .encDxt3Hq, decode_encode_word .encDxt5Fast, decode_encode_word .encDxt5Hq,
    decode_encode_word .encDxnFast, decode_encode_word .encDxnHq, decode_encode_word .decPvrtc2, decode_encode_word .decPvrtc4⟩

/-- Settles O14: a word that decodes is in the table, so this one is refused. -/
theorem illegalWordEndsWithUnsupported : Obligations.IllegalWordEndsWithUnsupported := by
  intro s w es hb h hw
  cases hd : decode w with
  | ok i => exact absurd (eq_encode_of_decode hd ▸ encode_mem_table i) hw
  | illegal e => exact (step_host h).trans (hostTurn_wr_cmd_of_illegal hb hd)

/-- Settles O55, by the place of each part in the block and the layout of each part. -/
theorem serializedBlockReadsBack : Obligations.SerializedBlockReadsBack := by
  refine fun f e => ⟨serialize_length f e, fun hf => ?_, ?_, fun hf => ?_, ?_⟩
  · rw [serialize_drop_eq_colorBytes hf, leValue_colorBytes]
  · rintro rfl
    rw [serialize, List.take_left' (explicitBytes_length e), leValue_explicitBytes]
  · rw [serialize_take_eq_rampBytes hf, leValue_rampBytes]
  · rintro rfl
    rw [serialize, List.drop_left' (rampBytes_length e.ramp), leValue_rampBytes]

end Sys2Proof.Machine

/-! # The color endpoints: the inset box, the ordered pair and the high-quality pair (R170 to R180), and the exact axis and endpoints
that the high-quality pair approximates (R174 to R178) -/

namespace Sys2Proof.Machine

/-! ## The inset range and the fast endpoints (R170 to R173) -/

/-- With a shift of at least 1 the two insets together are no more than the range, so the ends do not pass each other (R170). -/
theorem insetRange_le {vals : List Byte} (h : vals ≠ []) {k : Nat} (hk : 1 ≤ k) :
    (insetRange vals k).1.toNat ≤ (insetRange vals k).2.toNat := by
  obtain ⟨h1, h2⟩ := insetRange_toNat h k
  have hle := (minOf_le_maxOf h).1
  have hins : (maxOf vals - minOf vals) / 2 ^ k ≤ (maxOf vals - minOf vals) / 2 :=
    Nat.div_le_div_left (Nat.le_self_pow (by omega) 2) two_pos
  omega

/-- Whatever the shift, the inset is no more than the range: some value is at most `lo'`, and some value is at least `hi'`. -/
theorem insetRange_within {vals : List Byte} (h : vals ≠ []) (k : Nat) :
    (∃ v ∈ vals, v.toNat ≤ (insetRange vals k).1.toNat) ∧ ∃ v ∈ vals, (insetRange vals k).2.toNat ≤ v.toNat := by
  obtain ⟨h1, h2⟩ := insetRange_toNat h k
  obtain ⟨lo, hlo, hmin⟩ := minOf_mem h
  obtain ⟨hi, hhi, hmax⟩ := maxOf_mem h
  constructor
  · exact ⟨lo, hlo, by rw [h1, hmin]; exact Nat.le_add_right _ _⟩
  · exact ⟨hi, hhi, by rw [h2, hmax]; exact Nat.sub_le _ _⟩

/-- In fast mode `PA ≥ PB` (R173): each channel of the box is in order. -/
theorem fastEndpoints_le (blk : Vector Pixel 16) :
    (fastEndpoints (fastBox blk)).2.toNat ≤ (fastEndpoints (fastBox blk)).1.toNat :=
  pack565_le (insetRange_le (channel_ne_nil blk 0) (by decide)) (insetRange_le (channel_ne_nil blk 1) (by decide))
    (insetRange_le (channel_ne_nil blk 2) (by decide))

/-! ## The ordered pair (R180) -/

theorem colorBlock_ordered (q : Quality) (fb : Bool) (e : EncScratch) :
    ((colorBlock q fb e).c0, (colorBlock q fb e).c1) = order (colorBlock q fb e).pa (colorBlock q fb e).pb := by
  cases q with
  | fast => rfl
  | high => exact (order_hqEndpoints e.blk).symm

theorem colorBlock_swap (q : Quality) (fb : Bool) (e : EncScratch) :
    (colorBlock q fb e).swap = swapFlag (colorBlock q fb e).pa (colorBlock q fb e).pb := by cases q <;> rfl

/-- What `Order` answers with its flag: the greater value first, and whether the two were exchanged. -/
theorem order_swapFlag {pa pb c0 c1 : Half} {swap : Bool} (h : (c0, c1) = order pa pb) (hs : swap = swapFlag pa pb) :
    c1.toNat ≤ c0.toNat ∧ (swap = true → c0 = pb ∧ c1 = pa ∧ pa.toNat < pb.toNat) ∧ (swap = false → c0 = pa ∧ c1 = pb) := by
  subst hs
  by_cases hlt : pa.toNat < pb.toNat
  · obtain ⟨rfl, rfl⟩ := Prod.mk.inj (h.trans (if_pos hlt))
    simpa [swapFlag, hlt] using hlt.le
  · obtain ⟨rfl, rfl⟩ := Prod.mk.inj (h.trans (if_neg hlt))
    simpa [swapFlag, hlt] using not_lt.1 hlt

/-! ## The high-quality pair (R176, R179) -/

theorem mem_distinctColors {c : Rgb} : ∀ {cs : List Rgb}, c ∈ distinctColors cs ↔ c ∈ cs
  | [] => .rfl
  | d :: cs => by
    by_cases h : c = d
    · simp [distinctColors, h]
    · simp [distinctColors, h, mem_distinctColors (cs := cs)]

theorem nodup_distinctColors : ∀ cs : List Rgb, (distinctColors cs).Nodup
  | [] => List.nodup_nil
  | c :: cs => List.nodup_cons.2 ⟨by simp, (nodup_distinctColors cs).filter _⟩

/-- The distinct colors of a list are any list without repetition of the colors that occur in it, but for the order. -/
theorem distinctColors_perm {cs ds : List Rgb} (hd : ds.Nodup) (h : ∀ c, c ∈ cs ↔ c ∈ ds) : (distinctColors cs).Perm ds :=
  (List.perm_ext_iff_of_nodup (nodup_distinctColors cs) hd).2 fun c => mem_distinctColors.trans (h c)

theorem hqPair_of_one_color {cs : List Rgb} {c : Rgb} (h : ∀ x, x ∈ cs ↔ x = c) : hqPair cs = (q565 c, q565 c) := by
  have hd : distinctColors cs = [c] :=
    List.perm_singleton.1 (distinctColors_perm (List.nodup_singleton c) fun x => (h x).trans List.mem_singleton.symm)
  simp only [hqPair, hd]

theorem hqPair_of_two_colors {cs : List Rgb} {c d : Rgb} (hcd : c ≠ d) (h : ∀ x, x ∈ cs ↔ x = c ∨ x = d) :
    hqPair cs = (q565 c, q565 d) ∨ hqPair cs = (q565 d, q565 c) := by
  have hd : distinctColors cs = [c, d] ∨ distinctColors cs = [d, c] :=
    List.perm_pair.1 (distinctColors_perm (by simpa using hcd) fun x => (h x).trans List.mem_pair.symm)
  rcases hd with hd | hd
  · exact .inl (by simp only [hqPair, hd])
  · exact .inr (by simp only [hqPair, hd])

/-- `HQ_ENDPOINTS` is the pair of the block's colors in one order or the other (log 9). -/
theorem hqEndpoints_eq_or_swap (blk : Vector Pixel 16) :
    hqEndpoints blk = hqPair (blockRgb blk) ∨ hqEndpoints blk = (hqPair (blockRgb blk)).swap := by
  unfold hqEndpoints
  split
  · exact .inr rfl
  · exact .inl rfl

theorem mem_blockRgb {blk : Vector Pixel 16} {c : Rgb} : c ∈ blockRgb blk ↔ ∃ p ∈ blk.toList, rgbOf p = c := List.mem_map

/-- Law L1 (R179). -/
theorem hqEndpoints_of_one_color {blk : Vector Pixel 16} {c : Rgb} (h : ∀ p ∈ blk.toList, rgbOf p = c) :
    hqEndpoints blk = (q565 c, q565 c) := by
  have hne : blk.toList ≠ [] := List.ne_nil_of_length_pos (by simp)
  have hc : ∀ x, x ∈ blockRgb blk ↔ x = c := by
    intro x
    rw [mem_blockRgb]
    constructor
    · rintro ⟨p, hp, rfl⟩
      exact h p hp
    · rintro rfl
      exact ⟨_, List.head_mem hne, h _ (List.head_mem hne)⟩
  rcases hqEndpoints_eq_or_swap blk with he | he <;> rw [he, hqPair_of_one_color hc]
  rfl

/-- Law L2 (R179). -/
theorem hqEndpoints_of_two_colors {blk : Vector Pixel 16} {c d : Rgb} (hcd : c ≠ d)
    (h : ∀ p ∈ blk.toList, rgbOf p = c ∨ rgbOf p = d) (hc : ∃ p ∈ blk.toList, rgbOf p = c)
    (hd : ∃ p ∈ blk.toList, rgbOf p = d) :
    hqEndpoints blk = (q565 c, q565 d) ∨ hqEndpoints blk = (q565 d, q565 c) := by
  have hx : ∀ x, x ∈ blockRgb blk ↔ x = c ∨ x = d := by
    intro x
    rw [mem_blockRgb]
    constructor
    · rintro ⟨p, hp, rfl⟩
      exact h p hp
    · rintro (rfl | rfl)
      · exact hc
      · exact hd
  rcases hqEndpoints_eq_or_swap blk with he | he <;> rcases hqPair_of_two_colors hcd hx with hp | hp <;> simp [he, hp]

/-- Law L3 (R179). -/
theorem hqEndpoints_congr {blk blk' : Vector Pixel 16} (h : blockRgb blk = blockRgb blk') : hqEndpoints blk = hqEndpoints blk' := by
  simp only [hqEndpoints, h]

/-! ## The ideal endpoints of a flat block (R177, R178) -/

/-- The centroid of sixteen equal colors is their point. -/
theorem idealCentroid_replicate (c : Rgb) (k : Fin 3) : idealCentroid (List.replicate 16 c) k = idealPoint c k := by
  rw [idealCentroid, List.map_replicate, List.sum_replicate, nsmul_eq_mul]
  exact mul_div_cancel_left₀ _ (by norm_num)

/-- Every projection of a flat block is 0, on any axis. -/
theorem projection_replicate {v : Fin 3 → ℝ} {c : Rgb} {t : ℝ}
    (h : ∃ d ∈ List.replicate 16 c, IsProjection (List.replicate 16 c) v d t) : t = 0 := by
  obtain ⟨d, hd, ht⟩ := h
  simpa only [IsProjection, List.eq_of_mem_replicate hd, idealCentroid_replicate, sub_self, Rat.cast_zero, zero_mul,
    Finset.sum_const_zero] using ht

/-- The rounding of `c/255` to the levels `0..n`, in reals, is `quantLevel`. -/
theorem IsQuantLevel.eq_quantLevel {n q : Nat} {c : Byte} (h : IsQuantLevel n (((c.toNat : ℚ) / 255 : ℚ) : ℝ) q) :
    q = quantLevel n c.toNat := by
  have hc : (c.toNat : ℝ) / 255 ≤ 1 := by
    rw [div_le_one (by norm_num)]
    exact_mod_cast Nat.le_of_lt_succ c.isLt
  have hclamp : max 0 (min ((((c.toNat : ℚ) / 255 : ℚ) : ℝ)) 1) = (c.toNat : ℝ) / 255 := by
    push_cast
    rw [min_eq_left hc, max_eq_right (by positivity)]
  have hsum : (n : ℝ) * ((c.toNat : ℝ) / 255) + 1 / 2 = ((2 * n * c.toNat + 255 : Nat) : ℝ) / (510 : Nat) := by
    push_cast
    ring
  rw [IsQuantLevel, hclamp, hsum, ← Int.natCast_floor_eq_floor (by positivity), Nat.floor_div_eq_div] at h
  exact_mod_cast h

theorem quantLevel_le (n : Nat) (c : Byte) : quantLevel n c.toNat ≤ n := by
  have hc : c.toNat ≤ 255 := Nat.le_of_lt_succ c.isLt
  have hmul : 2 * n * c.toNat ≤ 2 * n * 255 := Nat.mul_le_mul_left _ hc
  unfold quantLevel
  omega

theorem q565_toNat (c : Rgb) :
    (q565 c).toNat = quantLevel 31 c.r.toNat * 2 ^ 11 + quantLevel 63 c.g.toNat * 2 ^ 5 + quantLevel 31 c.b.toNat := by
  have hr := quantLevel_le 31 c.r
  have hg := quantLevel_le 63 c.g
  have hb := quantLevel_le 31 c.b
  simp only [q565, BitVec.toNat_ofNat]
  omega

/-- `Q565` in reals, at the point of a color, is `q565` of the color. -/
theorem IsQ565.eq_q565 {c : Rgb} {p : Half} (h : IsQ565 (fun k => (idealPoint c k : ℝ)) p) : p = q565 c := by
  obtain ⟨r, g, b, hr, hg, hb, hp⟩ := h
  apply BitVec.eq_of_toNat_eq
  rw [hp, q565_toNat, hr.eq_quantLevel (c := c.r), hg.eq_quantLevel (c := c.g), hb.eq_quantLevel (c := c.b)]

/-- An endpoint at a projection of a flat block is `q565` of its color. -/
theorem IsQ565.eq_q565_of_flat {c : Rgb} {v : Fin 3 → ℝ} {t : ℝ} {p : Half}
    (ht : ∃ d ∈ List.replicate 16 c, IsProjection (List.replicate 16 c) v d t)
    (h : IsQ565 (fun k => (idealCentroid (List.replicate 16 c) k : ℝ) + t * v k) p) : p = q565 c := by
  simp only [projection_replicate ht, idealCentroid_replicate, zero_mul, add_zero] at h
  exact h.eq_q565

/-! ## The greatest root in closed form (R175)

The roots less their mean are `a1 ≥ a2 ≥ a3`, with sum 0. Then `a1/(2p)` is the cosine of an angle of at most π/3, and `det(B)/2` is the
cosine of three times that angle. -/

section
variable {c : Matrix (Fin 3) (Fin 3) ℚ} {l1 l2 l3 : ℝ}

theorem IsRootTriple.eq_second_of_eq_third (h : IsRootTriple c l1 l2 l3) (h13 : l1 = l3) : l1 = l2 := by
  obtain ⟨h21, h32, -⟩ := h
  linarith

theorem closedQ_eq_mean (h : IsRootTriple c l1 l2 l3) : (closedQ c : ℝ) = (l1 + l2 + l3) / 3 := by
  rw [closedQ, ← h.coefficients.1]
  push_cast
  ring

/-- `6p²` is the sum of the squares of the roots less their mean. -/
theorem closedPSquared_eq (hc : ∀ j k, c j k = c k j) (h : IsRootTriple c l1 l2 l3) :
    (closedPSquared c : ℝ) = ((l1 - closedQ c) ^ 2 + (l2 - closedQ c) ^ 2 + (l3 - closedQ c) ^ 2) / 6 := by
  obtain ⟨htrace, hminors⟩ := h.coefficients
  have hq := closedQ_eq_mean h
  rw [hc 1 0, hc 2 0, hc 2 1] at hminors
  rw [closedPSquared, closedP1]
  push_cast
  rw [hq]
  linear_combination ((c 0 0 + c 1 1 + c 2 2 + l1 + l2 + l3) / 6 - (l1 + l2 + l3) / 9) * htrace - hminors / 3

theorem closedP1_eq_zero_iff : closedP1 c = 0 ↔ c 0 1 = 0 ∧ c 0 2 = 0 ∧ c 1 2 = 0 := by
  rw [closedP1, add_eq_zero_iff_of_nonneg (by positivity) (by positivity),
    add_eq_zero_iff_of_nonneg (by positivity) (by positivity)]
  simp [and_assoc]

theorem closedPSquared_pos (h : closedP1 c ≠ 0) : 0 < closedPSquared c := by
  have h1 : 0 < closedP1 c := lt_of_le_of_ne (by unfold closedP1; positivity) h.symm
  unfold closedPSquared
  positivity

/-- `det(B)/2` of the closed form: the determinant of `C − q·I` is the product of the roots less `q`. -/
theorem det_closedB (h : IsRootTriple c l1 l2 l3) (p : ℝ) :
    (p⁻¹ • (realMatrix c - (closedQ c : ℝ) • (1 : Matrix (Fin 3) (Fin 3) ℝ))).det =
      (l1 - closedQ c) * (l2 - closedQ c) * (l3 - closedQ c) / p ^ 3 := by
  obtain ⟨-, -, hdet⟩ := h
  rw [Matrix.det_smul, hdet, Fintype.card_fin, inv_pow, inv_mul_eq_div]

/-- Three numbers in order with sum 0 and mean square `2p²`: the greatest lies between `p` and `2p`. -/
theorem greatest_between {a1 a2 a3 p : ℝ} (h21 : a2 ≤ a1) (h32 : a3 ≤ a2) (hsum : a1 + a2 + a3 = 0) (hp : 0 < p)
    (hsq : p ^ 2 = (a1 ^ 2 + a2 ^ 2 + a3 ^ 2) / 6) : p ≤ a1 ∧ a1 ≤ 2 * p := by
  obtain rfl : a3 = -a1 - a2 := by linarith
  have ha1 : 0 ≤ a1 := by linarith
  constructor
  · refine abs_le_of_sq_le_sq' ?_ ha1 |>.2
    nlinarith [mul_nonneg (sub_nonneg.2 h21) (show 0 ≤ 2 * a1 + a2 by linarith)]
  · refine abs_le_of_sq_le_sq' ?_ (by positivity) |>.2
    nlinarith [sq_nonneg (a1 + 2 * a2)]

/-- For `y` from ½ to 1, a third of the arc cosine of `4y³ − 3y` is the arc cosine of `y`, and the clamp does not act. -/
theorem cos_arccos_div_three {y : ℝ} (h1 : 1 / 2 ≤ y) (h2 : y ≤ 1) :
    Real.cos (Real.arccos (min (max (4 * y ^ 3 - 3 * y) (-1)) 1) / 3) = y := by
  have hcos : Real.cos (Real.arccos y) = y := Real.cos_arccos (by linarith) h2
  have hle : Real.arccos y ≤ Real.pi / 3 := by
    rw [← Real.arccos_cos (x := Real.pi / 3) (by positivity) (by linarith [Real.pi_pos]), Real.cos_pi_div_three]
    exact Real.arccos_le_arccos h1
  have hthree : 4 * y ^ 3 - 3 * y = Real.cos (3 * Real.arccos y) := by rw [Real.cos_three_mul, hcos]
  have h0 := Real.arccos_nonneg y
  rw [hthree, max_eq_left (Real.neg_one_le_cos _), min_eq_left (Real.cos_le_one _),
    Real.arccos_cos (by linarith) (by linarith), mul_div_cancel_left₀ _ three_ne_zero, hcos]

/-- The trigonometric solution of the cubic with the roots `a1 ≥ a2 ≥ a3` of sum 0 is `a1`. -/
theorem two_mul_cos_third_eq_greatest {a1 a2 a3 p : ℝ} (h21 : a2 ≤ a1) (h32 : a3 ≤ a2) (hsum : a1 + a2 + a3 = 0) (hp : 0 < p)
    (hsq : p ^ 2 = (a1 ^ 2 + a2 ^ 2 + a3 ^ 2) / 6) :
    2 * p * Real.cos (Real.arccos (min (max (a1 * a2 * a3 / p ^ 3 / 2) (-1)) 1) / 3) = a1 := by
  obtain ⟨hlo, hhi⟩ := greatest_between h21 h32 hsum hp hsq
  have h2p : 0 < 2 * p := by positivity
  have hprod : a1 * a2 * a3 = a1 ^ 3 - 3 * a1 * p ^ 2 := by
    obtain rfl : a3 = -a1 - a2 := by linarith
    rw [hsq]
    ring
  have hcubic : a1 * a2 * a3 / p ^ 3 / 2 = 4 * (a1 / (2 * p)) ^ 3 - 3 * (a1 / (2 * p)) := by
    rw [hprod]
    field_simp
    ring
  rw [hcubic, cos_arccos_div_three ((le_div_iff₀ h2p).2 (by linarith)) ((div_le_one h2p).2 hhi), mul_div_cancel₀ _ h2p.ne']

/-- The trigonometric formula gives the greatest root. -/
theorem IsCosineRoot.eq_greatest {l : ℝ} (hl : IsCosineRoot c l) (h1 : closedP1 c ≠ 0) (hc : ∀ j k, c j k = c k j)
    (h : IsRootTriple c l1 l2 l3) : l = l1 := by
  obtain ⟨p, ρ, φ, hp, rfl, rfl, rfl⟩ := hl
  have hpos : (0 : ℝ) < closedPSquared c := by exact_mod_cast closedPSquared_pos h1
  have hsq : p ^ 2 = _ := (hp ▸ Real.sq_sqrt hpos.le).trans (closedPSquared_eq hc h)
  have hmean := closedQ_eq_mean h
  obtain ⟨h21, h32, -⟩ := id h
  rw [det_closedB h, two_mul_cos_third_eq_greatest (by linarith) (by linarith) (by linarith) (hp ▸ Real.sqrt_pos.2 hpos) hsq]
  ring

/-- A matrix with no entry off the diagonal: the greatest diagonal entry is the greatest root. -/
theorem max_diagonal_eq_greatest (h1 : closedP1 c = 0) (hc : ∀ j k, c j k = c k j) (h : IsRootTriple c l1 l2 l3) :
    ((max (c 0 0) (max (c 1 1) (c 2 2)) : ℚ) : ℝ) = l1 := by
  obtain ⟨h01, h02, h12⟩ := closedP1_eq_zero_iff.1 h1
  have hroot : ∀ x : ℝ, (realMatrix c - x • (1 : Matrix (Fin 3) (Fin 3) ℝ)).det = 0 ↔
      (c 0 0 = x ∨ c 1 1 = x) ∨ c 2 2 = x := by
    intro x
    simp [det_realMatrix_sub, h01, h02, h12, hc 1 0, hc 2 0, hc 2 1, sub_eq_zero]
  obtain ⟨hl, hmax⟩ := h.greatest
  push_cast
  apply le_antisymm
  · exact max_le (hmax ((hroot _).2 (.inl (.inl rfl))))
      (max_le (hmax ((hroot _).2 (.inl (.inr rfl)))) (hmax ((hroot _).2 (.inr rfl))))
  · rcases (hroot l1).1 hl with (h | h) | h <;> simp [← h]

/-- The closed form gives the greatest root. -/
theorem IsClosedFormRoot.eq_greatest {l : ℝ} (hl : IsClosedFormRoot c l) (hc : ∀ j k, c j k = c k j)
    (h : IsRootTriple c l1 l2 l3) : l = l1 := by
  obtain ⟨hdiag, hcos⟩ := hl
  by_cases h1 : closedP1 c = 0
  · rw [hdiag h1, max_diagonal_eq_greatest h1 hc h]
  · exact (hcos h1).eq_greatest h1 hc h

/-! ## The axis by cross products (R175) -/

theorem rowCross_eq (l : ℝ) (j k : Fin 3) : rowCross c l j k =
    crossProduct ((realMatrix c - l • (1 : Matrix (Fin 3) (Fin 3) ℝ)) j) ((realMatrix c - l • (1 : Matrix (Fin 3) (Fin 3) ℝ)) k) :=
  rfl

/-- Where `l` is a root, the cross product of two rows of `C − l·I` is orthogonal to every row. -/
theorem mulVec_rowCross {l : ℝ} (h : (realMatrix c - l • (1 : Matrix (Fin 3) (Fin 3) ℝ)).det = 0) (j k : Fin 3) :
    (realMatrix c).mulVec (rowCross c l j k) = l • rowCross c l j k := by
  obtain ⟨x, hx, h0⟩ := Matrix.exists_mulVec_eq_zero_iff.2 h
  rw [← sub_eq_zero, ← Matrix.one_mulVec (l • _), Matrix.mulVec_smul, ← Matrix.smul_mulVec, ← Matrix.sub_mulVec]
  funext i
  rw [rowCross_eq]
  generalize realMatrix c - l • (1 : Matrix (Fin 3) (Fin 3) ℝ) = m at *
  have hrows : Matrix.det ![m i, m j, m k] = 0 := by
    refine Matrix.exists_mulVec_eq_zero_iff.1 ⟨x, hx, ?_⟩
    funext r
    fin_cases r
    · exact congrFun h0 i
    · exact congrFun h0 j
    · exact congrFun h0 k
  exact (triple_product_eq_det _ _ _).trans hrows

/-- The three cross products of the rows of `C − λ1·I` are the cofactors of a symmetric matrix of determinant 0, so the sum of their
squared lengths is the square of its sum of principal minors. -/
theorem sum_lengthSquared_rowCross (hc : ∀ j k, c j k = c k j) (h : IsRootTriple c l1 l2 l3) :
    lengthSquared (rowCross c l1 0 1) + lengthSquared (rowCross c l1 0 2) + lengthSquared (rowCross c l1 1 2) =
      ((l1 - l2) * (l1 - l3)) ^ 2 := by
  obtain ⟨htrace, hminors⟩ := h.coefficients
  have hdet : (realMatrix c - l1 • (1 : Matrix (Fin 3) (Fin 3) ℝ)).det = 0 := h.greatest.1
  rw [det_realMatrix_sub] at hdet
  rw [hc 1 0, hc 2 0, hc 2 1] at hdet hminors
  have he2 : (l1 - l2) * (l1 - l3) = (c 0 0 - l1) * (c 1 1 - l1) + (c 0 0 - l1) * (c 2 2 - l1) + (c 1 1 - l1) * (c 2 2 - l1) -
      c 0 1 ^ 2 - c 0 2 ^ 2 - c 1 2 ^ 2 := by
    linear_combination 2 * l1 * htrace - hminors
  rw [he2]
  simp only [lengthSquared, rowCross, Matrix.sub_apply, Matrix.map_apply, Matrix.smul_apply, Matrix.one_apply_eq, ne_eq,
    Fin.isValue, Fin.reduceEq, zero_ne_one, one_ne_zero, not_false_eq_true, Matrix.one_apply_ne, smul_eq_mul, mul_zero, mul_one,
    sub_zero, Matrix.cons_val_zero, Matrix.cons_val_one, Matrix.cons_val, hc 1 0, hc 2 0, hc 2 1]
  linear_combination -2 * (c 0 0 + c 1 1 + c 2 2 - 3 * l1) * hdet

theorem lengthSquared_nonneg (w : Fin 3 → ℝ) : 0 ≤ lengthSquared w := by
  unfold lengthSquared
  positivity

/-- Where the greatest root is repeated the cross products are zero, and the closed form falls back to (1,1,1)/√3. -/
theorem IsClosedFormVector.fallback {v : Fin 3 → ℝ} (hv : IsClosedFormVector c l1 v) (hc : ∀ j k, c j k = c k j)
    (h : IsRootTriple c l1 l2 l3) (h12 : l1 = l2) : IsFallbackAxis v := by
  obtain ⟨w, hw, -, hzero, -⟩ := hv
  have hsum := sum_lengthSquared_rowCross hc h
  rw [h12, sub_self, zero_mul, zero_pow two_ne_zero, ← h12] at hsum
  have h01 := lengthSquared_nonneg (rowCross c l1 0 1)
  have h02 := lengthSquared_nonneg (rowCross c l1 0 2)
  have h03 := lengthSquared_nonneg (rowCross c l1 1 2)
  refine hzero (eq_zero_of_lengthSquared ?_)
  simp only [List.mem_cons, List.not_mem_nil, or_false] at hw
  rcases hw with rfl | rfl | rfl <;> linarith

/-- Where the greatest root is simple the longest cross product is not zero. -/
theorem longest_rowCross_ne_zero {w : Fin 3 → ℝ} (hc : ∀ j k, c j k = c k j) (h : IsRootTriple c l1 l2 l3) (h12 : l1 ≠ l2)
    (hlong : ∀ u ∈ [rowCross c l1 0 1, rowCross c l1 0 2, rowCross c l1 1 2], lengthSquared u ≤ lengthSquared w) : w ≠ 0 := by
  rintro rfl
  have h13 : l1 ≠ l3 := fun h13 => h12 (h.eq_second_of_eq_third h13)
  have hpos : 0 < ((l1 - l2) * (l1 - l3)) ^ 2 := sq_pos_of_ne_zero (mul_ne_zero (sub_ne_zero.2 h12) (sub_ne_zero.2 h13))
  have hsum := sum_lengthSquared_rowCross hc h
  have h0 : lengthSquared 0 = 0 := by simp [lengthSquared]
  simp only [List.forall_mem_cons, h0] at hlong
  obtain ⟨h01, h02, h03, -⟩ := hlong
  linarith

/-- A vector of an eigenspace, scaled to length 1. -/
theorem isUnitEigenvector_normalize {l : ℝ} {w : Fin 3 → ℝ} (hw : w ≠ 0) (he : (realMatrix c).mulVec w = l • w) :
    IsUnitEigenvector c l ((Real.sqrt (lengthSquared w))⁻¹ • w) := by
  have hpos : 0 < lengthSquared w := lt_of_not_ge fun h => hw (eq_zero_of_lengthSquared h)
  constructor
  · calc _ = ((Real.sqrt (lengthSquared w)) ^ 2)⁻¹ * lengthSquared w := by simp [lengthSquared]; ring
      _ = 1 := by rw [Real.sq_sqrt hpos.le, inv_mul_cancel₀ hpos.ne']
  · rw [Matrix.mulVec_smul, he, smul_comm]

theorem IsUnitEigenvector.neg {l : ℝ} {v : Fin 3 → ℝ} (h : IsUnitEigenvector c l v) : IsUnitEigenvector c l (-v) := by
  obtain ⟨hlen, he⟩ := h
  exact ⟨by simpa using hlen, by rw [Matrix.mulVec_neg, he, smul_neg]⟩

/-- Where the greatest root is simple the closed form gives a unit eigenvector of it. -/
theorem IsClosedFormVector.isUnitEigenvector {v : Fin 3 → ℝ} (hv : IsClosedFormVector c l1 v) (hc : ∀ j k, c j k = c k j)
    (h : IsRootTriple c l1 l2 l3) (h12 : l1 ≠ l2) : IsUnitEigenvector c l1 v := by
  obtain ⟨w, hw, hlong, -, hunit⟩ := hv
  have hw0 := longest_rowCross_ne_zero hc h h12 hlong
  have he : (realMatrix c).mulVec w = l1 • w := by
    simp only [List.mem_cons, List.not_mem_nil, or_false] at hw
    rcases hw with rfl | rfl | rfl <;> exact mulVec_rowCross h.greatest.1 _ _
  rcases hunit hw0 with rfl | rfl
  · exact isUnitEigenvector_normalize hw0 he
  · exact (isUnitEigenvector_normalize hw0 he).neg

end

/-! ## The statements -/

/-- Settles O43, by the two ends of the inset range as numbers. -/
theorem insetRangeStaysOrderedInsideTheValues : Obligations.InsetRangeStaysOrderedInsideTheValues :=
  fun _ k h hk => ⟨insetRange_le h hk, insetRange_within h k⟩

/-- Settles O44: the box is in order channel by channel, and both qualities end in `Order`. -/
theorem colorBlockEndpointsAreOrdered : Obligations.ColorBlockEndpointsAreOrdered :=
  ⟨fastEndpoints_le, fun q fb e => order_swapFlag (colorBlock_ordered q fb e) (colorBlock_swap q fb e)⟩

/-- Settles O45, law by law. -/
theorem hqEndpointsObeyTheirLaws : Obligations.HqEndpointsObeyTheirLaws :=
  ⟨fun _ _ => hqEndpoints_of_one_color, fun _ _ _ => hqEndpoints_of_two_colors, fun _ _ => hqEndpoints_congr⟩

/-- Settles O46: every projection is 0, so both endpoints are at the centroid, which is the color. -/
theorem idealEndpointsOfAFlatBlock : Obligations.IdealEndpointsOfAFlatBlock := by
  rintro plane c pa pb ⟨v, hi, lo, -, hhi, hlo, hpa, hpb⟩
  exact ⟨hpa.eq_q565_of_flat hhi.1, hpb.eq_q565_of_flat hlo.1⟩

/-- Settles O47: the closed root is the greatest one; its cross products are an eigenvector where it is simple and zero where it is
repeated. -/
theorem closedFormGivesTheIdealAxis : Obligations.ClosedFormGivesTheIdealAxis := by
  intro plane cs v l1 l2 l3 hplane h
  have hc := idealCovariance_symm cs
  refine ⟨fun l hl => hl.eq_greatest hc h, ?_⟩
  rintro ⟨l, hl, hv⟩
  obtain rfl := hl.eq_greatest hc h
  refine ⟨fun hcase => ⟨hplane, l, l2, l3, h, fun h13 => ?_, fun h13 h12 => ?_, fun _ h12 => hv.isUnitEigenvector hc h h12⟩,
    hv.fallback hc h⟩
  · exact hv.fallback hc h (h.eq_second_of_eq_third h13)
  · exact absurd h12 (hcase.resolve_right h13)

end Sys2Proof.Machine

/-! # The index quantizer: the fields of an index word (R204, R206), the exact error, and flat blocks (R203, R207) -/

namespace Sys2Proof.Machine

/-! ## The fields of an index word (R204, R206) -/

/-- Field i of a packed word, read back by its bits: indices of `n + 1` bits that fit the word. -/
theorem bits_packIndices {n w : Nat} {ks : List Nat} {i k : Nat} (hw : (n + 1) * ks.length ≤ w)
    (hlt : ∀ j ∈ ks, j < 2 ^ (n + 1)) (hk : ks[i]? = some k) :
    bits (BitVec.ofNat w (packIndices (n + 1) ks)).toNat ((n + 1) * i + n) ((n + 1) * i) = k := by
  have hfit : packIndices (n + 1) ks < 2 ^ w := (packIndices_lt _ ks hlt).trans_le (Nat.pow_le_pow_right two_pos hw)
  rw [BitVec.toNat_ofNat, Nat.mod_eq_of_lt hfit, bits_eq, Nat.add_sub_cancel_left]
  exact packIndices_field _ ks i k hlt hk

/-- The two-bit index of pixel i stands at bits 2i+1:2i of the word, whatever chooses the index. -/
theorem bits_indexWord {f : Pixel → Nat} (hf : ∀ p, f p < 4) (blk : Vector Pixel 16) (i : Fin 16) :
    bits (BitVec.ofNat 32 (packIndices 2 (blk.toList.map f))).toNat (2 * i.val + 1) (2 * i.val) = f blk[i] :=
  bits_packIndices (n := 1) (by simp) (by simp [hf]) (by simp)

theorem packIndices_eq_zero (n : Nat) : ∀ {ks : List Nat}, (∀ k ∈ ks, k = 0) → packIndices n ks = 0
  | [], _ => rfl
  | k :: ks, h => by
    obtain ⟨hk, hks⟩ := List.forall_mem_cons.1 h
    rw [packIndices, packIndices_eq_zero n hks, hk, Nat.zero_mul]

theorem indexWord_eq_zero {f : Pixel → Nat} {blk : Vector Pixel 16} (h : ∀ p ∈ blk.toList, f p = 0) :
    BitVec.ofNat 32 (packIndices 2 (blk.toList.map f)) = 0 := by
  rw [packIndices_eq_zero 2 (List.forall_mem_map.2 h), BitVec.ofNat_eq_ofNat]

/-! ## The distances of a pixel (R205, R206) -/

theorem absDiff_le_max (a b : Nat) : absDiff a b ≤ max a b := by
  unfold absDiff
  omega

theorem absDiff_le_iff (a b : Nat) : absDiff a b ≤ b ↔ a ≤ 2 * b := by
  unfold absDiff
  omega

theorem absDiff_zero_byte (b : Byte) : absDiff (0 : Byte).toNat b.toNat = b.toNat := by simp [absDiff]

/-- The range of `SSD` (R205). -/
theorem ssd_le (e : Rgb) (p : Pixel) : ssd e p ≤ 195075 := by
  have hch : ∀ a b : Byte, absDiff a.toNat b.toNat ^ 2 ≤ 255 ^ 2 := fun a b =>
    Nat.pow_le_pow_left ((absDiff_le_max _ _).trans (max_le (Nat.le_of_lt_succ a.isLt) (Nat.le_of_lt_succ b.isLt))) 2
  exact Nat.add_le_add (Nat.add_le_add (hch _ _) (hch _ _)) (hch _ _)

theorem leastOf_ssds_le (pal : Palette) (p : Pixel) : leastOf (ssds pal p) ≤ 195075 :=
  (leastOf_le (by simp [ssds])).trans (ssd_le pal.p0 p)

/-- The sixteen least distances add up inside the 22 bits of `ERRC`. -/
theorem sum_leastOf_ssds_lt (pal : Palette) (blk : Vector Pixel 16) :
    (blk.toList.map (fun p => leastOf (ssds pal p))).sum < 2 ^ 22 := by
  have h := List.sum_le_card_nsmul (blk.toList.map (fun p => leastOf (ssds pal p))) 195075
    (List.forall_mem_map.2 fun p _ => leastOf_ssds_le pal p)
  simp only [List.length_map, Vector.length_toList, smul_eq_mul] at h
  omega

theorem hqError_toNat (pal : Palette) (blk : Vector Pixel 16) :
    (hqError pal blk).toNat = (blk.toList.map (fun p => leastOf (ssds pal p))).sum := by
  rw [hqError, BitVec.toNat_ofNat, Nat.mod_eq_of_lt (sum_leastOf_ssds_lt pal blk)]

/-! ## Three equal distances (R203) -/

theorem cascade_of_three_equal (d d3 : Nat) : cascade d d d d3 = if d3 < d then 3 else 0 := by
  by_cases h : d3 < d <;> simp [cascade, h]

theorem leastIndex_eq_zero {d : Nat} {ds : List Nat} (h : ∀ e ∈ ds, d ≤ e) : leastIndex (d :: ds) = 0 := by
  cases ds with
  | nil => rfl
  | cons e es => exact if_pos (by simpa using h)

/-! ## The endpoints of a flat block (R110, R111, R170, R177) -/

/-- Every channel of `e` is at most double that of `c`: then `e` is no farther from `c` than black is (R207). -/
def AtMostDouble (e c : Rgb) : Prop :=
  e.r.toNat ≤ 2 * c.r.toNat ∧ e.g.toNat ≤ 2 * c.g.toNat ∧ e.b.toNat ≤ 2 * c.b.toNat

/-- What `Expand565` makes of a word given by its three fields (R111). -/
theorem expand565_of_fields {p : Half} {r g b : Nat} (hg : g < 64) (hb : b < 32)
    (hp : p.toNat = r * 2 ^ 11 + g * 2 ^ 5 + b) :
    (expand565 p).r.toNat = r * 8 + r / 4 ∧ (expand565 p).g.toNat = g * 4 + g / 16 ∧
      (expand565 p).b.toNat = b * 8 + b / 4 := by
  have hr5 : bits p.toNat 15 11 = r := by rw [bits_eq]; omega
  have hg6 : bits p.toNat 10 5 = g := by rw [bits_eq]; omega
  have hb5 : bits p.toNat 4 0 = b := by rw [bits_eq]; omega
  simp only [expand565, hr5, hg6, hb5, BitVec.toNat_ofNat]
  omega

/-- The fast endpoint of a flat block: truncating to 565 and expanding adds at most the channel's top bits. -/
theorem expand565_pack565_atMostDouble (c : Rgb) : AtMostDouble (expand565 (pack565 c.r c.g c.b)) c := by
  have hg : c.g.toNat / 4 < 64 := Nat.div_lt_of_lt_mul c.g.isLt
  have hb : c.b.toNat / 8 < 32 := Nat.div_lt_of_lt_mul c.b.isLt
  obtain ⟨er, eg, eb⟩ := expand565_of_fields hg hb (pack565_toNat c.r c.g c.b)
  rw [AtMostDouble, er, eg, eb]
  omega

/-- A channel that rounds to a level above 0 is at least half the level's expansion: five bits, and six bits. -/
theorem quantLevel_expanded_le (c : Nat) :
    quantLevel 31 c * 8 + quantLevel 31 c / 4 ≤ 2 * c ∧ quantLevel 63 c * 4 + quantLevel 63 c / 16 ≤ 2 * c := by
  have h5 : quantLevel 31 c * 510 ≤ 62 * c + 255 := Nat.div_mul_le_self _ _
  have h6 : quantLevel 63 c * 510 ≤ 126 * c + 255 := Nat.div_mul_le_self _ _
  constructor
  · rcases Nat.eq_zero_or_pos (quantLevel 31 c) with h | h
    · simp [h]
    · omega
  · rcases Nat.eq_zero_or_pos (quantLevel 63 c) with h | h
    · simp [h]
    · omega

/-- The high-quality endpoint of a flat block. -/
theorem expand565_q565_atMostDouble (c : Rgb) : AtMostDouble (expand565 (q565 c)) c := by
  obtain ⟨er, eg, eb⟩ := expand565_of_fields (Nat.lt_succ_of_le (quantLevel_le 63 c.g))
    (Nat.lt_succ_of_le (quantLevel_le 31 c.b)) (q565_toNat c)
  rw [AtMostDouble, er, eg, eb]
  exact ⟨(quantLevel_expanded_le _).1, (quantLevel_expanded_le _).2, (quantLevel_expanded_le _).1⟩

/-- The range of equal values is that value at both ends, whatever the shift (R170). -/
theorem insetRange_of_flat {vals : List Byte} (hne : vals ≠ []) {x : Byte} (h : ∀ v ∈ vals, v = x) (k : Nat) :
    insetRange vals k = (x, x) := by
  obtain ⟨lo, hlo, hmin⟩ := minOf_mem hne
  obtain ⟨hi, hhi, hmax⟩ := maxOf_mem hne
  obtain ⟨h1, h2⟩ := insetRange_toNat hne k
  rw [← hmin, ← hmax, h lo hlo, h hi hhi, Nat.sub_self, Nat.zero_div] at h1 h2
  exact Prod.ext (BitVec.eq_of_toNat_eq h1) (BitVec.eq_of_toNat_eq h2)

/-- The fast endpoints of a flat block are its color packed, twice (R207). -/
theorem fastEndpoints_of_one_color {blk : Vector Pixel 16} {c : Rgb} (h : ∀ p ∈ blk.toList, rgbOf p = c) :
    fastEndpoints (fastBox blk) = (pack565 c.r c.g c.b, pack565 c.r c.g c.b) := by
  have hr := insetRange_of_flat (channel_ne_nil blk 0) (List.forall_mem_map.2 fun p hp => congrArg Rgb.r (h p hp))
  have hg := insetRange_of_flat (channel_ne_nil blk 1) (List.forall_mem_map.2 fun p hp => congrArg Rgb.g (h p hp))
  have hb := insetRange_of_flat (channel_ne_nil blk 2) (List.forall_mem_map.2 fun p hp => congrArg Rgb.b (h p hp))
  simp only [fastEndpoints, fastBox, hr, hg, hb]

/-! ## The palette and the indices of a flat block (R201, R207) -/

/-- The palette of a flat block: three times the one color `e`, and black. -/
def flatPalette (e : Rgb) : Palette := ⟨e, e, e, ⟨0, 0, 0⟩⟩

theorem blend_self (e : Rgb) : blend 1 1 2 e e = e := by
  have hch : ∀ x : Byte, BitVec.ofNat 8 ((1 * x.toNat + 1 * x.toNat) / 2) = x := fun x => by
    rw [← Nat.add_mul, Nat.mul_div_cancel_left _ (by decide), BitVec.ofNat_toNat, BitVec.setWidth_eq]
  simp only [blend, hch]

/-- Equal endpoints with the flat-black switch on take the three-color palette. -/
theorem palette_self (p : Half) : palette p p true = flatPalette (expand565 p) := by
  simp [palette, threeFlag, flatPalette, blend_self]

theorem sad_le_sad_black {e c : Rgb} {p : Pixel} (he : AtMostDouble e c) (hp : rgbOf p = c) : sad e p ≤ sad ⟨0, 0, 0⟩ p := by
  subst hp
  obtain ⟨hr, hg, hb⟩ := he
  simp only [sad, absDiff_zero_byte]
  exact Nat.add_le_add (Nat.add_le_add ((absDiff_le_iff _ _).2 hr) ((absDiff_le_iff _ _).2 hg)) ((absDiff_le_iff _ _).2 hb)

theorem ssd_le_ssd_black {e c : Rgb} {p : Pixel} (he : AtMostDouble e c) (hp : rgbOf p = c) : ssd e p ≤ ssd ⟨0, 0, 0⟩ p := by
  subst hp
  obtain ⟨hr, hg, hb⟩ := he
  have hsq : ∀ {a b : Nat}, a ≤ 2 * b → absDiff a b ^ 2 ≤ b ^ 2 := fun h => Nat.pow_le_pow_left ((absDiff_le_iff _ _).2 h) 2
  simp only [ssd, absDiff_zero_byte]
  exact Nat.add_le_add (Nat.add_le_add (hsq hr) (hsq hg)) (hsq hb)

/-- The index that each quality gives a pixel (R203, R206). -/
def colorIndex (q : Quality) : Palette → Pixel → Nat :=
  match q with
  | .fast => fastIndex
  | .high => hqIndex

/-- The color itself is no farther than black, and it comes first. -/
theorem colorIndex_flatPalette (q : Quality) {e c : Rgb} {p : Pixel} (he : AtMostDouble e c) (hp : rgbOf p = c) :
    colorIndex q (flatPalette e) p = 0 := by
  cases q with
  | fast => exact (cascade_of_three_equal _ _).trans (if_neg (not_lt.2 (sad_le_sad_black he hp)))
  | high => exact leastIndex_eq_zero (by simpa [flatPalette] using ssd_le_ssd_black he hp)

/-! ## The color block of a flat block (R207) -/

/-- The one endpoint that each quality gives a block of one color. -/
def flatEndpoint (q : Quality) (c : Rgb) : Half :=
  match q with
  | .fast => pack565 c.r c.g c.b
  | .high => q565 c

theorem expand565_flatEndpoint_atMostDouble (q : Quality) (c : Rgb) : AtMostDouble (expand565 (flatEndpoint q c)) c := by
  cases q with
  | fast => exact expand565_pack565_atMostDouble c
  | high => exact expand565_q565_atMostDouble c

theorem colorBlock_pa_pb_of_one_color (q : Quality) (fb : Bool) {e : EncScratch} {c : Rgb}
    (h : ∀ p ∈ e.blk.toList, rgbOf p = c) :
    ((colorBlock q fb e).pa, (colorBlock q fb e).pb) = (flatEndpoint q c, flatEndpoint q c) := by
  cases q with
  | fast => exact fastEndpoints_of_one_color h
  | high => exact hqEndpoints_of_one_color h

theorem colorBlock_c0_c1_of_one_color (q : Quality) (fb : Bool) {e : EncScratch} {c : Rgb}
    (h : ∀ p ∈ e.blk.toList, rgbOf p = c) :
    (colorBlock q fb e).c0 = flatEndpoint q c ∧ (colorBlock q fb e).c1 = flatEndpoint q c := by
  obtain ⟨hpa, hpb⟩ := Prod.mk.inj (colorBlock_pa_pb_of_one_color q fb h)
  exact Prod.mk.inj (by rw [colorBlock_ordered, hpa, hpb, order_of_le le_rfl])

/-- The index word of either quality packs that quality's indices on the palette of the ordered pair. -/
theorem colorBlock_idx (q : Quality) (fb : Bool) (e : EncScratch) :
    (colorBlock q fb e).idx = BitVec.ofNat 32 (packIndices 2
      (e.blk.toList.map (colorIndex q (palette (colorBlock q fb e).c0 (colorBlock q fb e).c1 fb)))) := by cases q <;> rfl

theorem colorBlock_idx_of_one_color (q : Quality) {e : EncScratch} {c : Rgb} (h : ∀ p ∈ e.blk.toList, rgbOf p = c) :
    (colorBlock q true e).idx = 0 := by
  obtain ⟨h0, h1⟩ := colorBlock_c0_c1_of_one_color q true h
  rw [colorBlock_idx, h0, h1, palette_self]
  exact indexWord_eq_zero fun p hp => colorIndex_flatPalette q (expand565_flatEndpoint_atMostDouble q c) (h p hp)

/-! ## The statements -/

/-- Settles O48: every cascade index has two bits, so the fields of the packed word do not overlap. -/
theorem fastIndexWordHoldsEachPixelsIndex : Obligations.FastIndexWordHoldsEachPixelsIndex :=
  fun pal blk i => bits_indexWord (fastIndex_lt pal) blk i

/-- Settles O49: the field of pixel i is its least nearest index, and the sum of the errors fits `ERRC`. -/
theorem hqIndexWordHoldsTheNearestIndex : Obligations.HqIndexWordHoldsTheNearestIndex := by
  refine fun pal blk => ⟨fun i => ?_, hqError_toNat pal blk⟩
  obtain ⟨d, hd, rfl, hfirst⟩ := leastIndex_spec (ds := ssds pal blk[i]) (by simp [ssds])
  exact ⟨hqIndex pal blk[i], _, bits_indexWord (hqIndex_lt pal) blk i, hd, fun _ => leastOf_le, hfirst⟩

/-- Settles O50, from the cascade of three equal distances: a flat block's palette is its color three times, and black. -/
theorem cascadeCornersAndFlatBlocks : Obligations.CascadeCornersAndFlatBlocks := by
  refine ⟨⟨fun d => ?_, cascade_of_three_equal, by decide, fun d0 d1 d2 d3 => ?_⟩, fun q e c h => ⟨?_, ?_⟩⟩
  · rw [cascade_of_three_equal, if_neg (lt_irrefl d)]
  · exact Nat.le_of_lt_succ (cascade_lt d0 d1 d2 d3)
  · obtain ⟨h0, h1⟩ := colorBlock_c0_c1_of_one_color q true h
    rw [h0, h1]
  · exact colorBlock_idx_of_one_color q h

end Sys2Proof.Machine

/-! # The alpha ramp coder: the fields of a ramp block and of the explicit alpha field (R234 to R237), the thresholds of fast mode (R234),
and the errors of the two orientations (R235, R236, R238) -/

namespace Sys2Proof.Machine

/-! ## The fields of a block -/

/-- The three-bit index of value i stands at bits 3i+2:3i of the index field, whatever chooses the index. -/
theorem bits_rampIndexField {f : Byte → Nat} (hf : ∀ v, f v < 8) {vals : List Byte} (hlen : vals.length = 16) {i : Nat} {v : Byte}
    (h : vals[i]? = some v) :
    bits (BitVec.ofNat 48 (packIndices 3 (vals.map f))).toNat (3 * i + 2) (3 * i) = f v :=
  bits_packIndices (n := 2) (by simp [hlen]) (List.forall_mem_map.2 fun v _ => hf v) (by simp [h])

/-- The value that a ramp block decodes to at pixel i (R113, R231). -/
def decodedValue (r : RampBlock) (i : Nat) : Nat := (ramp r.a0 r.a1).getD (bits r.aidx.toNat (3 * i + 2) (3 * i)) 0

/-- The squared error of each of the sixteen values under a ramp block. -/
def decodedErrors (vals : List Byte) (r : RampBlock) : List Nat :=
  (List.range 16).map fun i => absDiff (vals.getD i 0).toNat (decodedValue r i) ^ 2

/-! ## The thresholds of fast mode (R234) -/

/-- The seven thresholds of R234 as natural numbers, written out. -/
def natThresholds (mn mx : Nat) : List Nat :=
  let mid := (mx - mn) / 14
  [mn + mid, (6 * mx + mn) / 7 + mid, (5 * mx + 2 * mn) / 7 + mid, (4 * mx + 3 * mn) / 7 + mid, (3 * mx + 4 * mn) / 7 + mid,
    (2 * mx + 5 * mn) / 7 + mid, (mx + 6 * mn) / 7 + mid]

theorem rampThresholds_eq_natThresholds {mn mx : Nat} (h : mn ≤ mx) :
    rampThresholds mn mx = (natThresholds mn mx).map Nat.cast := by
  simp [rampThresholds, rampMid, natThresholds, h, List.range_succ]

theorem countP_rampThresholds {mn mx : Nat} (h : mn ≤ mx) (v : Byte) :
    (rampThresholds mn mx).countP (fun t => decide ((v.toNat : Int) ≤ t)) =
      (natThresholds mn mx).countP (fun t => decide (v.toNat ≤ t)) := by
  rw [rampThresholds_eq_natThresholds h, List.countP_map]
  simp [Function.comp_def]

/-- Every threshold lies in the range, and below its upper end where the range is not a point. -/
theorem natThresholds_within {mn mx : Nat} (h : mn ≤ mx) :
    ∀ t ∈ natThresholds mn mx, mn ≤ t ∧ t ≤ mx ∧ (mn < mx → t < mx) := by
  simp only [natThresholds, List.forall_mem_cons, List.not_mem_nil, false_imp_iff, implies_true, and_true]
  omega

/-- The map from the count of thresholds to the index (R234). -/
theorem fastRampIndex_eq_getD {ab : List Int} (hab : ab.length = 7) (v : Byte) :
    fastRampIndex ab v = [0, 2, 3, 4, 5, 6, 7, 1].getD (ab.countP (fun t => decide ((v.toNat : Int) ≤ t))) 0 := by
  have hle := List.countP_le_length (p := fun t => decide ((v.toNat : Int) ≤ t)) (l := ab)
  rw [fastRampIndex]
  generalize ab.countP (fun t => decide ((v.toNat : Int) ≤ t)) = cnt at *
  rw [hab] at hle
  interval_cases cnt <;> rfl

theorem fastRampIndex_rampThresholds {mn mx : Nat} (h : mn ≤ mx) (v : Byte) :
    fastRampIndex (rampThresholds mn mx) v =
      [0, 2, 3, 4, 5, 6, 7, 1].getD ((natThresholds mn mx).countP (fun t => decide (v.toNat ≤ t))) 0 := by
  rw [fastRampIndex_eq_getD (by simp [rampThresholds]), countP_rampThresholds h]

/-- A value at or above the upper end is above every threshold. -/
theorem fastRampIndex_of_ge {mn mx : Nat} {v : Byte} (h : mn < mx) (hv : mx ≤ v.toNat) :
    fastRampIndex (rampThresholds mn mx) v = 0 := by
  have hcnt : (natThresholds mn mx).countP (fun t => decide (v.toNat ≤ t)) = 0 := List.countP_eq_zero.2 fun t ht => by
    obtain ⟨-, -, hlt⟩ := natThresholds_within h.le t ht
    simpa using (hlt h).trans_le hv
  rw [fastRampIndex_rampThresholds h.le, hcnt]
  rfl

/-- A value at or below the lower end is below or at every threshold. -/
theorem fastRampIndex_of_le {mn mx : Nat} {v : Byte} (h : mn ≤ mx) (hv : v.toNat ≤ mn) :
    fastRampIndex (rampThresholds mn mx) v = 1 := by
  have hcnt : (natThresholds mn mx).countP (fun t => decide (v.toNat ≤ t)) = 7 := List.countP_eq_length.2 fun t ht =>
    decide_eq_true (hv.trans (natThresholds_within h t ht).1)
  rw [fastRampIndex_rampThresholds h, hcnt]
  rfl

/-! ## The fit to one orientation (R235) -/

/-- The block that `RampFit` gives for one pair of endpoints (R235). -/
def rampFitBlock (vals : List Byte) (a0 a1 : Byte) : RampBlock := ⟨a0, a1, BitVec.ofNat 48 (packIndices 3 (rampFitIdx vals a0 a1))⟩

theorem rampDistances_ramp_ne_nil (a0 a1 : Byte) (v : Byte) : rampDistances (ramp a0 a1) v ≠ [] :=
  List.ne_nil_of_length_pos (by simp [rampDistances_length])

theorem leastIndex_rampDistances_lt (a0 a1 : Byte) (v : Byte) : leastIndex (rampDistances (ramp a0 a1) v) < 8 := by
  simpa [rampDistances_length] using leastIndex_lt (rampDistances_ramp_ne_nil a0 a1 v)

theorem bits_rampFitBlock_aidx {vals : List Byte} (hlen : vals.length = 16) (a0 a1 : Byte) {i : Nat} {v : Byte}
    (h : vals[i]? = some v) :
    bits (rampFitBlock vals a0 a1).aidx.toNat (3 * i + 2) (3 * i) = leastIndex (rampDistances (ramp a0 a1) v) :=
  bits_rampIndexField (leastIndex_rampDistances_lt a0 a1) hlen h

/-- The level at the least index is at the least squared distance. -/
theorem sq_absDiff_decodedValue_rampFitBlock {vals : List Byte} (hlen : vals.length = 16) (a0 a1 : Byte) {i : Nat} {v : Byte}
    (h : vals[i]? = some v) :
    absDiff v.toNat (decodedValue (rampFitBlock vals a0 a1) i) ^ 2 = leastOf (rampDistances (ramp a0 a1) v) := by
  obtain ⟨d, hd, hleast, -⟩ := leastIndex_spec (rampDistances_ramp_ne_nil a0 a1 v)
  rw [rampDistances, List.getElem?_map, Option.map_eq_some_iff] at hd
  obtain ⟨l, hl, rfl⟩ := hd
  rw [hleast, decodedValue, bits_rampFitBlock_aidx hlen a0 a1 h, List.getD_eq_getElem?_getD]
  exact congrArg (fun o : Option Nat => absDiff v.toNat (o.getD 0) ^ 2) hl

theorem sum_decodedErrors_rampFitBlock {vals : List Byte} (hlen : vals.length = 16) (a0 a1 : Byte) :
    (decodedErrors vals (rampFitBlock vals a0 a1)).sum = rampFitErr vals a0 a1 := by
  refine congrArg List.sum (List.ext_getElem (by simp [decodedErrors, hlen]) fun i _ hi => ?_)
  have hv : i < vals.length := by simpa using hi
  simpa [decodedErrors, hv] using sq_absDiff_decodedValue_rampFitBlock hlen a0 a1 (List.getElem?_eq_getElem hv)

/-- A ramp whose levels hold every value of the channel fits it without error. -/
theorem rampFitErr_eq_zero {vals : List Byte} {a0 a1 : Byte} (h : ∀ v ∈ vals, v.toNat ∈ ramp a0 a1) : rampFitErr vals a0 a1 = 0 := by
  refine List.sum_eq_zero (List.forall_mem_map.2 fun v hv => Nat.le_zero.1 (leastOf_le ?_))
  exact List.mem_map.2 ⟨v.toNat, h v hv, by simp [absDiff]⟩

/-- 6-level mode has the two fixed codes (R230, R231). -/
theorem zero_and_255_mem_ramp {a0 a1 : Byte} (h : a0.toNat ≤ a1.toNat) : 0 ∈ ramp a0 a1 ∧ 255 ∈ ramp a0 a1 := by
  simp [ramp, not_lt.2 h]

/-! ## The choice of the orientation (R236) -/

/-- The block is the fit to its own endpoints, whichever orientation is taken. -/
theorem hqAlpha_eq_rampFitBlock (vals : List Byte) (k : Nat) :
    hqAlpha vals k = rampFitBlock vals (hqAlpha vals k).a0 (hqAlpha vals k).a1 := by
  rw [hqAlpha]
  split <;> rfl

section
variable {vals : List Byte} {k : Nat} {lo hi : Byte} (hr : alphaRange vals k = (lo, hi))
include hr

theorem hqOri_of_range : hqOri vals k = decide (rampFitErr vals lo hi < rampFitErr vals hi lo) := by
  rw [hqOri, hr, oriFlag]

theorem hqAlpha_of_range : hqAlpha vals k = if hqOri vals k then rampFitBlock vals lo hi else rampFitBlock vals hi lo := by
  rw [hqAlpha, hr, rampFitBlock, rampFitBlock]

theorem hqAlpha_of_le (h : rampFitErr vals hi lo ≤ rampFitErr vals lo hi) :
    hqOri vals k = false ∧ hqAlpha vals k = rampFitBlock vals hi lo := by
  have hori : hqOri vals k = false := (hqOri_of_range hr).trans (decide_eq_false (not_lt.2 h))
  exact ⟨hori, by rw [hqAlpha_of_range hr, hori, if_neg Bool.false_ne_true]⟩

theorem hqAlpha_of_lt (h : rampFitErr vals lo hi < rampFitErr vals hi lo) :
    hqOri vals k = true ∧ hqAlpha vals k = rampFitBlock vals lo hi := by
  have hori : hqOri vals k = true := (hqOri_of_range hr).trans (decide_eq_true h)
  exact ⟨hori, by rw [hqAlpha_of_range hr, hori, if_pos rfl]⟩

/-- The decoded error of the block is the lesser of the two orientations' errors. -/
theorem sum_decodedErrors_hqAlpha (hlen : vals.length = 16) :
    (decodedErrors vals (hqAlpha vals k)).sum = min (rampFitErr vals hi lo) (rampFitErr vals lo hi) := by
  rcases le_or_gt (rampFitErr vals hi lo) (rampFitErr vals lo hi) with h | h
  · rw [(hqAlpha_of_le hr h).2, sum_decodedErrors_rampFitBlock hlen, min_eq_left h]
  · rw [(hqAlpha_of_lt hr h).2, sum_decodedErrors_rampFitBlock hlen, min_eq_right h.le]

end

/-- A block without decoded error decodes every value exactly. -/
theorem decodedValue_eq_of_sum_eq_zero {vals : List Byte} {r : RampBlock} (h : (decodedErrors vals r).sum = 0) {i : Nat} (hi : i < 16) :
    decodedValue r i = (vals.getD i 0).toNat := by
  have herr : absDiff (vals.getD i 0).toNat (decodedValue r i) ^ 2 = 0 :=
    List.sum_eq_zero_iff.1 h _ (List.mem_map.2 ⟨i, List.mem_range.2 hi, rfl⟩)
  have hdiff : absDiff (vals.getD i 0).toNat (decodedValue r i) = 0 := pow_eq_zero_iff two_ne_zero |>.1 herr
  rw [absDiff] at hdiff
  omega

/-! ## The statements -/

/-- Settles O51: the thresholds lie in the range, and with a shift of at least 1 the range is in order. -/
theorem fastAlphaIndexesByItsThresholds : Obligations.FastAlphaIndexesByItsThresholds := by
  refine ⟨fun mn mx v => ⟨fastRampIndex_of_ge, fastRampIndex_of_le, Nat.le_of_lt_succ (fastRampIndex_lt _ v)⟩, fun vals k hlen hk => ?_⟩
  have hle : (alphaRange vals k).1.toNat ≤ (alphaRange vals k).2.toNat :=
    insetRange_le (List.ne_nil_of_length_pos (by omega)) hk
  refine ⟨rfl, rfl, fun t ht => (natThresholds_within hle t ht).2.1, fun i v hv => ?_⟩
  exact (bits_rampIndexField (fastRampIndex_lt _) hlen hv).trans (fastRampIndex_rampThresholds hle v)

/-- Settles O52: the block is the fit to its endpoints, and the orientation is the one with the lesser error. -/
theorem hqAlphaDecodesWithTheLowerError : Obligations.HqAlphaDecodesWithTheLowerError := by
  refine fun vals k hlen => ⟨sum_decodedErrors_hqAlpha rfl hlen, fun h => ?_, fun h => ?_, fun i v hv => ?_⟩
  · obtain ⟨hori, hblock⟩ := hqAlpha_of_le rfl h
    exact ⟨by rw [hblock]; rfl, by rw [hblock]; rfl, hori⟩
  · obtain ⟨hori, hblock⟩ := hqAlpha_of_lt rfl h
    exact ⟨by rw [hblock]; rfl, by rw [hblock]; rfl, hori⟩
  · obtain ⟨d, hd, rfl, hfirst⟩ := leastIndex_spec (rampDistances_ramp_ne_nil (hqAlpha vals k).a0 (hqAlpha vals k).a1 v)
    refine ⟨_, _, ?_, hd, fun _ => leastOf_le, hfirst⟩
    rw [hqAlpha_eq_rampFitBlock]
    exact bits_rampFitBlock_aidx hlen _ _ hv

/-- Settles O53: orientation (b) is in 6-level mode, whose fixed codes are 0 and 255, so the lesser error is 0. -/
theorem extremeAlphaDecodesExactly : Obligations.ExtremeAlphaDecodesExactly := by
  intro vals k hlen hvals _ _ hk r i hi
  have hle : (alphaRange vals k).1.toNat ≤ (alphaRange vals k).2.toNat :=
    insetRange_le (List.ne_nil_of_length_pos (by omega)) hk
  obtain ⟨h0, h255⟩ := zero_and_255_mem_ramp hle
  have hfit : rampFitErr vals (alphaRange vals k).1 (alphaRange vals k).2 = 0 := rampFitErr_eq_zero fun v hv => by
    rcases hvals v hv with rfl | rfl
    · exact h0
    · exact h255
  have hsum : (decodedErrors vals r).sum = 0 := by
    rw [sum_decodedErrors_hqAlpha (Prod.eta _).symm hlen, hfit, Nat.min_zero]
  exact decodedValue_eq_of_sum_eq_zero hsum hi

/-- Settles O54: the high four bits of a byte fit a nibble, so the fields of the packed word do not overlap. -/
theorem explicitAlphaKeepsTheHighNibbles : Obligations.ExplicitAlphaKeepsTheHighNibbles := by
  intro vals i v hlen hv
  have hlt : ∀ w : Byte, w.toNat / 16 < 2 ^ 4 := fun w => Nat.div_lt_of_lt_mul w.isLt
  calc bits (explicitAlpha vals).toNat (4 * i + 3) (4 * i) = v.toNat / 16 :=
        bits_packIndices (n := 3) (by simp [hlen]) (List.forall_mem_map.2 fun w _ => hlt w) (by simp [hv])
    _ = bits v.toNat 7 4 := (Nat.mod_eq_of_lt (hlt v)).symm

end Sys2Proof.Machine

/-! # The block assembler: a command's start (R260), the bytes of a block (R265 to R268), and the tile of each encode command (R261, R262,
R270 to R277) -/

namespace Sys2Proof.Machine

/-! ## The start of a command (R82, R260, R300) -/

/-- A command with tiles has a source: it reads at least one byte. -/
theorem srcLen_pos {i : Instr} {s : State} (hc : startChecks i s = none) (ht : tilesOf i s ≠ 0) : 0 < srcLen i s := by
  cases hk : kindOf i with
  | clear => simp [tilesOf, hk] at ht
  | enc f q =>
    simp only [tilesOf, hk, encTiles, mul_ne_zero_iff] at ht
    obtain ⟨⟨hbw, hbh⟩, hd⟩ := ht
    have hw : 0 < opW s := by unfold blocksW ceilDiv at hbw; omega
    have hh : 0 < opH s := by unfold blocksH ceilDiv at hbh; omega
    simp only [srcLen, hk]
    positivity
  | dec b =>
    simp only [tilesOf, hk, decTiles] at ht
    rw [srcLen_dec hk hc]
    exact Nat.mul_pos (by decide) (Nat.pos_of_ne_zero ht)

/-- What a command does that starts and passes its checks: DONE at once with no tile, and otherwise BUSY, tainted where its source is. -/
theorem exec_start_of_checks {i : Instr} (hi : i ≠ .clr) {s : State} (hb : s.status ≠ .busy) (hc : startChecks i s = none) :
    ∃ t, exec i s = .next t ∧ t.tc = 0 ∧ t.nt = tilesOf i s ∧
      (t.nt = 0 → t.status = .done ∧ t.race = Race.none) ∧
      (t.nt ≠ 0 → t.status = .busy ∧ t.race.startMem = s.mem ∧ t.race.hostWrites = [] ∧
        (t.race.tainted = true ↔ ∃ a, inSource i s a = true ∧ isUnstable s.params a = true)) ∧
      t.mem = s.mem ∧ t.scratch = s.scratch ∧ t.draws = s.draws ∧ sameOperands s t ∧ sameHostSide s t ∧
      t.unseen = ⟨[], s.unseen.last ++ s.unseen.earlier, s.unseen.left⟩ := by
  obtain ⟨hop, hhost, hmem, hscratch, hdraws⟩ := commandStart_frame i s
  refine ⟨_, exec_start hi hb, ?_⟩
  have hcases := commandStart_cases i s
  generalize commandStart i s = t at *
  obtain ⟨c, hc', -⟩ | ⟨-, ht, rfl⟩ | ⟨-, ht, rfl⟩ := hcases
  · cases hc.symm.trans hc'
  · exact ⟨rfl, ht.symm, fun _ => ⟨rfl, rfl⟩, fun hn => absurd rfl hn, hmem, hscratch, hdraws, hop, hhost, rfl⟩
  · exact ⟨rfl, rfl, fun hn => absurd hn ht, fun _ => ⟨rfl, rfl, rfl, sourceUnstable_iff (srcLen_pos hc ht)⟩,
      hmem, hscratch, hdraws, hop, hhost, rfl⟩

/-! ## The bytes of a block (R265 to R268) -/

/-- The color block of each quality. -/
def colorBlockBytes (q : Quality) (blk : Vector Pixel 16) : List Byte :=
  match q with
  | .fast => fastColorBytes true blk
  | .high => hqColorBytes true blk

/-- The bytes of a block as its pixels give them: the parts that its format puts one after the other (R268). -/
def blockBytes (f : Fmt) (q : Quality) (k : Nat) (blk : Vector Pixel 16) : List Byte :=
  match f with
  | .dxt1 => colorBlockBytes q blk
  | .dxt3 => leBytes 8 (explicitAlpha (channel blk 3)).toNat ++ colorBlockBytes q blk
  | .dxt5 => rampBytes (alphaBlock q (channel blk 3) 5) ++ colorBlockBytes q blk
  | .dxn => rampBytes (alphaBlock q (channel blk 0) k) ++ rampBytes (alphaBlock q (channel blk 1) k)

/-- The fast endpoints come in order already (R173), and the order of the high-quality ones is that of their pair (R180). -/
theorem colorBytes_colorBlock (q : Quality) (e : EncScratch) : colorBytes (colorBlock q true e) = colorBlockBytes q e.blk := by
  cases q with
  | fast => simp only [colorBytes, colorBlock, colorFast, colorBlockBytes, fastColorBytes, order_of_le (fastEndpoints_le e.blk)]
  | high => simp only [colorBytes, colorBlock, colorHq, colorBlockBytes, hqColorBytes, order_hqEndpoints]

/-- The assembler puts out the block's bytes, whatever scratch it starts from (R280). -/
theorem encodeBlock_outb (f : Fmt) (q : Quality) (k : Nat) (b : Vector Pixel 16) (e : EncScratch) :
    (encodeBlock f q k b e).outb = blockBytes f q k b := by
  cases f with
  | dxt1 => rw [encodeBlock_dxt1, colorBytes_colorBlock]; rfl
  | dxt3 => rw [encodeBlock_dxt3, colorBytes_colorBlock]; rfl
  | dxt5 => rw [encodeBlock_dxt5, colorBytes_colorBlock]; rfl
  | dxn => rw [encodeBlock_dxn]; rfl

/-! ## The channels that reach a block (R239, R276, R280) -/

/-- The red, green and blue channels are those of the block's colors. -/
theorem channel_eq_of_blockRgb_eq {b b' : Vector Pixel 16} (h : blockRgb b = blockRgb b') :
    channel b 0 = channel b' 0 ∧ channel b 1 = channel b' 1 ∧ channel b 2 = channel b' 2 := by
  have hmap : ∀ (ch : Fin 4) (g : Rgb → Byte), (∀ p, chan p ch = g (rgbOf p)) → channel b ch = channel b' ch := by
    intro ch g hg
    have hch : ∀ blk : Vector Pixel 16, channel blk ch = (blockRgb blk).map g := fun blk => by simp [channel, blockRgb, hg]
    rw [hch, hch, h]
  exact ⟨hmap 0 Rgb.r fun _ => rfl, hmap 1 Rgb.g fun _ => rfl, hmap 2 Rgb.b fun _ => rfl⟩

/-- No alpha reaches the fast endpoints, though `FastBox` has its corners (R172, R239). -/
theorem fastEndpoints_congr {b b' : Vector Pixel 16} (h : blockRgb b = blockRgb b') :
    fastEndpoints (fastBox b) = fastEndpoints (fastBox b') := by
  obtain ⟨hr, hg, hb⟩ := channel_eq_of_blockRgb_eq h
  simp only [fastEndpoints, fastBox, hr, hg, hb]

/-- An index is chosen by the pixel's color alone (R202, R205). -/
theorem map_colorIndex_congr (q : Quality) (pal : Palette) {b b' : Vector Pixel 16} (h : blockRgb b = blockRgb b') :
    b.toList.map (colorIndex q pal) = b'.toList.map (colorIndex q pal) := by
  have hmap : ∀ blk : Vector Pixel 16,
      blk.toList.map (colorIndex q pal) = (blockRgb blk).map fun c => colorIndex q pal ⟨c.r, c.g, c.b, 0⟩ := by
    intro blk
    rw [blockRgb, List.map_map]
    cases q <;> rfl
  rw [hmap, hmap, h]

theorem colorBlockBytes_congr (q : Quality) {b b' : Vector Pixel 16} (h : blockRgb b = blockRgb b') :
    colorBlockBytes q b = colorBlockBytes q b' := by
  cases q with
  | fast =>
    have hidx : ∀ pal, fastIndices pal b = fastIndices pal b' := fun pal =>
      congrArg (fun ks => BitVec.ofNat 32 (packIndices 2 ks)) (map_colorIndex_congr .fast pal h)
    simp only [colorBlockBytes, fastColorBytes, fastEndpoints_congr h, hidx]
  | high =>
    have hidx : ∀ pal, hqIndices pal b = hqIndices pal b' := fun pal =>
      congrArg (fun ks => BitVec.ofNat 32 (packIndices 2 ks)) (map_colorIndex_congr .high pal h)
    simp only [colorBlockBytes, hqColorBytes, hqEndpoints_congr h, hidx]

/-! ## What a tile does not write of its scratch (R46, R262) -/

theorem encodeBlock_dxt1_keeps_alpha (q : Quality) (k : Nat) (b : Vector Pixel 16) (e : EncScratch) :
    sameAlphaScratch e (encodeBlock .dxt1 q k b e) ∧ (encodeBlock .dxt1 q k b e).exa = e.exa := by
  cases q <;> exact ⟨⟨rfl, rfl, rfl⟩, rfl⟩

theorem encodeBlock_dxt3_keeps_alpha (q : Quality) (k : Nat) (b : Vector Pixel 16) (e : EncScratch) :
    sameAlphaScratch e (encodeBlock .dxt3 q k b e) := by
  cases q <;> exact ⟨rfl, rfl, rfl⟩

theorem encodeBlock_dxt5_keeps_second_ramp (q : Quality) (k : Nat) (b : Vector Pixel 16) (e : EncScratch) :
    (encodeBlock .dxt5 q k b e).ramp' = e.ramp' ∧ (encodeBlock .dxt5 q k b e).exa = e.exa := by
  cases q <;> exact ⟨rfl, rfl⟩

theorem encodeBlock_dxn_keeps_color (q : Quality) (k : Nat) (b : Vector Pixel 16) (e : EncScratch) :
    sameColorScratch e (encodeBlock .dxn q k b e) ∧ (encodeBlock .dxn q k b e).exa = e.exa := by
  rw [encodeBlock_dxn]
  exact ⟨⟨rfl, rfl, rfl, rfl, rfl, rfl, rfl, rfl, rfl, rfl, rfl⟩, rfl⟩

/-- `ERRC` and `ORI` are of the high-quality mode (R206, R236). -/
theorem encodeBlock_fast_keeps_errc_ori (f : Fmt) (k : Nat) (b : Vector Pixel 16) (e : EncScratch) :
    (encodeBlock f .fast k b e).errc = e.errc ∧ (encodeBlock f .fast k b e).ori = e.ori := by
  cases f <;> exact ⟨rfl, rfl⟩

/-- The box is of the fast mode (R171). -/
theorem encodeBlock_high_keeps_box (f : Fmt) (k : Nat) (b : Vector Pixel 16) (e : EncScratch) :
    (encodeBlock f .high k b e).minc = e.minc ∧ (encodeBlock f .high k b e).maxc = e.maxc := by
  cases f <;> exact ⟨rfl, rfl⟩

/-! ## The tile of an encode command -/

/-- A tile of any encode command: its block's bytes in their place and no other byte, and of the scratch it records all that follows (`P`)
from what the assembler leaves. -/
theorem exec_encodeTile_writes_block {i : Instr} {f : Fmt} {q : Quality} (hk : kindOf i = .enc f q) {s : State} (h : TileReady i s)
    (hr : s.tc + 1 = s.nt → RaceFree s) (hw : Memory.wf s.mem) {P : State → Prop}
    (hP : ∀ t, t.lastTile.enc = encodeBlock f q s.params.normalInsetShift.val (tileBlock s) s.scratch.enc → P t) :
    ∃ t, exec i s = .next t ∧
      BytesAt t.mem (dstAddr s + blockSize f * s.tc) (blockBytes f q s.params.normalInsetShift.val (tileBlock s)) ∧
      SameOutside s t (dstAddr s + blockSize f * s.tc) (blockSize f) ∧ TileTaken s t ∧ t.lastTile.dec = s.scratch.dec ∧ P t := by
  obtain ⟨t, he, hbytes, hout, htaken, hlast⟩ := exec_encodeTile hk h hr hw
  rw [encodedScratch, encodeBlock_outb] at hbytes
  exact ⟨t, he, hbytes, hout, htaken, by rw [hlast], hP t (by rw [hlast]; rfl)⟩

/-! ## The statements -/

/-- Settles O19, by the start of a command that passes its checks. -/
theorem encodeCommandStarts : Obligations.EncodeCommandStarts := by
  intro i f q s hk hb hc
  have hi : i ≠ .clr := by rintro rfl; cases hk
  have htiles : tilesOf i s = (s.width.toNat + 3) / 4 * ((s.height.toNat + 3) / 4) * s.depth.toNat := by
    simp only [tilesOf, hk]
    rfl
  obtain ⟨t, he, htc, hnt, hrest⟩ := exec_start_of_checks hi hb hc
  exact ⟨t, he, htc, hnt.trans htiles, hrest⟩

/-- Settles O21, by the tile of an encode command: `blockBytes` is the fast color block alone. -/
theorem encDxt1FastTileWritesItsBlock : Obligations.EncDxt1FastTileWritesItsBlock := by
  intro s h hr hw
  refine exec_encodeTile_writes_block (f := .dxt1) (q := .fast) rfl h hr hw fun t henc => ?_
  rw [henc]
  obtain ⟨halpha, hexa⟩ := encodeBlock_dxt1_keeps_alpha .fast s.params.normalInsetShift.val (tileBlock s) s.scratch.enc
  exact ⟨halpha, hexa, (encodeBlock_fast_keeps_errc_ori _ _ _ _).1⟩

/-- Settles O22, by the tile of an encode command: `blockBytes` is the high-quality color block alone. -/
theorem encDxt1HqTileWritesItsBlock : Obligations.EncDxt1HqTileWritesItsBlock := by
  intro s h hr hw
  refine exec_encodeTile_writes_block (f := .dxt1) (q := .high) rfl h hr hw fun t henc => ?_
  rw [henc]
  obtain ⟨halpha, hexa⟩ := encodeBlock_dxt1_keeps_alpha .high s.params.normalInsetShift.val (tileBlock s) s.scratch.enc
  exact ⟨halpha, hexa, encodeBlock_high_keeps_box _ _ _ _⟩

/-- Settles O23, by the tile of an encode command: the explicit alpha field stands before the fast color block. -/
theorem encDxt3FastTileWritesItsBlock : Obligations.EncDxt3FastTileWritesItsBlock := by
  intro s h hr hw
  refine exec_encodeTile_writes_block (f := .dxt3) (q := .fast) rfl h hr hw fun t henc => ?_
  rw [henc]
  exact ⟨encodeBlock_dxt3_keeps_alpha _ _ _ _, (encodeBlock_fast_keeps_errc_ori _ _ _ _).1⟩

/-- Settles O24, by the tile of an encode command: the explicit alpha field stands before the high-quality color block. -/
theorem encDxt3HqTileWritesItsBlock : Obligations.EncDxt3HqTileWritesItsBlock := by
  intro s h hr hw
  refine exec_encodeTile_writes_block (f := .dxt3) (q := .high) rfl h hr hw fun t henc => ?_
  rw [henc]
  exact ⟨encodeBlock_dxt3_keeps_alpha _ _ _ _, encodeBlock_high_keeps_box _ _ _ _⟩

/-- Settles O25, by the tile of an encode command: the fast ramp of alpha stands before the fast color block. -/
theorem encDxt5FastTileWritesItsBlock : Obligations.EncDxt5FastTileWritesItsBlock := by
  intro s h hr hw
  refine exec_encodeTile_writes_block (f := .dxt5) (q := .fast) rfl h hr hw fun t henc => ?_
  rw [henc]
  obtain ⟨hramp', hexa⟩ := encodeBlock_dxt5_keeps_second_ramp .fast s.params.normalInsetShift.val (tileBlock s) s.scratch.enc
  obtain ⟨herrc, hori⟩ := encodeBlock_fast_keeps_errc_ori .dxt5 s.params.normalInsetShift.val (tileBlock s) s.scratch.enc
  exact ⟨hramp', hori, hexa, herrc⟩

/-- Settles O26, by the tile of an encode command: the high-quality ramp of alpha stands before the high-quality color block. -/
theorem encDxt5HqTileWritesItsBlock : Obligations.EncDxt5HqTileWritesItsBlock := by
  intro s h hr hw
  refine exec_encodeTile_writes_block (f := .dxt5) (q := .high) rfl h hr hw fun t henc => ?_
  rw [henc]
  obtain ⟨hramp', hexa⟩ := encodeBlock_dxt5_keeps_second_ramp .high s.params.normalInsetShift.val (tileBlock s) s.scratch.enc
  exact ⟨hramp', hexa, encodeBlock_high_keeps_box _ _ _ _⟩

/-- Settles O27, by the tile of an encode command: the fast ramp of red stands before that of green. -/
theorem encDxnFastTileWritesItsBlock : Obligations.EncDxnFastTileWritesItsBlock := by
  intro s h hr hw
  refine exec_encodeTile_writes_block (f := .dxn) (q := .fast) rfl h hr hw fun t henc => ?_
  rw [henc]
  obtain ⟨hcolor, hexa⟩ := encodeBlock_dxn_keeps_color .fast s.params.normalInsetShift.val (tileBlock s) s.scratch.enc
  exact ⟨hcolor, hexa, (encodeBlock_fast_keeps_errc_ori _ _ _ _).2⟩

/-- Settles O28, by the tile of an encode command: the high-quality ramp of red stands before that of green. -/
theorem encDxnHqTileWritesItsBlock : Obligations.EncDxnHqTileWritesItsBlock := by
  intro s h hr hw
  refine exec_encodeTile_writes_block (f := .dxn) (q := .high) rfl h hr hw fun t henc => ?_
  rw [henc]
  exact encodeBlock_dxn_keeps_color _ _ _ _

/-- Settles O56: the bytes are those of the block's pixels, and each part of them reads its own channels. -/
theorem blockBytesDependOnTheirChannelsAlone : Obligations.BlockBytesDependOnTheirChannelsAlone := by
  intro q k b b' e e'
  refine ⟨fun f => ?_, fun hrgb => ?_, fun hred hgreen => ?_⟩
  · rw [encodeBlock_outb, encodeBlock_outb]
  · rw [encodeBlock_outb, encodeBlock_outb]
    exact colorBlockBytes_congr q hrgb
  · simp only [encodeBlock_outb, blockBytes, hred, hgreen]

end Sys2Proof.Machine

/-! # The PVRTC decoder: twiddling (R303), the partition of the image into tiles (R326), the modulation grid and its weights (R310 to R318),
the upscaled colors (R320 to R322), the blend (R325) and the two color modes (R305 to R307) -/

namespace Sys2Proof.Machine

/-! ## Twiddling is one to one (R303) -/

/-- A step of the loop puts one digit, of a bit of `x` and a bit of `y`, above those placed so far. -/
theorem twiddle_digit_eq (x y n t : Nat) : t + bit y n * 2 ^ (2 * n) + bit x n * 2 ^ (2 * n + 1) =
    (2 * bit x n + bit y n) * 2 ^ (2 * n) + t := by
  rw [Nat.pow_succ]
  ring

theorem twiddle_digit_lt (x y : Nat) {n t : Nat} (ht : t < 2 ^ (2 * n)) :
    t + bit y n * 2 ^ (2 * n) + bit x n * 2 ^ (2 * n + 1) < 2 ^ (2 * (n + 1)) := by
  have hdigit : 2 * bit x n + bit y n < 4 := by
    have := bit_lt x n
    have := bit_lt y n
    omega
  calc t + bit y n * 2 ^ (2 * n) + bit x n * 2 ^ (2 * n + 1)
      = (2 * bit x n + bit y n) * 2 ^ (2 * n) + t := twiddle_digit_eq x y n t
    _ < 4 * 2 ^ (2 * n) := row_mul_add_lt hdigit ht
    _ = 2 ^ (2 * (n + 1)) := by rw [Nat.mul_succ, Nat.pow_add, Nat.mul_comm]

/-- The two bits of a digit, and the digits below it, are read off the sum. -/
theorem twiddle_digit_inj {x y x' y' n t t' : Nat} (ht : t < 2 ^ (2 * n)) (ht' : t' < 2 ^ (2 * n))
    (h : t + bit y n * 2 ^ (2 * n) + bit x n * 2 ^ (2 * n + 1) = t' + bit y' n * 2 ^ (2 * n) + bit x' n * 2 ^ (2 * n + 1)) :
    t = t' ∧ bit x n = bit x' n ∧ bit y n = bit y' n := by
  rw [twiddle_digit_eq, twiddle_digit_eq] at h
  obtain ⟨hdigit, rfl⟩ := row_mul_add_inj ht ht' h
  have := bit_lt y n
  have := bit_lt y' n
  exact ⟨rfl, by omega, by omega⟩

theorem mod_two_pow_succ_eq_bit (v n : Nat) : v % 2 ^ (n + 1) = v % 2 ^ n + 2 ^ n * bit v n := Nat.mod_pow_succ

/-- The loop loses no bit that it interleaves: equal results come from equal starts and from coordinates whose bits `n` to `m - 1` are
the same. -/
theorem twiddleLoop_inj {m x y x' y' : Nat} : ∀ {fuel n t t' : Nat}, n ≤ m → m ≤ n + fuel → t < 2 ^ (2 * n) → t' < 2 ^ (2 * n) →
    (twiddleLoop (2 ^ m) x y fuel n t).2 = (twiddleLoop (2 ^ m) x' y' fuel n t').2 →
    t = t' ∧ (x % 2 ^ n = x' % 2 ^ n → x % 2 ^ m = x' % 2 ^ m) ∧ (y % 2 ^ n = y' % 2 ^ n → y % 2 ^ m = y' % 2 ^ m)
  | 0, n, t, t', hn, hf, _, _, h => by
    obtain rfl : n = m := by omega
    exact ⟨h, id, id⟩
  | fuel + 1, n, t, t', hn, hf, ht, ht', h => by
    by_cases hnm : n < m
    · simp only [twiddleLoop, if_pos (Nat.pow_lt_pow_right (by decide : 1 < 2) hnm)] at h
      obtain ⟨hsum, hx, hy⟩ := twiddleLoop_inj hnm (by omega) (twiddle_digit_lt x y ht) (twiddle_digit_lt x' y' ht') h
      obtain ⟨rfl, hbx, hby⟩ := twiddle_digit_inj ht ht' hsum
      rw [mod_two_pow_succ_eq_bit, mod_two_pow_succ_eq_bit, hbx] at hx
      rw [mod_two_pow_succ_eq_bit, mod_two_pow_succ_eq_bit, hby] at hy
      exact ⟨rfl, fun e => hx (by rw [e]), fun e => hy (by rw [e])⟩
    · obtain rfl : n = m := by omega
      simp only [twiddleLoop, lt_irrefl, if_false] at h
      exact ⟨h, id, id⟩

/-- The `m` lowest bits of each coordinate, interleaved (R303). -/
def interleaved (m x y : Nat) : Nat := (twiddleLoop (2 ^ m) x y (2 ^ m) 0 0).2

/-- The loop's fuel is enough. -/
theorem le_twiddle_fuel (m : Nat) : m ≤ 0 + 2 ^ m := by
  rw [Nat.zero_add]
  exact Nat.lt_two_pow_self.le

theorem twiddleLoop_fst (m x y : Nat) : (twiddleLoop (2 ^ m) x y (2 ^ m) 0 0).1 = m :=
  (twiddleLoop_pow2 m x y _ 0 0 (Nat.zero_le m) (le_twiddle_fuel m) (by decide)).1

theorem interleaved_lt (m x y : Nat) : interleaved m x y < 2 ^ (2 * m) :=
  (twiddleLoop_pow2 m x y _ 0 0 (Nat.zero_le m) (le_twiddle_fuel m) (by decide)).2

theorem interleaved_inj {m x y x' y' : Nat} (h : interleaved m x y = interleaved m x' y') :
    x % 2 ^ m = x' % 2 ^ m ∧ y % 2 ^ m = y' % 2 ^ m := by
  obtain ⟨-, hx, hy⟩ := twiddleLoop_inj (Nat.zero_le m) (le_twiddle_fuel m) (by decide) (by decide) h
  have hzero : ∀ v v' : Nat, v % 2 ^ 0 = v' % 2 ^ 0 := fun v v' => by rw [Nat.pow_zero, Nat.mod_one, Nat.mod_one]
  exact ⟨hx (hzero x x'), hy (hzero y y')⟩

/-- On a grid that is wider than high the rest of `x` stands above the interleaved bits. -/
theorem twiddleUV_of_wide {m n : Nat} (h : n < m) (x y : Nat) :
    twiddleUV (2 ^ m) (2 ^ n) x y = x / 2 ^ n * 2 ^ (2 * n) + interleaved n x y := by
  simp only [twiddleUV, if_pos (Nat.pow_lt_pow_right (by decide : 1 < 2) h), twiddleLoop_fst, interleaved]
  exact Nat.add_comm _ _

/-- On any other grid the rest of `y` does. -/
theorem twiddleUV_of_not_wide {m n : Nat} (h : m ≤ n) (x y : Nat) :
    twiddleUV (2 ^ m) (2 ^ n) x y = y / 2 ^ m * 2 ^ (2 * m) + interleaved m x y := by
  simp only [twiddleUV, if_neg (Nat.not_lt.2 (Nat.pow_le_pow_right (by decide : 0 < 2) h)), twiddleLoop_fst, interleaved]
  exact Nat.add_comm _ _

theorem twiddleUV_inj {m n x y x' y' : Nat} (hx : x < 2 ^ m) (hy : y < 2 ^ n) (hx' : x' < 2 ^ m) (hy' : y' < 2 ^ n)
    (h : twiddleUV (2 ^ m) (2 ^ n) x y = twiddleUV (2 ^ m) (2 ^ n) x' y') : x = x' ∧ y = y' := by
  by_cases hmn : n < m
  · rw [twiddleUV_of_wide hmn, twiddleUV_of_wide hmn] at h
    obtain ⟨hdiv, hlow⟩ := row_mul_add_inj (interleaved_lt n x y) (interleaved_lt n x' y') h
    obtain ⟨hxm, hym⟩ := interleaved_inj hlow
    rw [Nat.mod_eq_of_lt hy, Nat.mod_eq_of_lt hy'] at hym
    exact ⟨Nat.ext_div_mod hdiv hxm, hym⟩
  · rw [twiddleUV_of_not_wide (Nat.not_lt.1 hmn), twiddleUV_of_not_wide (Nat.not_lt.1 hmn)] at h
    obtain ⟨hdiv, hlow⟩ := row_mul_add_inj (interleaved_lt m x y) (interleaved_lt m x' y') h
    obtain ⟨hxm, hym⟩ := interleaved_inj hlow
    rw [Nat.mod_eq_of_lt hx, Nat.mod_eq_of_lt hx'] at hxm
    exact ⟨hxm, Nat.ext_div_mod hdiv hym⟩

/-- A one to one map of the grid into as many numbers reaches each of them. -/
theorem exists_twiddleUV_eq {m n t : Nat} (ht : t < 2 ^ m * 2 ^ n) :
    ∃ x y, x < 2 ^ m ∧ y < 2 ^ n ∧ twiddleUV (2 ^ m) (2 ^ n) x y = t := by
  have mem_grid : ∀ p : Nat × Nat, p ∈ (Finset.range (2 ^ m) ×ˢ Finset.range (2 ^ n) : Finset (Nat × Nat)) ↔
      p.1 < 2 ^ m ∧ p.2 < 2 ^ n := fun p => by rw [Finset.mem_product, Finset.mem_range, Finset.mem_range]
  have hsurj := Finset.surjOn_of_injOn_of_card_le (s := Finset.range (2 ^ m) ×ˢ Finset.range (2 ^ n))
    (t := Finset.range (2 ^ m * 2 ^ n)) (fun p => twiddleUV (2 ^ m) (2 ^ n) p.1 p.2)
    (fun p hp => by
      obtain ⟨hx, hy⟩ := (mem_grid p).1 hp
      exact Finset.mem_coe.2 (Finset.mem_range.2 (twiddleUV_lt ⟨m, rfl⟩ ⟨n, rfl⟩ hx hy)))
    (fun p hp q hq h => by
      obtain ⟨hx, hy⟩ := (mem_grid p).1 hp
      obtain ⟨hx', hy'⟩ := (mem_grid q).1 hq
      exact Prod.ext_iff.2 (twiddleUV_inj hx hy hx' hy' h))
    (by rw [Finset.card_product, Finset.card_range, Finset.card_range, Finset.card_range])
  obtain ⟨⟨x, y⟩, hp, hxy⟩ := hsurj (Finset.mem_coe.2 (Finset.mem_range.2 ht))
  obtain ⟨hx, hy⟩ := (mem_grid _).1 hp
  exact ⟨x, y, hx, hy, hxy⟩

/-! ## The start of a decode command (R300) -/

/-- The checks of a decode command do not read DEPTH (R300, R364). -/
theorem startChecks_dec_with_depth {i : Instr} {b : Bpp} (hk : kindOf i = .dec b) (s : State) (d : Word) :
    startChecks i { s with depth := d } = startChecks i s := by
  simp only [startChecks, checkRegions, srcLen, dstLen, hk]
  rfl

/-- A decode command that passes its checks has at least two columns and two rows of words. -/
theorem four_le_decTiles {i : Instr} {b : Bpp} {s : State} (hk : kindOf i = .dec b) (hc : startChecks i s = none) :
    4 ≤ decTiles b s := by
  obtain ⟨hW, hH, hminW, hminH, -⟩ := startChecks_dec_none hk hc
  exact Nat.mul_le_mul (wordsX_pow2 hW hminW).2.2 (wordsY_pow2 hH hminH).2.2

/-! ## Every pixel has a tile (R326) -/

/-- From any offset, fewer than `n` steps lead to any place below `n`. -/
theorem exists_emod_eq (a : Int) {n x : Nat} (hx : x < n) : ∃ k, k < n ∧ ((a + k) % (n : Int)).toNat = x := by
  have hn : (0 : Int) < n := by omega
  have h0 := Int.emod_nonneg (x - a) hn.ne'
  have hlt := Int.emod_lt_of_pos (x - a) hn
  refine ⟨((x - a) % n).toNat, by omega, ?_⟩
  rw [Int.toNat_of_nonneg h0, Int.add_emod_emod, add_sub_cancel, Int.emod_eq_of_lt (by omega) (by omega), Int.toNat_natCast]

theorem exists_tile_pixel {i : Instr} {b : Bpp} {s : State} (hk : kindOf i = .dec b) (hc : startChecks i s = none) {x y : Nat}
    (hx : x < opW s) (hy : y < opH s) : ∃ n c r, n < decTiles b s ∧ c < ww b ∧ r < wh b ∧
      outX b { s with tc := n } c = x ∧ outY b { s with tc := n } r = y := by
  obtain ⟨-, -, hW, hH, hX, -⟩ := wordGrid_of_startChecks hk hc
  have hpos : 0 < ww b ∧ 0 < wh b := by cases b <;> decide
  obtain ⟨k, hkW, hkx⟩ := exists_emod_eq ((ww b / 2 : Nat) - (ww b : Nat)) hx
  obtain ⟨l, hlH, hly⟩ := exists_emod_eq ((wh b / 2 : Nat) - (wh b : Nat)) hy
  have hcol : k / ww b < wordsX b s := Nat.div_lt_of_lt_mul (by rwa [Nat.mul_comm, ← hW])
  have hrow : l / wh b < wordsY b s := Nat.div_lt_of_lt_mul (by rwa [Nat.mul_comm, ← hH])
  refine ⟨l / wh b * wordsX b s + k / ww b, k % ww b, l % wh b, ?_, Nat.mod_lt _ hpos.1, Nat.mod_lt _ hpos.2, ?_, ?_⟩
  · rw [decTiles, Nat.mul_comm (wordsX b s)]
    exact row_mul_add_lt hrow hcol
  · rw [outX_tileAt, Nat.mul_add_mod_of_lt hcol, Nat.div_add_mod', hkx]
  · rw [outY_tileAt, Nat.mul_comm _ (wordsX b s), Nat.mul_add_div hX, Nat.div_eq_of_lt hcol, Nat.add_zero, Nat.div_add_mod', hly]

/-! ## The modulation grid (R310 to R315) -/

/-- A list of `h` rows of `w` entries holds `f i j` at place `i` of row `j`. -/
theorem getElem?_rows {α : Type} (f : Nat → Nat → α) {w i : Nat} (hi : i < w) : ∀ {h j : Nat}, j < h →
    ((List.range h).flatMap (fun r => (List.range w).map (fun c => f c r)))[j * w + i]? = some (f i j)
  | h + 1, j, hj => by
    have hlen : ((List.range h).flatMap (fun r => (List.range w).map (fun c => f c r))).length = h * w := by
      simp [List.length_flatMap]
    rw [List.range_succ, List.flatMap_append, List.getElem?_append, hlen]
    rcases Nat.lt_succ_iff_lt_or_eq.1 hj with hj | rfl
    · rw [if_pos (row_mul_add_lt hj hi), getElem?_rows f hi hj]
    · rw [if_neg (by omega), Nat.add_sub_cancel_left]
      simp [hi]

theorem regionList_getD {α : Type} (b : Bpp) (f : Nat → Nat → α) (d : α) {i j : Nat} (hi : i < 2 * ww b) (hj : j < 2 * wh b) :
    (regionList b f).getD (j * (2 * ww b) + i) d = f i j := by
  rw [regionList, List.getD_eq_getElem?_getD, getElem?_rows f hi hj, Option.getD_some]

theorem modvAt_modvGrid (b : Bpp) (ws : FourWords) {i j : Nat} (hi : i < 2 * ww b) (hj : j < 2 * wh b) :
    modvAt b (modvGrid b ws) i j = unpackV b (wordAt b ws i j) (i % ww b) (j % wh b) :=
  regionList_getD b _ none hi hj

theorem modmAt_modmGrid (b : Bpp) (ws : FourWords) {i j : Nat} (hi : i < 2 * ww b) (hj : j < 2 * wh b) :
    modmAt b (modmGrid b ws) i j = unpackM b (wordAt b ws i j) :=
  regionList_getD b _ 0 hi hj

theorem mode2_eq_zero_iff (w : PvWord) : mode2 w = 0 ↔ bit w.col.toNat 0 = 0 := by
  unfold mode2
  by_cases hd : bit w.col.toNat 0 = 0
  · simp [hd]
  · simp only [hd, if_false, iff_false]
    split
    · split <;> decide
    · decide

/-- A 2bpp word holds a value at every place where it is direct, and at every stored place (R313, R315). -/
theorem unpack2_ne_none {w : PvWord} {x y : Nat} (h : mode2 w = 0 ∨ (x + y) % 2 = 0) : unpack2 w x y ≠ none := by
  rw [mode2_eq_zero_iff] at h
  unfold unpack2
  by_cases hd : bit w.col.toNat 0 = 0
  · rw [if_pos hd]
    exact Option.some_ne_none _
  · rw [if_neg hd, isStored, if_pos (decide_eq_true (h.resolve_left hd))]
    exact Option.some_ne_none _

/-- The four words of a region store at the same parity, since a word has an even number of columns and rows. -/
theorem modvAt_two_ne_none (ws : FourWords) {i j : Nat} (hi : i < 16) (hj : j < 8)
    (h : modmAt .two (modmGrid .two ws) i j = 0 ∨ (i + j) % 2 = 0) : modvAt .two (modvGrid .two ws) i j ≠ none := by
  rw [modmAt_modmGrid .two ws hi hj] at h
  rw [modvAt_modvGrid .two ws hi hj]
  refine unpack2_ne_none (h.imp id fun hs => ?_)
  simp only [ww, wh]
  omega

/-! ## The weights (R316, R317) -/

theorem rv_le (v : Nat) : rv v ≤ 8 := by
  unfold rv
  split <;> decide

theorem rvAt_le {b : Bpp} {v : List (Option (Fin 15))} {i j : Nat} (h : modvAt b v i j ≠ none) : rvAt b v i j ≤ 8 := by
  obtain ⟨k, hk⟩ := Option.ne_none_iff_exists'.1 h
  rw [rvAt, hk]
  exact rv_le k.val

/-- A weight is a value of the table or an average of such, where the positions that it reads hold values. -/
theorem weight2_le {v : List (Option (Fin 15))} {m : List (Fin 4)} {i j : Nat}
    (hself : modmAt .two m i j = 0 ∨ (i + j) % 2 = 0 → modvAt .two v i j ≠ none)
    (hnear : (i + j) % 2 ≠ 0 → modvAt .two v (i - 1) j ≠ none ∧ modvAt .two v (i + 1) j ≠ none ∧
      modvAt .two v i (j - 1) ≠ none ∧ modvAt .two v i (j + 1) ≠ none) : weight2 v m i j ≤ 8 := by
  simp only [weight2]
  by_cases h : modmAt .two m i j = 0 ∨ (i + j) % 2 = 0
  · rw [if_pos h]
    exact rvAt_le (hself h)
  · rw [if_neg h]
    obtain ⟨hleft, hright, habove, hbelow⟩ := hnear (not_or.1 h).2
    have := rvAt_le hleft
    have := rvAt_le hright
    have := rvAt_le habove
    have := rvAt_le hbelow
    split
    · omega
    · split <;> omega

theorem weightTable_mem (punch : Bool) (raw : Nat) : (weightTable punch raw).val ∈ [0, 3, 4, 5, 8, 14] := by
  unfold weightTable
  split <;> cases punch <;> decide

/-! ## The upscaled colors of equal words (R320 to R322) -/

/-- The four factors of a pixel add up to the number of pixels of a word. -/
theorem upscale_const {b : Bpp} {c r : Nat} (hc : c ≤ ww b) (hr : r ≤ wh b) (k : Nat) :
    upscale b k k k k c r = ww b * wh b * k := by
  obtain ⟨d, hd⟩ := Nat.exists_eq_add_of_le hc
  obtain ⟨e, he⟩ := Nat.exists_eq_add_of_le hr
  rw [upscale, hd, he, Nat.add_sub_cancel_left, Nat.add_sub_cancel_left]
  ring

theorem widenRgb_const (b : Bpp) (k : Nat) : widenRgb b (ww b * wh b * k) = BitVec.ofNat 8 (k * 8 + k / 4) := by
  cases b <;> simp only [widenRgb, ww, wh] <;> congr 1 <;> omega

theorem widenA_const (b : Bpp) (k : Nat) : widenA b (ww b * wh b * k) = BitVec.ofNat 8 (k * 16 + k) := by
  cases b <;> simp only [widenA, ww, wh] <;> congr 1 <;> omega

/-- A color by bit replication to 8 bits a channel (R321). -/
def replicatedColor (k : PvColor) : Pixel :=
  ⟨BitVec.ofNat 8 (k.r.toNat * 8 + k.r.toNat / 4), BitVec.ofNat 8 (k.g.toNat * 8 + k.g.toNat / 4),
    BitVec.ofNat 8 (k.b.toNat * 8 + k.b.toNat / 4), BitVec.ofNat 8 (k.a.toNat * 16 + k.a.toNat)⟩

theorem upscaleColor_const {b : Bpp} {c r : Nat} (hc : c ≤ ww b) (hr : r ≤ wh b) (k : PvColor) :
    upscaleColor b k k k k c r = replicatedColor k := by
  simp only [upscaleColor, upscale_const hc hr, widenRgb_const, widenA_const, replicatedColor]

/-! ## The blend (R325) -/

theorem blendChannel_zero (x y : Byte) : blendChannel 0 x y = x := by simp [blendChannel]

theorem blendChannel_eight (x y : Byte) : blendChannel 8 x y = y := by simp [blendChannel]

theorem blendPixel_of_le {w : Nat} (h : w ≤ 10) (ua ub : Pixel) : blendPixel w ua ub =
    ⟨blendChannel w ua.r ub.r, blendChannel w ua.g ub.g, blendChannel w ua.b ub.b, blendChannel w ua.a ub.a⟩ := by
  have hpt : ptFlag w = false := decide_eq_false (Nat.not_lt.2 h)
  simp [blendPixel, hpt]

theorem blendPixel_of_punch {w : Nat} (h : 10 < w) (ua ub : Pixel) : blendPixel w ua ub =
    ⟨blendChannel (w - 10) ua.r ub.r, blendChannel (w - 10) ua.g ub.g, blendChannel (w - 10) ua.b ub.b, 0⟩ := by
  have hpt : ptFlag w = true := decide_eq_true h
  simp [blendPixel, hpt]

/-! ## The two colors of a word (R305 to R307) -/

theorem xor_one_div_two_pow (v : Nat) {i : Nat} (hi : 1 ≤ i) : (v ^^^ 1) / 2 ^ i = v / 2 ^ i := by
  rw [Nat.xor_div_two_pow, Nat.div_eq_of_lt (Nat.one_lt_two_pow (by omega)), Nat.xor_zero]

/-- Bit 0 reaches no higher bit. -/
theorem bit_xor_one (v : Nat) {i : Nat} (hi : 1 ≤ i) : bit (v ^^^ 1) i = bit v i := by
  rw [bit, xor_one_div_two_pow v hi, bit]

theorem bits_xor_one (v hi : Nat) {lo : Nat} (hlo : 1 ≤ lo) : bits (v ^^^ 1) hi lo = bits v hi lo := by
  rw [bits, xor_one_div_two_pow v hlo, bits]

theorem colorA_xor_one (col : Word) : colorA (col ^^^ 1) = colorA col := by
  simp [colorA, bit_xor_one, bits_xor_one]

theorem colorB_xor_one (col : Word) : colorB (col ^^^ 1) = colorB col := by
  simp [colorB, bit_xor_one, bits_xor_one]

/-- The alpha of a transparent color is even. -/
theorem pvColor_a_ne_15 (r g b k : Nat) : (pvColor r g b (k * 2)).a.toNat ≠ 15 := by
  simp only [pvColor, BitVec.toNat_ofNat]
  omega

theorem colorA_a_eq_15_iff (col : Word) : (colorA col).a.toNat = 15 ↔ bit col.toNat 15 = 1 := by
  unfold colorA
  by_cases h : bit col.toNat 15 = 1
  · simp [h, pvColor]
  · simpa only [h, if_false, iff_false] using pvColor_a_ne_15 _ _ _ _

theorem colorB_a_eq_15_iff (col : Word) : (colorB col).a.toNat = 15 ↔ bit col.toNat 31 = 1 := by
  unfold colorB
  by_cases h : bit col.toNat 31 = 1
  · simp [h, pvColor]
  · simpa only [h, if_false, iff_false] using pvColor_a_ne_15 _ _ _ _

/-! ## The statements -/

/-- Settles O20, by the start of a command that passes its checks, which has at least four tiles. -/
theorem decodeCommandStarts : Obligations.DecodeCommandStarts := by
  intro i b s hk hb hc
  have hi : i ≠ .clr := by rintro rfl; cases hk
  have htiles : tilesOf i s = decTiles b s := by simp only [tilesOf, hk]
  have hfour : 4 ≤ decTiles b s := four_le_decTiles hk hc
  obtain ⟨t, he, htc, hnt, -, hbusy, hrest⟩ := exec_start_of_checks hi hb hc
  rw [htiles] at hnt
  obtain ⟨hst, hmem, hwrites, htaint⟩ := hbusy (by omega)
  exact ⟨fun d => (startChecks_dec_with_depth hk s d).trans hc, t, he, htc, hnt, by omega, hst, hmem, hwrites, htaint, hrest⟩

/-- Settles O29, by the tile of a decode command: under the invariant the running command passed its checks. -/
theorem decPvrtc2TileWritesItsPixels : Obligations.DecPvrtc2TileWritesItsPixels := by
  intro s hinv h hr
  obtain ⟨hc, -, -⟩ := hinv.of_running h.1
  obtain ⟨t, he, hpix, hout, htaken, hlast⟩ := exec_decodeTile (b := .two) rfl h hr hinv.memWf hc
  exact ⟨t, he, hpix, hout, htaken, by rw [hlast]⟩

/-- Settles O30, by the tile of a decode command: under the invariant the running command passed its checks. -/
theorem decPvrtc4TileWritesItsPixels : Obligations.DecPvrtc4TileWritesItsPixels := by
  intro s hinv h hr
  obtain ⟨hc, -, -⟩ := hinv.of_running h.1
  obtain ⟨t, he, hpix, hout, htaken, hlast⟩ := exec_decodeTile (b := .four) rfl h hr hinv.memWf hc
  exact ⟨t, he, hpix, hout, htaken, by rw [hlast]⟩

/-- Settles O37: every pixel has a tile and a position, and no pixel has two. -/
theorem everyPixelBelongsToOneTile : Obligations.EveryPixelBelongsToOneTile := by
  intro i b s hk hc x y hx hy
  obtain ⟨n, c, r, hn, hcw, hrh, hox, hoy⟩ := exists_tile_pixel hk hc hx hy
  refine ⟨(n, c, r), ⟨hn, hcw, hrh, hox, hoy⟩, ?_⟩
  rintro ⟨n', c', r'⟩ ⟨hn', hcw', hrh', hox', hoy'⟩
  obtain ⟨rfl, rfl, rfl⟩ := tile_pixel_inj hk hc hn' hn hcw' hcw hrh' hrh (hox'.trans hox.symm) (hoy'.trans hoy.symm)
  rfl

/-- Settles O57: twiddling stays in the grid's numbers, is one to one, and so reaches each. -/
theorem twiddleIsABijection : Obligations.TwiddleIsABijection := fun m n =>
  ⟨fun _ _ => twiddleUV_lt ⟨m, rfl⟩ ⟨n, rfl⟩, fun _ _ _ _ => twiddleUV_inj, fun _ => exists_twiddleUV_eq⟩

/-- Settles O58: a neighbour of an unstored place is a stored one, in whichever of the four words it lies. -/
theorem weightsReadOnlyStoredValues : Obligations.WeightsReadOnlyStoredValues := by
  refine ⟨fun ws c r hc hr => ?_, fun ws c r hc hr => ?_⟩
  · have hself : modmAt .two (modmGrid .two ws) (c + 4) (r + 2) = 0 ∨ (c + r) % 2 = 0 →
        modvAt .two (modvGrid .two ws) (c + 4) (r + 2) ≠ none := fun h =>
      modvAt_two_ne_none ws (by omega) (by omega) (h.imp id fun _ => by omega)
    have hnear : (c + r) % 2 ≠ 0 → modvAt .two (modvGrid .two ws) (c + 3) (r + 2) ≠ none ∧
        modvAt .two (modvGrid .two ws) (c + 5) (r + 2) ≠ none ∧ modvAt .two (modvGrid .two ws) (c + 4) (r + 1) ≠ none ∧
        modvAt .two (modvGrid .two ws) (c + 4) (r + 3) ≠ none := fun h => by
      refine ⟨?_, ?_, ?_, ?_⟩ <;> exact modvAt_two_ne_none ws (by omega) (by omega) (.inr (by omega))
    exact ⟨hself, fun _ => hnear, weight2_le (fun h => hself (h.imp id fun _ => by omega)) fun _ => hnear (by omega)⟩
  · have hv : modvAt .four (modvGrid .four ws) (c + 2) (r + 2) =
        some (unpack4 (wordAt .four ws (c + 2) (r + 2)) ((c + 2) % 4) ((r + 2) % 4)) :=
      modvAt_modvGrid .four ws (by simp only [ww]; omega) (by simp only [wh]; omega)
    rw [weight4, hv]
    exact ⟨Option.some_ne_none _, weightTable_mem _ _⟩

/-- Settles O59: the factors of a pixel add up to the word's size, and widening divides by it. -/
theorem equalWordsGiveConstantColors : Obligations.EqualWordsGiveConstantColors := fun _ w _ _ hc hr =>
  ⟨upscaleColor_const hc.le hr.le (colorA w.col), upscaleColor_const hc.le hr.le (colorB w.col)⟩

/-- Settles O60, by the blend of each kind of weight and the alpha of each kind of color. -/
theorem blendEndsPunchThroughAndColorModes : Obligations.BlendEndsPunchThroughAndColorModes := by
  refine ⟨fun ua ub => ⟨?_, ?_, fun w hw => ?_⟩,
    fun col => ⟨colorA_a_eq_15_iff col, colorB_a_eq_15_iff col, colorA_xor_one col, colorB_xor_one col⟩⟩
  · simp only [blendPixel_of_le (by decide : 0 ≤ 10), blendChannel_zero]
  · simp only [blendPixel_of_le (by decide : 8 ≤ 10), blendChannel_eight]
  · simp only [blendPixel_of_punch hw, and_self]

end Sys2Proof.Machine

/-! # Exceptions: the start checks (R364), the error entry (R365), CLR (R369), and a tile that is not admitted (R362) -/

namespace Sys2Proof.Machine

/-! ## The region checks (R364) -/

theorem checkRegions_eq_range_iff (i : Instr) (s : State) :
    checkRegions i s = some .range ↔ 2 ^ 64 < srcAddr s + srcLen i s ∨ 2 ^ 64 < dstAddr s + dstLen i s := by
  unfold checkRegions
  split_ifs with hrange hover
  · exact iff_of_true rfl hrange
  · exact iff_of_false (by simp) hrange
  · exact iff_of_false (by simp) hrange

/-- Two ranges have a member in common where neither is empty and each begins before the other ends. -/
theorem exists_mem_both_iff {a m b n : Nat} :
    (∃ x, a ≤ x ∧ x < a + m ∧ b ≤ x ∧ x < b + n) ↔ 0 < m ∧ 0 < n ∧ a < b + n ∧ b < a + m := by
  constructor
  · rintro ⟨x, hax, hxm, hbx, hxn⟩
    omega
  · rintro ⟨hm, hn, han, hbm⟩
    exact ⟨max a b, by omega⟩

theorem checkRegions_eq_overlap_iff (i : Instr) (s : State) : checkRegions i s = some .overlap ↔
    srcAddr s + srcLen i s ≤ 2 ^ 64 ∧ dstAddr s + dstLen i s ≤ 2 ^ 64 ∧
      ∃ a, srcAddr s ≤ a ∧ a < srcAddr s + srcLen i s ∧ dstAddr s ≤ a ∧ a < dstAddr s + dstLen i s := by
  rw [exists_mem_both_iff, ← and_assoc, ← not_lt, ← not_lt, ← not_or]
  unfold checkRegions
  split_ifs with hrange hover
  · exact iff_of_false (by simp) fun h => h.1 hrange
  · exact iff_of_true rfl ⟨hrange, hover⟩
  · exact iff_of_false (by simp) fun h => hover h.2

theorem checkRegions_mem (i : Instr) (s : State) : checkRegions i s ∈ [none, some .range, some .overlap] := by
  unfold checkRegions
  split_ifs <;> simp

theorem checkRegions_ne_some {c : ErrCode} (h : some c ∉ [none, some .range, some .overlap]) (i : Instr) (s : State) :
    checkRegions i s ≠ some c := fun hc => h (hc ▸ checkRegions_mem i s)

/-! ## The start checks of each kind of command (R364) -/

/-- WIDTH and HEIGHT are powers of two. -/
def DimsPow2 (s : State) : Prop := (∃ k, opW s = 2 ^ k) ∧ ∃ k, opH s = 2 ^ k

/-- WIDTH and HEIGHT are at least the least ones of the mode. -/
def DimsLarge (b : Bpp) (s : State) : Prop := minW b ≤ opW s ∧ minH b ≤ opH s

theorem startChecks_enc {i : Instr} {f : Fmt} {q : Quality} (hk : kindOf i = .enc f q) (s : State) :
    startChecks i s = checkRegions i s := by simp only [startChecks, hk]

/-- The checks of a decode command in their order: the form of its dimensions, their size, its regions. -/
theorem startChecks_dec_cases {i : Instr} {b : Bpp} (hk : kindOf i = .dec b) (s : State) :
    (¬DimsPow2 s ∧ startChecks i s = some .dimNotPow2) ∨
    (DimsPow2 s ∧ ¬DimsLarge b s ∧ startChecks i s = some .dimTooSmall) ∨
    (DimsPow2 s ∧ DimsLarge b s ∧ startChecks i s = checkRegions i s) := by
  have hpow2 : DimsPow2 s ↔ (isPow2 (opW s) && isPow2 (opH s)) = true := by
    rw [Bool.and_eq_true, isPow2_iff, isPow2_iff, DimsPow2]
  have hlarge : DimsLarge b s ↔ ¬(opW s < minW b ∨ opH s < minH b) := by rw [not_or, not_lt, not_lt, DimsLarge]
  rw [hpow2, hlarge]
  simp only [startChecks, hk]
  split_ifs with hp hs
  · exact .inr (.inl ⟨hp, not_not_intro hs, rfl⟩)
  · exact .inr (.inr ⟨hp, hs, rfl⟩)
  · exact .inl ⟨hp, rfl⟩

/-! ## The lengths of the regions in the register values (R76 to R79) -/

theorem srcLen_of_enc {i : Instr} {f : Fmt} {q : Quality} (hk : kindOf i = .enc f q) (s : State) :
    srcLen i s = 4 * s.width.toNat * s.height.toNat * s.depth.toNat := by simp only [srcLen, hk, opW, opH, opD]

theorem dstLen_of_enc {i : Instr} {f : Fmt} {q : Quality} (hk : kindOf i = .enc f q) (s : State) :
    dstLen i s = blockSize f * ((s.width.toNat + 3) / 4) * ((s.height.toNat + 3) / 4) * s.depth.toNat := by
  simp only [dstLen, hk]
  rfl

theorem srcLen_of_dec {i : Instr} {b : Bpp} (hk : kindOf i = .dec b) (s : State) :
    srcLen i s = s.width.toNat * s.height.toNat * bppOf b / 8 := by simp only [srcLen, hk, opW, opH]

theorem dstLen_of_dec {i : Instr} {b : Bpp} (hk : kindOf i = .dec b) (s : State) :
    dstLen i s = 4 * s.width.toNat * s.height.toNat := by simp only [dstLen, hk, opW, opH]

/-! ## The error entry and its return (R360, R365, R369) -/

theorem errField_le_five (t : Status) : errField t ≤ 5 := by
  cases t with
  | error c => cases c <;> decide
  | _ => exact Nat.zero_le 5

theorem statusWord_error_toNat (c : ErrCode) : (statusWord (.error c)).toNat = errNumber c * 16 + 3 := by
  rw [statusWord_toNat, errField, stateField, Nat.mul_comm]

/-- A command whose checks fail takes the error entry and does nothing else. -/
theorem exec_of_failed_check {i : Instr} {s : State} {c : ErrCode} (hb : s.status ≠ .busy) (hc : startChecks i s = some c) :
    exec i s = .next (errorEntry c s) := by
  have hi : i ≠ .clr := by rintro rfl; cases hc
  rw [exec_start hi hb, commandStart, hc]

theorem exec_clr_of_not_busy {s : State} (hb : s.status ≠ .busy) : exec .clr s = .next (clearStatus s) := by
  rw [exec_clr, if_neg hb]

/-! ## A tile with a byte that is not admitted (R72, R73) -/

theorem tileAdmitted_eq_false_iff (p : Params) (e : TileEffect) : tileAdmitted p e = false ↔
    (∃ a ∈ e.reads, engineAdmits p a = false) ∨ ∃ c ∈ e.writes, engineAdmits p c.1 = false := by
  simp only [tileAdmitted, Bool.and_eq_false_iff, List.all_eq_false, Bool.not_eq_true]

/-! ## The statements -/

/-- Settles O17: an encode command has the region checks alone, and a decode command those of its dimensions before them. -/
theorem startChecksReportTheFirstFailure : Obligations.StartChecksReportTheFirstFailure := by
  refine ⟨fun s => rfl, fun i f q s hk => ?_, fun i b s hk => ?_⟩
  · have hrange := checkRegions_eq_range_iff i s
    have hover := checkRegions_eq_overlap_iff i s
    rw [srcLen_of_enc hk, dstLen_of_enc hk] at hrange hover
    rw [startChecks_enc hk]
    exact ⟨hrange, hover, checkRegions_mem i s⟩
  · have hrange := checkRegions_eq_range_iff i s
    have hover := checkRegions_eq_overlap_iff i s
    rw [srcLen_of_dec hk, dstLen_of_dec hk] at hrange hover
    have hcases := startChecks_dec_cases hk s
    intro src dst sl dl pow2 large
    change (¬pow2 ∧ _) ∨ (pow2 ∧ ¬large ∧ _) ∨ (pow2 ∧ large ∧ _) at hcases
    obtain ⟨hp, hc⟩ | ⟨hp, hl, hc⟩ | ⟨hp, hl, hc⟩ := hcases
    · simp [hc, hp]
    · simp [hc, hp, hl]
    · rw [hc]
      exact ⟨iff_of_false (checkRegions_ne_some (by decide) i s) (not_not_intro hp),
        iff_of_false (checkRegions_ne_some (by decide) i s) fun h => h.2 hl,
        hrange.trans ⟨fun h => ⟨hp, hl, h⟩, fun h => h.2.2⟩, hover.trans ⟨fun h => ⟨hp, hl, h⟩, fun h => h.2.2⟩,
        checkRegions_ne_some (by decide) i s⟩

/-- Settles O18: a legal word whose checks fail and an illegal word end in the same entry, with the word latched. -/
theorem failedCheckTakesTheErrorEntry : Obligations.FailedCheckTakesTheErrorEntry := by
  refine ⟨⟨rfl, rfl, rfl, rfl, rfl, errField_le_five⟩, fun s w es c hb he hfail => ⟨?_, statusWord_error_toNat c⟩⟩
  obtain ⟨i, hd, hc⟩ | ⟨⟨e, hd⟩, rfl⟩ := hfail
  · have hlatched : startChecks i (withCommand w es s) = some c := (startChecks_withCommand i w es s).trans hc
    exact ((stepRunsTheDecodedCommand s i es).1 w hb he hd).trans (exec_of_failed_check hb hlatched)
  · exact (step_host he).trans (hostTurn_wr_cmd_of_illegal hb hd)

/-- Settles O33: the tile is not admitted, and a command whose next tile is not admitted is stuck. -/
theorem unadmittedByteLeavesTheEngineStuck : Obligations.UnadmittedByteLeavesTheEngineStuck :=
  fun i s hi hr h => exec_of_stuck hi hr ((tileAdmitted_eq_false_iff s.params (nextTile i s)).2 h)

/-- Settles O16, by `exec` of CLR in its two cases: a write of its word while no command runs is that `exec`. -/
theorem clrReturnsStatusToIdle : Obligations.ClrReturnsStatusToIdle := by
  refine fun s => ⟨rfl, rfl, exec_clr_of_not_busy, fun hb => by rw [exec_clr, if_pos hb], fun es he => ⟨fun hb => ?_, fun hb => ?_⟩⟩
  · exact ((stepRunsTheDecodedCommand s .clr es).1 0 hb he (decode_encode_word .clr)).trans (exec_clr_of_not_busy hb)
  · exact (step_host he).trans (hostTurn_wr_of_busy 0 0 hb)

end Sys2Proof.Machine

/-! # Reset and hazards: what reset leaves of an abandoned command (R390), the state after reset (R391), and the memory that the next
command finds (R392) -/

namespace Sys2Proof.Machine

/-! ## What reset leaves of an abandoned command (R390) -/

/-- The byte drawn for an abandoned command that is not stuck and whose source no race has touched is the old one, the engine's, or one
that the host wrote there. -/
theorem abandonedByte_untainted {i : Instr} {s : State} (hf : s.race.tainted = false)
    (ha : tileAdmitted s.params (nextTile i s) = true) (a n : Nat) :
    abandonedByte i s a n = Memory.read s.race.startMem a ∨ abandonedByte i s a n = Memory.read (engineMem i s) a ∨
      (a, abandonedByte i s a n) ∈ s.race.hostWrites := by
  obtain hraced | hhost := abandonedByte_cases i s a n
  · rw [hraced, ← or_assoc]
    exact .inl (racedByte_untainted hf ha a n)
  · exact .inr (.inr hhost)

/-! ## The memory a command starts from (R392) -/

/-- A start leaves memory alone, and remembers it where the command is BUSY then. -/
theorem commandStart_startMem {i : Instr} {s : State} (h : (commandStart i s).status = .busy) :
    (commandStart i s).race.startMem = s.mem := by
  obtain ⟨c, -, he⟩ | ⟨-, -, he⟩ | ⟨-, -, he⟩ := commandStart_cases i s
  · rw [he] at h
    cases h
  · rw [he] at h
    cases h
  · rw [he, startTiles_race]

/-- `exec` while no command runs leaves memory alone, and a command that it starts remembers it. -/
theorem exec_mem_of_not_busy {i : Instr} {s t : State} (hb : s.status ≠ .busy) (h : exec i s = .next t) :
    t.mem = s.mem ∧ (t.status = .busy → t.race.startMem = s.mem) := by
  obtain ⟨-, -, rfl⟩ | ⟨-, -, rfl⟩ | ⟨⟨hbusy, -⟩, -, -⟩ | ⟨hbusy, -⟩ := exec_cases h
  · exact ⟨rfl, nofun⟩
  · obtain ⟨-, -, hmem, -⟩ := commandStart_frame i s
    exact ⟨hmem, commandStart_startMem⟩
  · exact absurd hbusy hb
  · exact absurd hbusy hb

/-- A write of any word to CMD while no command runs leaves memory alone, and a command that it starts remembers it: a legal word is
`exec` of its command, and an illegal one starts none. -/
theorem step_wr_cmd_mem {s : State} {w : Word} {es : List Event} (hb : s.status ≠ .busy) (he : s.events = .host (.wr 0 w) :: es) :
    ∃ t, step s = .next t ∧ t.mem = s.mem ∧ (t.status = .busy → t.race.startMem = s.mem) := by
  obtain ⟨-, hcmd, -⟩ := registerWritesStoreStartOrAreDropped s 0 w es he
  obtain ⟨t, hstep, -, hlegal, hillegal⟩ := hcmd hb rfl
  refine ⟨t, hstep, ?_⟩
  cases hd : decode w with
  | ok i => exact exec_mem_of_not_busy (s := { s with events := es, cmd := w }) hb (hlegal i hd)
  | illegal e =>
    rw [hillegal e hd]
    exact ⟨rfl, nofun⟩

/-! ## The statements -/

/-- Settles O2, by the byte that reset draws for each place of the destination. -/
theorem resetLeavesOldOrNewDestinationBytes : Obligations.ResetLeavesOldOrNewDestinationBytes := by
  intro s es i he hr hf hw ha
  refine ⟨_, step_reset he, fun a hd hadm => ?_⟩
  simp only [inDest, decide_eq_true_eq] at hd
  obtain ⟨k, rfl⟩ := Nat.exists_eq_add_of_le hd.1
  have hbyte := resetMem_read_dest (s := { s with events := es }) (i := i) (k := k) hw (runningInstr_of_running hr)
    (by rw [dstLen_events]; omega) hadm
  rw [abandonedByte_events] at hbyte
  rw [resetEngine_mem]
  exact hbyte ▸ abandonedByte_untainted hf ha _ _

/-- Settles O11: the host's bytes stand in memory, and the write to CMD leaves memory as they left it. -/
theorem hostWritesReachTheNextCommand : Obligations.HostWritesReachTheNextCommand := by
  intro s addr bs w es hb hw he ha
  simp only [imp_and, forall_and] at ha
  obtain ⟨hadm, hreg⟩ := ha
  have hwrite := step_mw he hadm hreg
  obtain ⟨m, v, hm, hbytes, hother, hseen⟩ := hostWriteBytes_idle
    (s := { s with events := .host (.wr 0 w) :: es }) (bs := bs) hb hw (fun k hk => admits_lt (hadm k hk))
  rw [hm] at hwrite
  obtain ⟨u, hstart, hmem, hstartMem⟩ :=
    step_wr_cmd_mem (s := { s with events := .host (.wr 0 w) :: es, mem := m, unseen := v }) hb rfl
  exact ⟨_, u, hwrite, hbytes, fun a h => (hother a h).1, by simp [sameOperands], rfl, rfl, rfl, rfl, rfl, rfl, rfl, rfl, rfl, hseen,
    fun a h => (hother a h).2, hstart, hmem, hstartMem⟩

/-- Settles O3: the reset state holds what the reset input leaves in every register. -/
theorem resetStateHoldsTheResetValues : Obligations.ResetStateHoldsTheResetValues :=
  ⟨fun r => readReg_resetEngine r State.reset, rfl, rfl, rfl, rfl, rfl⟩

/-- Settles O31: no command runs, memory is empty, and no race is remembered. -/
theorem resetStateMeetsTheInvariant : Obligations.ResetStateMeetsTheInvariant :=
  .of_not_busy Memory.wf_nil nofun nofun rfl

end Sys2Proof.Machine
